-- ==== Sys2Proof/Word.lean ====
section
/-! DEFINITION. The word types of the block: the widths spec/ fixes. -/

namespace Sys2Proof

/-- A DP or AP register value: every transfer moves 32 bits (00_scope.md R9 DATA_WIDTH, 20_memory.md R64). -/
abbrev Word := BitVec 32

/-- A DP address, an AP register address or an AP number of a command word: 8 bits (30_encoding.md R100). -/
abbrev Addr := BitVec 8

/-- The widest word on a wire: the 40 clocks of DrScan(35) (30_encoding.md R93). Bit 0 is the first clock (00_scope.md R12). -/
abbrev Wire := BitVec 40

end Sys2Proof
end

