-- ==== Sys2Proof/Syntax.lean ====
section
/-! DEFINITION. The instructions: one constructor per row of spec/opcode_table.json, and the words they arrive in. -/

namespace Sys2Proof

/-- The DP registers a DPACC write may name: "A[3:2] = 0b01 or 0b10 only" (41_jtag_tap.md R181, opcode_table.json DPACC_W). -/
inductive DpaccReg where
  /-- A[3:2] = 0b01. -/
  | ctrlStat
  /-- A[3:2] = 0b10. -/
  | select
deriving DecidableEq, Repr, Inhabited

/-- The 44 rows of spec/opcode_table.json. An SWD write carries the 32 data bits of its data phase (30_encoding.md R85);
`a` is A[3:2]; `addr`, `ap`, `data`, `hz` are the fields of the command word (30_encoding.md R100). -/
inductive Instr where
  -- SWD_REQ (30_encoding.md R83)
  | dpR0 | dpR4 | dpR8 | dpRC
  | dpW0 (data : Word) | dpW4 (data : Word) | dpW8 (data : Word) | dpWC (data : Word)
  | apR0 | apR1 | apR2 | apR3
  | apW0 (data : Word) | apW1 (data : Word) | apW2 (data : Word) | apW3 (data : Word)
  -- JTAG_IR (30_encoding.md R87)
  | irAbort | irDpacc | irApacc | irIdcode | irBypass
  -- JTAG_DR35, JTAG_DR32 (30_encoding.md R89, R91, R92)
  | dpaccR (a : BitVec 2)
  | dpaccW (reg : DpaccReg) (data : Word)
  | apaccR (a : BitVec 2)
  | apaccW (a : BitVec 2) (data : Word)
  | abortW (data : Word)
  | idcodeR
  -- HOSTCMD (30_encoding.md R101)
  | connectSwd | connectJtag
  | setClock (hz : Word)
  | readDp (addr : Addr)
  | writeDp (addr : Addr) (data : Word)
  | readAp (ap : Addr) (addr : Addr)
  | writeAp (ap : Addr) (addr : Addr) (data : Word)
  | powerUp
  -- HOSTCMD, reserved opcodes (30_encoding.md R102)
  | reservedOp7 | reservedOp8 | reservedOp9 | reservedOp10 | reservedOp11
  | reservedOp12 | reservedOp13 | reservedOp14 | reservedOp15
deriving DecidableEq, Repr

/-- A word at one of the block's interfaces, tagged with its format (30_encoding.md R80). The tag is the interface the
word stands on: a bare number does not say which of the formats it is (log 11, log 12). -/
inductive PortWord where
  /-- HOSTCMD: the 96-bit command word (30_encoding.md R100). -/
  | host (w : BitVec 96)
  /-- SWD_REQ in bits 7:0 and the SWD_DATA the host drives in bits 40:8, all zero for a read (30_encoding.md R81, R85). -/
  | swd (w : BitVec 41)
  /-- JTAG_IR (30_encoding.md R87). -/
  | ir (w : BitVec 4)
  /-- JTAG_DR35 for the data register that instruction `ir` selects (41_jtag_tap.md R168). -/
  | dr35 (ir : BitVec 4) (w : BitVec 35)
  /-- JTAG_DR32 for the data register that instruction `ir` selects (41_jtag_tap.md R168). -/
  | dr32 (ir : BitVec 4) (w : BitVec 32)
deriving DecidableEq, Repr

/-- Why a port word is no instruction of the table. -/
inductive DecodeError where
  /-- A CONNECT whose proto field is 2 or 3: no row, refused with BadProtocol (42_dpap_commands.md R219 row 2). -/
  | badProtocol (proto : BitVec 2)
  /-- An SWD request whose Start, Stop or Park bit is not 1, 0, 1 (30_encoding.md R81). -/
  | swdFraming
  /-- An SWD request whose parity bit does not match (30_encoding.md R82). -/
  | swdRequestParity
  /-- An SWD write whose data parity bit does not match (30_encoding.md R85). -/
  | swdDataParity
  /-- An SWD read with a data phase from the host (30_encoding.md R86). -/
  | swdReadDrivesData
  /-- One of the eleven IR codes the spec gives no meaning (30_encoding.md R88). -/
  | reservedIr (ir : BitVec 4)
  /-- No data register of this length behind this IR code among the table's rows (41_jtag_tap.md R168). -/
  | noDataRegister (ir : BitVec 4)
  /-- A DPACC or APACC read whose DATAIN is not 0 (30_encoding.md R89). -/
  | jtagReadDrivesData
  /-- A DPACC write to A[3:2] = 0b00 or 0b11, never issued (10_state.md R35). -/
  | dpaccWriteAddress (a : BitVec 2)
  /-- An ABORT scan whose bits [2:0] are not 0 (30_encoding.md R91). -/
  | abortLowBits
  /-- An IDCODE scan whose shift-in is not 0 (30_encoding.md R92). -/
  | idcodeShiftIn
deriving DecidableEq, Repr

end Sys2Proof
end

