-- ==== Sys2Proof/Decode.lean ====
section
/-! DEFINITION. The formats of 30_encoding.md: the packing functions, the decoder of a port word, and the encoder. -/

namespace Sys2Proof

/-- The exclusive-or of all the bits of a value (00_scope.md R13). -/
def parity {n : Nat} (v : BitVec n) : Bool := (List.range n).foldl (fun p i => p ^^ v.getLsbD i) false

/-- `SwdRequest(apndp, rnw, a)`: Park, Stop, Parity, A3, A2, RnW, APnDP, Start from bit 7 down to bit 0
(30_encoding.md R81, R82). -/
def swdRequest (apndp rnw : Bool) (a : BitVec 2) : BitVec 8 :=
  1#1 ++ 0#1 ++ BitVec.ofBool (apndp ^^ rnw ^^ a.getLsbD 0 ^^ a.getLsbD 1) ++ a ++
    BitVec.ofBool rnw ++ BitVec.ofBool apndp ++ 1#1

/-- The SWD data phase: `{parity(data), data[31:0]}` (30_encoding.md R85). -/
def swdData (data : Word) : BitVec 33 := BitVec.ofBool (parity data) ++ data

/-- `XpaccIn(rnw, a, data)`: DATAIN in bits 34:3, A[3:2] in bits 2:1, RnW in bit 0 (30_encoding.md R89). -/
def xpaccIn (rnw : Bool) (a : BitVec 2) (data : Word) : BitVec 35 := data ++ a ++ BitVec.ofBool rnw

/-- The ABORT shift-in value: the ABORT word in bits 34:3, zeros below (30_encoding.md R91). -/
def abortIn (v : Word) : BitVec 35 := v ++ 0#3

/-- The JTAG-DP instruction codes (30_encoding.md R87). -/
def irCodeAbort : BitVec 4 := 0x8
def irCodeDpacc : BitVec 4 := 0xA
def irCodeApacc : BitVec 4 := 0xB
def irCodeIdcode : BitVec 4 := 0xE
def irCodeBypass : BitVec 4 := 0xF

/-- A[3:2] of the RDBUFF read (10_state.md R35). -/
def aRdbuff : BitVec 2 := 3

/-- A[3:2] of CTRL/STAT (10_state.md R35). -/
def aCtrlStat : BitVec 2 := 1

/-- A[3:2] of SELECT (10_state.md R35). -/
def aSelect : BitVec 2 := 2

/-- A[3:2] of the register a DPACC write names (41_jtag_tap.md R181). -/
def DpaccReg.a : DpaccReg → BitVec 2
  | .ctrlStat => aCtrlStat
  | .select => aSelect

/-! ## The decoder -/

/-- The row of an SWD read request (30_encoding.md R83). -/
def swdReadRow (apndp : Bool) (a : BitVec 2) : Instr :=
  match apndp, a.toNat with
  | false, 0 => .dpR0
  | false, 1 => .dpR4
  | false, 2 => .dpR8
  | false, _ => .dpRC
  | true, 0 => .apR0
  | true, 1 => .apR1
  | true, 2 => .apR2
  | true, _ => .apR3

/-- The row of an SWD write request (30_encoding.md R83). -/
def swdWriteRow (apndp : Bool) (a : BitVec 2) (data : Word) : Instr :=
  match apndp, a.toNat with
  | false, 0 => .dpW0 data
  | false, 1 => .dpW4 data
  | false, 2 => .dpW8 data
  | false, _ => .dpWC data
  | true, 0 => .apW0 data
  | true, 1 => .apW1 data
  | true, 2 => .apW2 data
  | true, _ => .apW3 data

/-- An SWD request with its host data phase (30_encoding.md R81, R82, R85). -/
def decodeSwd (w : BitVec 41) : Except DecodeError Instr :=
  let apndp := w.getLsbD 1
  let rnw := w.getLsbD 2
  let a := w.extractLsb' 3 2
  let data := w.extractLsb' 8 32
  if !(w.getLsbD 0 && !w.getLsbD 6 && w.getLsbD 7) then .error .swdFraming
  else if w.getLsbD 5 != (apndp ^^ rnw ^^ a.getLsbD 0 ^^ a.getLsbD 1) then .error .swdRequestParity
  else if rnw then
    if w.extractLsb' 8 33 = 0 then .ok (swdReadRow apndp a) else .error .swdReadDrivesData
  else if w.getLsbD 40 != parity data then .error .swdDataParity
  else .ok (swdWriteRow apndp a data)

/-- A JTAG instruction code (30_encoding.md R87, R88). -/
def decodeIr (w : BitVec 4) : Except DecodeError Instr :=
  if w = irCodeAbort then .ok .irAbort
  else if w = irCodeDpacc then .ok .irDpacc
  else if w = irCodeApacc then .ok .irApacc
  else if w = irCodeIdcode then .ok .irIdcode
  else if w = irCodeBypass then .ok .irBypass
  else .error (.reservedIr w)

/-- A DPACC shift-in value (30_encoding.md R89, 41_jtag_tap.md R180, R181). -/
def decodeDpacc (w : BitVec 35) : Except DecodeError Instr :=
  let data := w.extractLsb' 3 32
  let a := w.extractLsb' 1 2
  if w.getLsbD 0 then
    if data = 0 then .ok (.dpaccR a) else .error .jtagReadDrivesData
  else if a = aCtrlStat then .ok (.dpaccW .ctrlStat data)
  else if a = aSelect then .ok (.dpaccW .select data)
  else .error (.dpaccWriteAddress a)

/-- An APACC shift-in value (30_encoding.md R89, 41_jtag_tap.md R182, R183). -/
def decodeApacc (w : BitVec 35) : Except DecodeError Instr :=
  let data := w.extractLsb' 3 32
  let a := w.extractLsb' 1 2
  if w.getLsbD 0 then
    if data = 0 then .ok (.apaccR a) else .error .jtagReadDrivesData
  else .ok (.apaccW a data)

/-- A 35-bit data register scan, by the instruction that selects the register (41_jtag_tap.md R168). -/
def decodeDr35 (ir : BitVec 4) (w : BitVec 35) : Except DecodeError Instr :=
  if ir = irCodeDpacc then decodeDpacc w
  else if ir = irCodeApacc then decodeApacc w
  else if ir = irCodeAbort then
    if w.extractLsb' 0 3 = 0 then .ok (.abortW (w.extractLsb' 3 32)) else .error .abortLowBits
  else .error (.noDataRegister ir)

/-- A 32-bit data register scan: only IDCODE has one (30_encoding.md R92). -/
def decodeDr32 (ir : BitVec 4) (w : BitVec 32) : Except DecodeError Instr :=
  if ir = irCodeIdcode then
    if w = 0 then .ok .idcodeR else .error .idcodeShiftIn
  else .error (.noDataRegister ir)

/-- A host command word; bits [7:6] and [31:24] are ignored, and so is every field the opcode does not use
(30_encoding.md R100, R101, R102). -/
def decodeHost (w : BitVec 96) : Except DecodeError Instr :=
  let proto := w.extractLsb' 4 2
  let ap := w.extractLsb' 8 8
  let addr := w.extractLsb' 16 8
  let data := w.extractLsb' 32 32
  let hz := w.extractLsb' 64 32
  match (w.extractLsb' 0 4).toNat with
  | 0 => if proto = 0 then .ok .connectSwd else if proto = 1 then .ok .connectJtag else .error (.badProtocol proto)
  | 1 => .ok (.setClock hz)
  | 2 => .ok (.readDp addr)
  | 3 => .ok (.writeDp addr data)
  | 4 => .ok (.readAp ap addr)
  | 5 => .ok (.writeAp ap addr data)
  | 6 => .ok .powerUp
  | 7 => .ok .reservedOp7
  | 8 => .ok .reservedOp8
  | 9 => .ok .reservedOp9
  | 10 => .ok .reservedOp10
  | 11 => .ok .reservedOp11
  | 12 => .ok .reservedOp12
  | 13 => .ok .reservedOp13
  | 14 => .ok .reservedOp14
  | _ => .ok .reservedOp15

/-- The decoder: total on port words, and what is no instruction is rejected by name. -/
def decode : PortWord → Except DecodeError Instr
  | .host w => decodeHost w
  | .swd w => decodeSwd w
  | .ir w => decodeIr w
  | .dr35 ir w => decodeDr35 ir w
  | .dr32 ir w => decodeDr32 ir w

/-! ## The encoder -/

/-- The command word with its reserved fields 0 (30_encoding.md R100). -/
def hostWord (op : BitVec 4) (proto : BitVec 2) (ap addr : Addr) (data hz : Word) : BitVec 96 :=
  hz ++ data ++ 0#8 ++ addr ++ ap ++ 0#2 ++ proto ++ op

/-- The word of an SWD read: the host drives no data phase (30_encoding.md R86). -/
def swdReadWord (apndp : Bool) (a : BitVec 2) : PortWord := .swd (0#33 ++ swdRequest apndp true a)

/-- The word of an SWD write with the data phase the host drives (30_encoding.md R86). -/
def swdWriteWord (apndp : Bool) (a : BitVec 2) (data : Word) : PortWord :=
  .swd (swdData data ++ swdRequest apndp false a)

/-- The word of each instruction. -/
def encode : Instr → PortWord
  | .dpR0 => swdReadWord false 0
  | .dpR4 => swdReadWord false 1
  | .dpR8 => swdReadWord false 2
  | .dpRC => swdReadWord false 3
  | .dpW0 data => swdWriteWord false 0 data
  | .dpW4 data => swdWriteWord false 1 data
  | .dpW8 data => swdWriteWord false 2 data
  | .dpWC data => swdWriteWord false 3 data
  | .apR0 => swdReadWord true 0
  | .apR1 => swdReadWord true 1
  | .apR2 => swdReadWord true 2
  | .apR3 => swdReadWord true 3
  | .apW0 data => swdWriteWord true 0 data
  | .apW1 data => swdWriteWord true 1 data
  | .apW2 data => swdWriteWord true 2 data
  | .apW3 data => swdWriteWord true 3 data
  | .irAbort => .ir irCodeAbort
  | .irDpacc => .ir irCodeDpacc
  | .irApacc => .ir irCodeApacc
  | .irIdcode => .ir irCodeIdcode
  | .irBypass => .ir irCodeBypass
  | .dpaccR a => .dr35 irCodeDpacc (xpaccIn true a 0)
  | .dpaccW reg data => .dr35 irCodeDpacc (xpaccIn false reg.a data)
  | .apaccR a => .dr35 irCodeApacc (xpaccIn true a 0)
  | .apaccW a data => .dr35 irCodeApacc (xpaccIn false a data)
  | .abortW data => .dr35 irCodeAbort (abortIn data)
  | .idcodeR => .dr32 irCodeIdcode 0
  | .connectSwd => .host (hostWord 0 0 0 0 0 0)
  | .connectJtag => .host (hostWord 0 1 0 0 0 0)
  | .setClock hz => .host (hostWord 1 0 0 0 0 hz)
  | .readDp addr => .host (hostWord 2 0 0 addr 0 0)
  | .writeDp addr data => .host (hostWord 3 0 0 addr data 0)
  | .readAp ap addr => .host (hostWord 4 0 ap addr 0 0)
  | .writeAp ap addr data => .host (hostWord 5 0 ap addr data 0)
  | .powerUp => .host (hostWord 6 0 0 0 0 0)
  | .reservedOp7 => .host (hostWord 7 0 0 0 0 0)
  | .reservedOp8 => .host (hostWord 8 0 0 0 0 0)
  | .reservedOp9 => .host (hostWord 9 0 0 0 0 0)
  | .reservedOp10 => .host (hostWord 10 0 0 0 0 0)
  | .reservedOp11 => .host (hostWord 11 0 0 0 0 0)
  | .reservedOp12 => .host (hostWord 12 0 0 0 0 0)
  | .reservedOp13 => .host (hostWord 13 0 0 0 0 0)
  | .reservedOp14 => .host (hostWord 14 0 0 0 0 0)
  | .reservedOp15 => .host (hostWord 15 0 0 0 0 0)

/-! ## The words of the opcode table -/

/-- Whether a number is one of the sixteen SWD request bytes (30_encoding.md R83). -/
def isSwdRequestByte (w : Nat) : Bool :=
  match decodeSwd (BitVec.ofNat 41 (w % 256)) with
  | .ok _ => true
  | .error e => e == .swdDataParity

/-- The port word a bare number of the opcode table stands for. The table gives no format tag with a number, so the
format is read from the width and the bits: a number of at most 4 bits is an IR code, a 32-bit number the IDCODE scan, a
33- to 40-bit number a DPACC scan, a number of up to 48 bits whose low byte is an SWD request is that request, and every
other number is a command word. Log 12. -/
def tableWord (nbits w : Nat) : PortWord :=
  if nbits ≤ 4 then .ir (BitVec.ofNat 4 w)
  else if nbits = 32 then .dr32 irCodeIdcode (BitVec.ofNat 32 w)
  else if 32 < nbits ∧ nbits ≤ 40 then .dr35 irCodeDpacc (BitVec.ofNat 35 w)
  else if nbits ≤ 48 ∧ isSwdRequestByte w then .swd (BitVec.ofNat 41 w)
  else .host (BitVec.ofNat 96 w)

/-- The instruction the decoder reads from a word of the opcode table, the bits above `nbits` zero. -/
def decodeTableWord (nbits w : Nat) : Option Instr :=
  match decode (tableWord nbits (w % 2 ^ nbits)) with
  | .ok i => some i
  | .error _ => none

end Sys2Proof
end

