-- ==== Sys2Proof/Config.lean ====
section
/-! DEFINITION. What an instance fixes for its life (00_scope.md R9, 10_state.md R34), and the free values of the model:
constants without a body, so that nothing can be proved of their value. -/

namespace Sys2Proof

/-- JTAG_STICKY_CLEAR (00_scope.md R9, 41_jtag_tap.md R186). -/
inductive StickyClear where
  /-- The default: an ABORT write through the ABORT instruction. -/
  | abortWrite
  /-- For JTAG-DPs that clear sticky flags by writing 1 to them in CTRL/STAT. -/
  | ctrlStatW1C
deriving DecidableEq, Repr, Inhabited

/-- PROTOCOL_CAPS: which protocols the probe supports (00_scope.md R9). -/
structure Caps where
  swd : Bool
  jtag : Bool
deriving DecidableEq, Repr, Inhabited

/-- The implementation parameters of 00_scope.md R9. -/
structure Params where
  /-- WAIT_RETRIES: retries after the first WAIT. -/
  waitRetries : Nat
  /-- PWR_POLLS: CTRL/STAT polls POWER_UP makes; the spec wants 1 or more. -/
  pwrPolls : Nat
  /-- IDLE_CYCLES: idle cycles after an SWD attempt. -/
  idleCycles : Nat
  jtagStickyClear : StickyClear
  caps : Caps
deriving DecidableEq, Repr, Inhabited

/-- The parameters the spec allows: PWR_POLLS is at least 1 (00_scope.md R9). -/
def Params.wf (p : Params) : Bool := decide (1 ≤ p.pwrPolls)

/-- What a transport call returns (00_scope.md R14): Ok with the sampled bits (bit 0 the first clock), or one of the two
transport errors. A call that samples fewer than 40 bits uses the low ones (log 23). -/
inductive Answer where
  | ok (bits : Wire)
  | disconnected
  | unsupported
deriving DecidableEq, Repr, Inhabited

/-- The free draw number k of the transport (00_scope.md R6, 93_implementation_defined.md U7). No body: any answer. Log 1. -/
opaque Config.transport : Nat → Answer

/-- WAIT_RETRIES of an instance nobody has configured: OPEN in 00_scope.md R9. Log 2. -/
opaque Config.waitRetries : Nat

/-- PWR_POLLS less one, so that PWR_POLLS is at least 1: OPEN in 00_scope.md R9. Log 2. -/
opaque Config.pwrPollsLessOne : Nat

/-- Whether SWD is in PROTOCOL_CAPS: OPEN in 00_scope.md R9. Log 2. -/
opaque Config.supportsSwd : Bool

/-- Whether JTAG is in PROTOCOL_CAPS: OPEN in 00_scope.md R9. Log 2. -/
opaque Config.supportsJtag : Bool

/-- The parameters of a newly created instance: the defaults 00_scope.md R9 gives, and free constants for the rest. Log 2. -/
def Config.params : Params where
  waitRetries := Config.waitRetries
  pwrPolls := Config.pwrPollsLessOne + 1
  idleCycles := 0
  jtagStickyClear := .abortWrite
  caps := { swd := Config.supportsSwd, jtag := Config.supportsJtag }

end Sys2Proof
end

