-- ==== Sys2Proof/Machine/State.lean ====
section
/-! DEFINITION. The state of the block (10_state.md section 1), the results and errors of a command (60_exceptions.md
section 1), the observation (00_scope.md R8), and reset (10_state.md R45). -/

namespace Sys2Proof.Machine

/-! ## The block state -/

/-- The link status (10_state.md R21). -/
inductive Link where
  | unconnected
  | ready
  | desync
  | disconnected
deriving DecidableEq, Repr, Inhabited

/-- The protocols (10_state.md R22). -/
inductive Protocol where
  | swd
  | jtag
deriving DecidableEq, Repr, Inhabited

/-- The sixteen TAP controller states, in the order of 41_jtag_tap.md R160. -/
inductive TapState where
  /-- Test-Logic-Reset -/
  | tlr
  /-- Run-Test/Idle -/
  | rti
  | selDR
  | capDR
  | shDR
  | ex1DR
  | pauseDR
  | ex2DR
  | updDR
  | selIR
  | capIR
  | shIR
  | ex1IR
  | pauseIR
  | ex2IR
  | updIR
deriving DecidableEq, Repr, Inhabited

/-- The record `st` of 10_state.md R20: all that persists between commands. -/
structure Block where
  /-- R21 -/
  link : Link
  /-- R22 -/
  proto : Option Protocol
  /-- R23: the block's copy of the target's SELECT, `none` when it holds nothing. -/
  selectCache : Option Word
  /-- R24: the block's copy of the JTAG-DP instruction register. -/
  irCache : Option (BitVec 4)
  /-- R25: the TAP state the block knows the target to be in. -/
  tap : Option TapState
  /-- R26 -/
  dpPowered : Bool
  /-- R27: a sticky-clear sequence could not finish. -/
  clearPending : Bool
  /-- R28: the identity read by the last successful CONNECT. -/
  dpIdcode : Option Word
  /-- R29: the last CTRL/STAT value any transaction returned. -/
  ctrlStatShadow : Option Word
deriving DecidableEq, Repr

/-- The reset values of 10_state.md R45 and 70_reset_and_hazards.md R300. -/
def Block.reset : Block where
  link := .unconnected
  proto := none
  selectCache := none
  irCache := none
  tap := none
  dpPowered := false
  clearPending := false
  dpIdcode := none
  ctrlStatShadow := none

/-! ## Link results, errors, results -/

/-- The link results other than Ok (40_swd_link.md R130). -/
inductive LinkFail where
  | fault
  | parityError
  | timeout (retries : Nat)
  | invalidAck (ack : BitVec 3)
  | disconnected
  | unsupported
deriving DecidableEq, Repr

/-- What started the fault handling (60_exceptions.md R267). -/
inductive FaultCause where
  | ackFault
  | parity
  | stickyObserved
  | pendingClear
deriving DecidableEq, Repr

/-- The refusal reasons (42_dpap_commands.md R219). -/
inductive Reason where
  | badOpcode
  | badProtocol
  | badAddress
  | dpBank
  | targetSel
  | orunDetect
  | badClock
deriving DecidableEq, Repr

/-- Which loop ran out (60_exceptions.md R260 `kind`). -/
inductive TimeoutKind where
  | wait
  | powerUp
deriving DecidableEq, Repr

/-- The errors of 60_exceptions.md R261 with what each carries. -/
inductive Error where
  /-- ProbeError::Disconnected -/
  | disconnected
  /-- ProbeError::Unsupported -/
  | unsupported
  /-- ProtocolError::Timeout -/
  | timeout (kind : TimeoutKind) (retries : Nat)
  /-- ProtocolError::InvalidAck -/
  | invalidAck (ack : BitVec 3)
  /-- ProtocolError::Desync -/
  | desync
  /-- AccessError::Fault -/
  | accessFault (cause : FaultCause) (ctrlStat : Option Word) (clearFailed : Bool)
  /-- PreconditionError::NotConnected -/
  | notConnected
  /-- PreconditionError::DpNotPowered -/
  | dpNotPowered
  /-- PreconditionError::Refused -/
  | refused (reason : Reason)
deriving DecidableEq, Repr

/-- The error record a failed command returns, field by field (60_exceptions.md R260). -/
structure ErrorRecord where
  code : BitVec 8
  op : BitVec 4
  ap : Addr
  addr : Addr
  kind : Option TimeoutKind
  retries : Nat
  ack : BitVec 3
  cause : Option FaultCause
  ctrlStat : Option Word
  clearFailed : Bool
  reason : Option Reason
deriving DecidableEq, Repr

/-- A command's result (30_encoding.md R100): `Ok(value)`, the value empty for some commands, or `Err(error)`. -/
inductive Result where
  | ok (value : Option Word)
  | err (e : ErrorRecord)
deriving DecidableEq, Repr

/-- What a result answers: an instruction of the table, or a CONNECT whose proto field is 2 or 3 (log 13). -/
inductive Request where
  | instr (i : Instr)
  | badConnect (proto : BitVec 2)
deriving DecidableEq, Repr

/-! ## The observation -/

/-- How a transport call that returns no data ended (00_scope.md R14). -/
inductive CallStatus where
  | ok
  | disconnected
  | unsupported
deriving DecidableEq, Repr

/-- One observable event (00_scope.md R8): a transport call with its arguments and returned value, an
ApShadowInvalidate pulse (60_exceptions.md R268), or a command's result. -/
inductive Obs where
  /-- `SendBits(n, v)` -/
  | sendBits (n : Nat) (bits : BitVec 33) (status : CallStatus)
  /-- `RecvBits(n) -> v`, the answer cut to n bits -/
  | recvBits (n : Nat) (answer : Answer)
  /-- `ResetLine()` -/
  | resetLine (status : CallStatus)
  /-- `SetClock(hz)` -/
  | setClock (hz : Word) (status : CallStatus)
  /-- `JtagSeq(n, tms, tdi) -> tdo`, the answer cut to n bits -/
  | jtagSeq (n : Nat) (tms tdi : Wire) (answer : Answer)
  /-- `emit ApShadowInvalidate` -/
  | apShadowInvalidate
  /-- a (command, result) pair -/
  | result (request : Request) (r : Result)
deriving DecidableEq, Repr

/-! ## The state of the model -/

/-- The machine: the block, its fixed parameters, and its boundary with the host and the transport.
`port`, `answers`, `draws` and `trace` are the model's own fields (log 1, log 4, log 18). -/
structure State where
  /-- The block state `st` (10_state.md R20). -/
  st : Block
  /-- The instance's parameters; no step writes them (10_state.md R34). -/
  params : Params
  /-- The port words the host has put on the command port and the block has not yet taken, first to run first. -/
  port : List PortWord
  /-- The transport's answers still to come; when it is empty the answers are the free draws of `Config.transport`. -/
  answers : List Answer
  /-- How many free draws have been made. -/
  draws : Nat
  /-- What has been observed, oldest first. -/
  trace : List Obs
deriving DecidableEq, Repr

/-- A new instance: the block at its reset values, nothing on the port, nothing observed (10_state.md R45,
70_reset_and_hazards.md R300; the model's own fields: log 1, log 2, log 4). -/
def State.reset : State where
  st := Block.reset
  params := Config.params
  port := []
  answers := []
  draws := 0
  trace := []

/-! ## How a step can stop -/

/-- Reasons a step ends in a fault. There is none: the spec's every failure is an error record and the block goes on
(60_exceptions.md R260, R278). -/
inductive Fault where
deriving DecidableEq, Repr

/-- Reasons a step is refused. Each is safe: the model stops where the spec gives no effect. -/
inductive Refusal where
  /-- The instruction has no meaning in this model yet. No arm of exec uses it. Safe. -/
  | notModelled (mnemonic : String)
  /-- The word at the port is no instruction of the opcode table; raised by the fetch. Safe: the spec gives such a word
  no meaning (log 15). -/
  | undecodable (e : DecodeError)
  /-- A request of a link format while the connected protocol is the other one: `st.proto` selects the encoder for
  every transaction (10_state.md R22) and the spec gives the other one no effect. Raised by the link rows. Safe (log 6). -/
  | encoderNotSelected
  /-- An AP request of a link format while the block does not hold the target's SELECT: such a request is issued only
  when it does (40_swd_link.md R140, R141). Raised by the AP link rows. Safe (log 7). -/
  | selectNotHeld
deriving DecidableEq, Repr

end Sys2Proof.Machine
end

