-- ==== Sys2Proof/Machine/Flags.lean ====
section
/-! DEFINITION. The tests that stand in for condition flags (10_state.md R33): the sticky and power tests of a CTRL/STAT
value, and the decoding of the acknowledges. -/

namespace Sys2Proof.Machine

/-- Bits 7, 5, 4, 1: WDATAERR, STICKYERR, STICKYCMP, STICKYORUN (10_state.md R36). -/
def stickyMask : Word := 0x000000B2

/-- Bits 30, 28: the power-up requests (10_state.md R36). -/
def pwrupReq : Word := 0x50000000

/-- Bits 31, 29: the power-up acknowledges (10_state.md R36). -/
def pwrupAck : Word := 0xA0000000

/-- The read-write fields of CTRL/STAT (10_state.md R36). -/
def csRwMask : Word := 0x54FFFF0D

/-- The sticky test (10_state.md R37). -/
def sticky (v : Word) : Bool := v &&& stickyMask != 0

/-- The power test (10_state.md R37). -/
def powered (v : Word) : Bool := v &&& pwrupAck == pwrupAck

/-- A write that drops a power-up request: v[28] = 0 or v[30] = 0 (42_dpap_commands.md R213). -/
def dropsPower (v : Word) : Bool := !v.getLsbD 28 || !v.getLsbD 30

/-- A decoded acknowledge. -/
inductive Ack where
  | ok
  | wait
  | fault
  | invalid (ack : BitVec 3)
deriving DecidableEq, Repr

/-- The SWD acknowledge (30_encoding.md R84). -/
def swdAck (v : BitVec 3) : Ack :=
  if v = 0b001 then .ok else if v = 0b010 then .wait else if v = 0b100 then .fault else .invalid v

/-- The JTAG-DP acknowledge: no FAULT (30_encoding.md R90). -/
def jtagAck (v : BitVec 3) : Ack :=
  if v = 0b010 then .ok else if v = 0b001 then .wait else .invalid v

/-- The parity test of a received data phase: w[32] = parity(w[31:0]) (40_swd_link.md R124). -/
def swdDataOk (w : BitVec 33) : Bool := w.getLsbD 32 == parity (w.extractLsb' 0 32)

end Sys2Proof.Machine
end

