-- ==== Sys2Proof/Machine/Operands.lean ====
section
/-! DEFINITION. The operands the block assembles (30_encoding.md R95): SELECT values, clear values, the TMS and TDI words
of the JTAG sequences, and the fields of a command that its error record repeats. -/

namespace Sys2Proof.Machine

/-- A[3:2] of a register address (30_encoding.md R95). -/
def regA (addr : Addr) : BitVec 2 := addr.extractLsb' 2 2

/-- `RequiredSelect(ap, addr)`: APSEL in bits 31:24, APBANKSEL in bits 7:4 (20_memory.md R61, 10_state.md R38). -/
def requiredSelect (ap addr : Addr) : Word := ap ++ 0#16 ++ addr.extractLsb' 4 4 ++ 0#4

/-- The number of the AP a SELECT value selects (10_state.md R38). -/
def selectAp (v : Word) : Addr := v.extractLsb' 24 8

/-- The address of the AP register that A[3:2] = a reaches under a SELECT value (20_memory.md R60). -/
def selectAddr (v : Word) (a : BitVec 2) : Addr := v.extractLsb' 4 4 ++ a ++ 0#2

/-- `AbortValue(v)`: each sticky bit seen maps to its own clear bit (10_state.md R40). -/
def abortValue (v : Word) : Word :=
  0#27 ++ BitVec.ofBool (v.getLsbD 1) ++ BitVec.ofBool (v.getLsbD 7) ++ BitVec.ofBool (v.getLsbD 5) ++
    BitVec.ofBool (v.getLsbD 4) ++ 0#1

/-- The value CONNECT writes to ABORT (10_state.md R40). -/
def abortAllClear : Word := 0x0000001E

/-- The CTRL/STAT value that clears the sticky bits of v by writing 1 to them and rewrites the read-write fields
unchanged (41_jtag_tap.md R186). -/
def w1cValue (v : Word) : Word := (v &&& csRwMask) ||| (v &&& stickyMask)

/-- The turnaround length TRN, fixed at 1 (00_scope.md R9, 40_swd_link.md R122). -/
def trn : Nat := 1

/-- The TMS word of TapReset and its length (30_encoding.md R93). -/
def tapResetTms : Wire := 0x1F
def tapResetLen : Nat := 6

/-- The TMS word of IrScan and its length (30_encoding.md R93). -/
def irScanTms : Wire := 0x183
def irScanLen : Nat := 10

/-- The TDI word of IrScan (41_jtag_tap.md R166). -/
def irScanTdi (ir : BitVec 4) : Wire := ir.setWidth 40 <<< 4

/-- The TMS word of DrScan(len): 1 at clocks 0, len + 2 and len + 3 (41_jtag_tap.md R167). -/
def drScanTms (len : Nat) : Wire := 1 ||| (1 <<< (len + 2)) ||| (1 <<< (len + 3))

/-- The number of clocks of DrScan(len) (41_jtag_tap.md R167). -/
def drScanLen (len : Nat) : Nat := len + 5

/-- The TDI word of DrScan (41_jtag_tap.md R167). -/
def drScanTdi {len : Nat} (din : BitVec len) : Wire := din.setWidth 40 <<< 3

/-- `dout = tdo[len + 2 : 3]` (41_jtag_tap.md R167). -/
def drScanOut (len : Nat) (tdo : Wire) : BitVec len := (tdo >>> 3).setWidth len

/-- ReadResult, bits 34:3 of a DPACC or APACC capture (30_encoding.md R90). -/
def xpaccData (dout : BitVec 35) : Word := dout.extractLsb' 3 32

/-- ACK, bits 2:0 of a DPACC or APACC capture (30_encoding.md R90). -/
def xpaccAck (dout : BitVec 35) : BitVec 3 := dout.extractLsb' 0 3

/-- The fields of a command its error record repeats: `op`, and `ap` and `addr`, 0 where unused
(60_exceptions.md R260). -/
structure Ctx where
  op : BitVec 4
  ap : Addr
  addr : Addr
deriving DecidableEq, Repr

/-- The fields of an AP request made under a held SELECT value, 0 where none is held (log 8). -/
def apCtx (op : BitVec 4) (a : BitVec 2) (select : Option Word) : Ctx :=
  match select with
  | some v => { op := op, ap := selectAp v, addr := selectAddr v a }
  | none => { op := op, ap := 0, addr := 0 }

/-- The command fields of each instruction. A host command has its own (30_encoding.md R100); a link request has those of
the command that makes the same transaction (30_encoding.md R95), an IR scan and the IDCODE scan those of CONNECT (log 8). -/
def ctxOf (select : Option Word) : Instr → Ctx
  | .dpR0 => ⟨2, 0, 0x0⟩
  | .dpR4 => ⟨2, 0, 0x4⟩
  | .dpR8 => ⟨2, 0, 0x8⟩
  | .dpRC => ⟨2, 0, 0xC⟩
  | .dpW0 _ => ⟨3, 0, 0x0⟩
  | .dpW4 _ => ⟨3, 0, 0x4⟩
  | .dpW8 _ => ⟨3, 0, 0x8⟩
  | .dpWC _ => ⟨3, 0, 0xC⟩
  | .apR0 => apCtx 4 0 select
  | .apR1 => apCtx 4 1 select
  | .apR2 => apCtx 4 2 select
  | .apR3 => apCtx 4 3 select
  | .apW0 _ => apCtx 5 0 select
  | .apW1 _ => apCtx 5 1 select
  | .apW2 _ => apCtx 5 2 select
  | .apW3 _ => apCtx 5 3 select
  | .irAbort | .irDpacc | .irApacc | .irIdcode | .irBypass => ⟨0, 0, 0⟩
  | .dpaccR a => ⟨2, 0, 0#4 ++ a ++ 0#2⟩
  | .dpaccW reg _ => ⟨3, 0, 0#4 ++ reg.a ++ 0#2⟩
  | .apaccR a => apCtx 4 a select
  | .apaccW a _ => apCtx 5 a select
  | .abortW _ => ⟨3, 0, 0x0⟩
  | .idcodeR => ⟨0, 0, 0⟩
  | .connectSwd | .connectJtag => ⟨0, 0, 0⟩
  | .setClock _ => ⟨1, 0, 0⟩
  | .readDp addr => ⟨2, 0, addr⟩
  | .writeDp addr _ => ⟨3, 0, addr⟩
  | .readAp ap addr => ⟨4, ap, addr⟩
  | .writeAp ap addr _ => ⟨5, ap, addr⟩
  | .powerUp => ⟨6, 0, 0⟩
  | .reservedOp7 => ⟨7, 0, 0⟩
  | .reservedOp8 => ⟨8, 0, 0⟩
  | .reservedOp9 => ⟨9, 0, 0⟩
  | .reservedOp10 => ⟨10, 0, 0⟩
  | .reservedOp11 => ⟨11, 0, 0⟩
  | .reservedOp12 => ⟨12, 0, 0⟩
  | .reservedOp13 => ⟨13, 0, 0⟩
  | .reservedOp14 => ⟨14, 0, 0⟩
  | .reservedOp15 => ⟨15, 0, 0⟩

end Sys2Proof.Machine
end

