-- ==== Sys2Proof/WellFormed.lean ====
section
/-! DEFINITION. The operands an instruction may have, from its own words alone: rows 1 to 7 of the refusal table
(42_dpap_commands.md R219), and for the link formats the encodings the block never produces (30_encoding.md R94).
An ill-formed instruction is still an instruction: the machine gives it the refusal the spec names. -/

namespace Sys2Proof

/-- A DP address is one of 0x0, 0x4, 0x8, 0xC (20_memory.md R63). -/
def dpAddrWF (addr : Addr) : Bool := addr == 0x0 || addr == 0x4 || addr == 0x8 || addr == 0xC

/-- An AP register address has bits [1:0] = 0 (20_memory.md R63). -/
def apAddrWF (addr : Addr) : Bool := addr.extractLsb' 0 2 == 0

/-- A SELECT value keeps DPBANKSEL at 0 (10_state.md R32). -/
def selectWF (v : Word) : Bool := v.extractLsb' 0 4 == 0

/-- The check of an instruction's operands. -/
def Instr.wellFormed : Instr → Bool
  | .dpR0 | .dpR4 | .dpR8 | .dpRC => true
  | .dpW0 _ => true
  | .dpW4 data => !data.getLsbD 0
  | .dpW8 data => selectWF data
  | .dpWC _ => false
  | .apR0 | .apR1 | .apR2 | .apR3 => true
  | .apW0 _ | .apW1 _ | .apW2 _ | .apW3 _ => true
  | .irAbort | .irDpacc | .irApacc | .irIdcode | .irBypass => true
  | .dpaccR _ => true
  | .dpaccW .ctrlStat _ => true
  | .dpaccW .select data => selectWF data
  | .apaccR _ => true
  | .apaccW _ _ => true
  | .abortW _ => true
  | .idcodeR => true
  | .connectSwd | .connectJtag => true
  | .setClock hz => hz != 0
  | .readDp addr => dpAddrWF addr
  | .writeDp addr data => dpAddrWF addr && addr != 0xC && (addr != 0x8 || selectWF data)
  | .readAp _ addr => apAddrWF addr
  | .writeAp _ addr _ => apAddrWF addr
  | .powerUp => true
  | .reservedOp7 | .reservedOp8 | .reservedOp9 | .reservedOp10 | .reservedOp11
  | .reservedOp12 | .reservedOp13 | .reservedOp14 | .reservedOp15 => false

end Sys2Proof
end

