-- ==== Sys2Proof/Machine/Errors.lean ====
section
/-! DEFINITION. The numbers and the record of an error (60_exceptions.md R260, R261, R267), and the refusal table
(42_dpap_commands.md R219). -/

namespace Sys2Proof.Machine

/-- The error codes (60_exceptions.md R261). -/
def errorCode : Error → BitVec 8
  | .disconnected => 1
  | .unsupported => 2
  | .timeout _ _ => 16
  | .invalidAck _ => 17
  | .desync => 18
  | .accessFault _ _ _ => 32
  | .notConnected => 48
  | .dpNotPowered => 49
  | .refused _ => 50

/-- The cause codes (60_exceptions.md R267). -/
def causeCode : FaultCause → Nat
  | .ackFault => 1
  | .parity => 2
  | .stickyObserved => 3
  | .pendingClear => 4

/-- The reason codes (42_dpap_commands.md R219). -/
def reasonCode : Reason → Nat
  | .badOpcode => 1
  | .badProtocol => 2
  | .badAddress => 3
  | .dpBank => 4
  | .targetSel => 5
  | .orunDetect => 6
  | .badClock => 7

/-- The record every error fills: its code and the command's fields; the others 0, None or false (60_exceptions.md R260). -/
def baseRecord (code : BitVec 8) (c : Ctx) : ErrorRecord where
  code := code
  op := c.op
  ap := c.ap
  addr := c.addr
  kind := none
  retries := 0
  ack := 0
  cause := none
  ctrlStat := none
  clearFailed := false
  reason := none

/-- The error record of a failed command (60_exceptions.md R260). -/
def errorRecord (c : Ctx) (e : Error) : ErrorRecord :=
  let r := baseRecord (errorCode e) c
  match e with
  | .timeout kind retries => { r with kind := some kind, retries := retries }
  | .invalidAck ack => { r with ack := ack }
  | .accessFault cause ctrlStat clearFailed =>
    { r with cause := some cause, ctrlStat := ctrlStat, clearFailed := clearFailed }
  | .refused reason => { r with reason := some reason }
  | .disconnected | .unsupported | .desync | .notConnected | .dpNotPowered => r

/-- Rows 4, 6, 7 and 8 for a WRITE_DP (42_dpap_commands.md R219). -/
def writeDpRefusal (proto : Option Protocol) (addr : Addr) (data : Word) : Option Reason :=
  if !dpAddrWF addr then some .badAddress
  else if addr = 0xC then some .targetSel
  else if addr = 0x8 ∧ !selectWF data then some .dpBank
  else if addr = 0x4 ∧ data.getLsbD 0 ∧ proto = some .swd then some .orunDetect
  else none

/-- `Refusal(c)`: the first row that matches (42_dpap_commands.md R219). The link writes have the row of the WRITE_DP that
makes the same transaction, so that no word of 30_encoding.md R94 is ever produced (log 9). Row 2, a CONNECT with another
proto, is no instruction of the table and is answered where the word is fetched (log 13). -/
def refusalOf (proto : Option Protocol) : Instr → Option Reason
  | .dpR0 | .dpR4 | .dpR8 | .dpRC => none
  | .dpW0 data => writeDpRefusal (some .swd) 0x0 data
  | .dpW4 data => writeDpRefusal (some .swd) 0x4 data
  | .dpW8 data => writeDpRefusal (some .swd) 0x8 data
  | .dpWC data => writeDpRefusal (some .swd) 0xC data
  | .apR0 | .apR1 | .apR2 | .apR3 => none
  | .apW0 _ | .apW1 _ | .apW2 _ | .apW3 _ => none
  | .irAbort | .irDpacc | .irApacc | .irIdcode | .irBypass => none
  | .dpaccR _ => none
  | .dpaccW .ctrlStat data => writeDpRefusal (some .jtag) 0x4 data
  | .dpaccW .select data => writeDpRefusal (some .jtag) 0x8 data
  | .apaccR _ => none
  | .apaccW _ _ => none
  | .abortW data => writeDpRefusal (some .jtag) 0x0 data
  | .idcodeR => none
  | .connectSwd | .connectJtag => none
  | .setClock hz => if hz = 0 then some .badClock else none
  | .readDp addr => if dpAddrWF addr then none else some .badAddress
  | .writeDp addr data => writeDpRefusal proto addr data
  | .readAp _ addr => if apAddrWF addr then none else some .badAddress
  | .writeAp _ addr _ => if apAddrWF addr then none else some .badAddress
  | .powerUp => none
  | .reservedOp7 | .reservedOp8 | .reservedOp9 | .reservedOp10 | .reservedOp11
  | .reservedOp12 | .reservedOp13 | .reservedOp14 | .reservedOp15 => some .badOpcode

end Sys2Proof.Machine
end

