-- ==== Sys2Proof/Machine/Tap.lean ====
section
/-! DEFINITION. The TAP controller: its transitions and how the block tracks it (41_jtag_tap.md section 1). -/

namespace Sys2Proof.Machine

/-- `TapNext(s, tms)` (41_jtag_tap.md R161). -/
def tapNext : TapState → Bool → TapState
  | .tlr, false => .rti
  | .tlr, true => .tlr
  | .rti, false => .rti
  | .rti, true => .selDR
  | .selDR, false => .capDR
  | .selDR, true => .selIR
  | .capDR, false => .shDR
  | .capDR, true => .ex1DR
  | .shDR, false => .shDR
  | .shDR, true => .ex1DR
  | .ex1DR, false => .pauseDR
  | .ex1DR, true => .updDR
  | .pauseDR, false => .pauseDR
  | .pauseDR, true => .ex2DR
  | .ex2DR, false => .shDR
  | .ex2DR, true => .updDR
  | .updDR, false => .rti
  | .updDR, true => .selDR
  | .selIR, false => .capIR
  | .selIR, true => .tlr
  | .capIR, false => .shIR
  | .capIR, true => .ex1IR
  | .shIR, false => .shIR
  | .shIR, true => .ex1IR
  | .ex1IR, false => .pauseIR
  | .ex1IR, true => .updIR
  | .pauseIR, false => .pauseIR
  | .pauseIR, true => .ex2IR
  | .ex2IR, false => .shIR
  | .ex2IR, true => .updIR
  | .updIR, false => .rti
  | .updIR, true => .selDR

/-- The index of a TAP state (41_jtag_tap.md R160). -/
def tapIndex : TapState → Nat
  | .tlr => 0
  | .rti => 1
  | .selDR => 2
  | .capDR => 3
  | .shDR => 4
  | .ex1DR => 5
  | .pauseDR => 6
  | .ex2DR => 7
  | .updDR => 8
  | .selIR => 9
  | .capIR => 10
  | .shIR => 11
  | .ex1IR => 12
  | .pauseIR => 13
  | .ex2IR => 14
  | .updIR => 15

/-- The state after a run of clocks from a known state (41_jtag_tap.md R163). -/
def tapRun (s : TapState) (tms : List Bool) : TapState := tms.foldl tapNext s

/-- Tracking from an unknown state, `ones` TMS = 1 clocks already seen in a row: unknown until five have been, then
Test-Logic-Reset and on from there (41_jtag_tap.md R163). -/
def trackUnknown (ones : Nat) : List Bool → Option TapState
  | [] => none
  | false :: tms => trackUnknown 0 tms
  | true :: tms => if ones = 4 then some (tapRun .tlr tms) else trackUnknown (ones + 1) tms

/-- What the block knows of the TAP after a sequence that returned Ok (41_jtag_tap.md R163). -/
def trackTap (tap : Option TapState) (tms : List Bool) : Option TapState :=
  match tap with
  | some s => some (tapRun s tms)
  | none => trackUnknown 0 tms

/-- The TMS bits of a sequence, the first clock first (00_scope.md R12). -/
def tmsBits (n : Nat) (tms : Wire) : List Bool := (List.range n).map tms.getLsbD

end Sys2Proof.Machine
end

