-- ==== Sys2Proof/Machine/Ops.lean ====
section
/-! DEFINITION. The named operations over the state: how a computation ends, the transport calls (00_scope.md R14), the
updates of the block state, taking an error (60_exceptions.md section 4) and returning a command's result. -/

namespace Sys2Proof.Machine

/-- How a computation of the block ends: with a value, or stopped by an `ε` (a link result other than Ok, or an error). -/
inductive Run (ε α : Type) where
  | ok (a : α) (s : State)
  | stop (e : ε) (s : State)
deriving DecidableEq, Repr

/-- Go on with the next computation when this one ended with a value. -/
def Run.bind {ε α β : Type} (r : Run ε α) (f : α → State → Run ε β) : Run ε β :=
  match r with
  | .ok a s => f a s
  | .stop e s => .stop e s

/-- The state a computation ends in, however it ends. -/
def Run.state {ε α : Type} : Run ε α → State
  | .ok _ s => s
  | .stop _ s => s

/-! ## Observations and the transport -/

/-- Add an observation (00_scope.md R8). -/
def emit (o : Obs) (s : State) : State := { s with trace := s.trace ++ [o] }

/-- Pulse the invalidation output (60_exceptions.md R268). -/
def emitInvalidate (s : State) : State := emit .apShadowInvalidate s

/-- The transport's next answer: the next one written down, or a free draw (00_scope.md R6; log 1). -/
def nextAnswer (s : State) : Answer × State :=
  match s.answers with
  | a :: rest => (a, { s with answers := rest })
  | [] => (Config.transport s.draws, { s with draws := s.draws + 1 })

/-- How an answer ended, its data aside. -/
def answerStatus : Answer → CallStatus
  | .ok _ => .ok
  | .disconnected => .disconnected
  | .unsupported => .unsupported

/-- An answer cut to the n bits the call samples (00_scope.md R14; log 23). -/
def answerCut (n : Nat) : Answer → Answer
  | .ok bits => .ok ((bits.setWidth n).setWidth 40)
  | .disconnected => .disconnected
  | .unsupported => .unsupported

/-- What the transport answers a call the probe may lack the protocol for: a probe without it answers Unsupported
(00_scope.md R9 PROTOCOL_CAPS, 42_dpap_commands.md R208; log 3). -/
def capAnswer (supported : Bool) (a : Answer) : Answer := if supported then a else .unsupported

/-- One transport call: draw its answer, record it, and end the transaction if it is a transport error
(00_scope.md R15). -/
def transportCall (supported : Bool) (record : Answer → Obs) (s : State) : Run LinkFail Wire :=
  match capAnswer supported (nextAnswer s).1 with
  | .ok bits => .ok bits (emit (record (.ok bits)) (nextAnswer s).2)
  | .disconnected => .stop .disconnected (emit (record .disconnected) (nextAnswer s).2)
  | .unsupported => .stop .unsupported (emit (record .unsupported) (nextAnswer s).2)

/-- `SendBits(n, v)` (00_scope.md R14). -/
def sendBits (n : Nat) (v : BitVec 33) (s : State) : Run LinkFail Unit :=
  (transportCall true (fun a => .sendBits n v (answerStatus a)) s).bind fun _ s => .ok () s

/-- `RecvBits(n) -> v` (00_scope.md R14). -/
def recvBits (n : Nat) (s : State) : Run LinkFail (BitVec n) :=
  (transportCall true (fun a => .recvBits n (answerCut n a)) s).bind fun bits s => .ok (bits.setWidth n) s

/-- `SetClock(hz)` (00_scope.md R14). -/
def setClockCall (hz : Word) (s : State) : Run LinkFail Unit :=
  (transportCall true (fun a => .setClock hz (answerStatus a)) s).bind fun _ s => .ok () s

/-- `ResetLine()`, the first transport call of CONNECT with SWD (00_scope.md R14; log 3). -/
def resetLine (s : State) : Run LinkFail Unit :=
  (transportCall s.params.caps.swd (fun a => .resetLine (answerStatus a)) s).bind fun _ s => .ok () s

/-- Set what the block knows of the TAP (10_state.md R25). -/
def setTap (tap : Option TapState) (s : State) : State := { s with st := { s.st with tap := tap } }

/-- `JtagSeq(n, tms, tdi) -> tdo`, with the tracking of the TAP (00_scope.md R14, 41_jtag_tap.md R163). -/
def jtagSeq (supported : Bool) (n : Nat) (tms tdi : Wire) (s : State) : Run LinkFail Wire :=
  match transportCall supported (fun a => .jtagSeq n tms tdi (answerCut n a)) s with
  | .ok tdo s' => .ok tdo (setTap (trackTap s'.st.tap (tmsBits n tms)) s')
  | .stop e s' => .stop e (setTap none s')

/-! ## Updates of the block state -/

/-- Write `st.select_cache` (10_state.md R23). -/
def setSelect (v : Option Word) (s : State) : State := { s with st := { s.st with selectCache := v } }

/-- Write `st.ir_cache` (10_state.md R24). -/
def setIr (v : Option (BitVec 4)) (s : State) : State := { s with st := { s.st with irCache := v } }

/-- Write `st.link` (10_state.md R21). -/
def setLink (l : Link) (s : State) : State := { s with st := { s.st with link := l } }

/-- Write `st.clear_pending` (10_state.md R27). -/
def setPending (b : Bool) (s : State) : State := { s with st := { s.st with clearPending := b } }

/-- Write `st.dp_powered` (10_state.md R26). -/
def setPowered (b : Bool) (s : State) : State := { s with st := { s.st with dpPowered := b } }

/-- `ObserveCtrlStat(v)` (42_dpap_commands.md R204). -/
def observeCtrlStat (v : Word) (s : State) : State :=
  { s with st := { s.st with ctrlStatShadow := some v, dpPowered := powered v } }

/-! ## Taking an error -/

/-- `LinkDisconnected()`: terminal, no event (60_exceptions.md R272). -/
def linkDisconnected {α : Type} (s : State) : Run Error α :=
  .stop .disconnected (setLink .disconnected (setSelect none (setIr none (setTap none s))))

/-- `LinkUnsupported()` (60_exceptions.md R273). -/
def linkUnsupported {α : Type} (s : State) : Run Error α :=
  .stop .unsupported (emitInvalidate (setLink .unconnected (setSelect none (setIr none (setTap none s)))))

/-- `LinkDesync(k)`; `st.tap` is kept (60_exceptions.md R274). -/
def linkDesync {α : Type} (k : BitVec 3) (s : State) : Run Error α :=
  .stop (.invalidAck k) (emitInvalidate (setLink .desync (setSelect none (setIr none s))))

/-- `WaitTimeout(n)` (60_exceptions.md R271). -/
def waitTimeout {α : Type} (n : Nat) (s : State) : Run Error α :=
  .stop (.timeout .wait n) (emitInvalidate (setSelect none s))

/-- `ClearFailed(cause, cs)` (60_exceptions.md R265). -/
def clearFailed {α : Type} (cause : FaultCause) (cs : Option Word) (s : State) : Run Error α :=
  .stop (.accessFault cause cs true) (setPending true s)

/-- The case analysis of a link result inside a clear sequence: Ok goes on, a severe result ends the command in its own
way, and FAULT, a parity error or a WAIT timeout makes the clear fail (60_exceptions.md R264, R266, R276, R284). -/
def clearStep {α β : Type} (r : Run LinkFail α) (failed : State → Run Error β) (next : α → State → Run Error β) :
    Run Error β :=
  match r with
  | .ok a s => next a s
  | .stop .fault s => failed s
  | .stop .parityError s => failed s
  | .stop (.timeout _) s => failed s
  | .stop (.invalidAck k) s => linkDesync k s
  | .stop .disconnected s => linkDisconnected s
  | .stop .unsupported s => linkUnsupported s

/-- `CX(r)`: the failure handling of CONNECT (42_dpap_commands.md R208; the IR cache on an invalid acknowledge and on
Disconnected: 20_memory.md R75, log 14). -/
def connectCheck {α : Type} (r : Run LinkFail α) : Run Error α :=
  match r with
  | .ok a s => .ok a s
  | .stop .fault s => .stop (.accessFault .ackFault none false) s
  | .stop .parityError s => .stop (.accessFault .parity none false) s
  | .stop (.timeout n) s => .stop (.timeout .wait n) s
  | .stop (.invalidAck k) s => .stop (.invalidAck k) (setIr none s)
  | .stop .disconnected s => .stop .disconnected (setLink .disconnected (setIr none (setTap none s)))
  | .stop .unsupported s => .stop .unsupported (setIr none (setTap none s))

/-! ## Returning a result -/

/-- End a command: its result goes out on the command port (30_encoding.md R100, 60_exceptions.md R260). -/
def finish (request : Request) (c : Ctx) (r : Run Error (Option Word)) : State :=
  match r with
  | .ok v s => emit (.result request (.ok v)) s
  | .stop e s => emit (.result request (.err (errorRecord c e))) s

/-- The checks made before any transaction, in the order of 42_dpap_commands.md R200: Disconnected, Refused, NotConnected,
Desync, and for an AP command DpNotPowered. -/
def precheck (refusal : Option Reason) (ap : Bool) (s : State) : Option Error :=
  if s.st.link = .disconnected then some .disconnected
  else
    match refusal with
    | some reason => some (.refused reason)
    | none =>
      match s.st.link with
      | .unconnected => some .notConnected
      | .desync => some .desync
      | .ready | .disconnected => if ap && !s.st.dpPowered then some .dpNotPowered else none

/-- The checks of the commands that run in every link state but Disconnected, CONNECT and SET_CLOCK
(42_dpap_commands.md R200). -/
def precheckEarly (refusal : Option Reason) (s : State) : Option Error :=
  if s.st.link = .disconnected then some .disconnected
  else
    match refusal with
    | some reason => some (.refused reason)
    | none => none

/-- The answer to a CONNECT whose proto field is 2 or 3 (42_dpap_commands.md R200, R219 row 2; log 13). -/
def rejectConnect (proto : BitVec 2) (s : State) : State :=
  finish (.badConnect proto) ⟨0, 0, 0⟩
    (.stop ((precheckEarly (some .badProtocol) s).getD (.refused .badProtocol)) s)

/-- Take the next word from the command port; `none` when the host has put none there (70_reset_and_hazards.md R302). -/
def fetch (s : State) : Option (PortWord × State) :=
  match s.port with
  | [] => none
  | w :: rest => some (w, { s with port := rest })

/-- What becomes of a port word the decoder rejects: a CONNECT with another proto gets its refusal as a result, any other
word is no instruction (log 13, log 15). -/
def rejectWord (e : DecodeError) (s : State) : Host.Outcome State Fault Refusal :=
  match e with
  | .badProtocol proto => .next (rejectConnect proto s)
  | e => .refused (.undecodable e)

/-- Put a word of the opcode table in front of the command port. -/
def placeWord (nbits w : Nat) (s : State) : State :=
  { s with port := tableWord nbits (w % 2 ^ nbits) :: s.port }

end Sys2Proof.Machine
end

