-- ==== Sys2Proof/Machine/Jtag.lean ====
section
/-! DEFINITION. The JTAG sequences, scans and transactions (41_jtag_tap.md sections 2, 4 and 6). -/

namespace Sys2Proof.Machine

/-- `TapReset()`, the first transport call of CONNECT with JTAG; afterwards the IR is not known (41_jtag_tap.md R165;
log 3). -/
def tapReset (s : State) : Run LinkFail Unit :=
  (jtagSeq s.params.caps.jtag tapResetLen tapResetTms 0 s).bind fun _ s => .ok () (setIr none s)

/-- `IrScan(ir)`, the shift-out ignored, and the cache it writes (41_jtag_tap.md R166, R169; 10_state.md R24). -/
def irScan (ir : BitVec 4) (s : State) : Run LinkFail Unit :=
  (jtagSeq true irScanLen irScanTms (irScanTdi ir) s).bind fun _ s => .ok () (setIr (some ir) s)

/-- `DrScan(len, din)` (41_jtag_tap.md R167). -/
def drScan {len : Nat} (din : BitVec len) (s : State) : Run LinkFail (BitVec len) :=
  (jtagSeq true (drScanLen len) (drScanTms len) (drScanTdi din) s).bind fun tdo s => .ok (drScanOut len tdo) s

/-- `EnsureIr(ir)`: a scan only when the cache differs (41_jtag_tap.md R169). -/
def ensureIr (ir : BitVec 4) (s : State) : Run LinkFail Unit :=
  if s.st.irCache = some ir then .ok () s else irScan ir s

/-- The retry loop of `JtagXpacc` with `left` retries left of `total` (41_jtag_tap.md R170). -/
def xpaccRetry (total : Nat) (rnw : Bool) (a : BitVec 2) (data : Word) : Nat → State → Run LinkFail Word
  | left, s =>
    match drScan (xpaccIn rnw a data) s with
    | .stop f s' => .stop f s'
    | .ok dout s' =>
      match jtagAck (xpaccAck dout), left with
      | .ok, _ => .ok (xpaccData dout) s'
      | .wait, 0 => .stop (.timeout total) s'
      | .wait, left' + 1 => xpaccRetry total rnw a data left' s'
      | .fault, _ => .stop .fault s'
      | .invalid k, _ => .stop (.invalidAck k) s'

/-- `JtagXpacc(rnw, a, data)` (41_jtag_tap.md R170). -/
def jtagXpacc (rnw : Bool) (a : BitVec 2) (data : Word) (s : State) : Run LinkFail Word :=
  xpaccRetry s.params.waitRetries rnw a data s.params.waitRetries s

/-- The RDBUFF scan that collects the previous transaction's result (41_jtag_tap.md R180 to R183). -/
def jtagRdbuff (s : State) : Run LinkFail Word := jtagXpacc true aRdbuff 0 s

/-- `JtagAbort(v)` (41_jtag_tap.md R172). -/
def jtagAbort (v : Word) (s : State) : Run LinkFail Word :=
  (ensureIr irCodeAbort s).bind fun _ s =>
  (drScan (abortIn v) s).bind fun _ s => .ok 0 s

/-- `JtagIdcode()` (41_jtag_tap.md R173). -/
def jtagIdcode (s : State) : Run LinkFail Word :=
  (ensureIr irCodeIdcode s).bind fun _ s => drScan (0 : BitVec 32) s

/-- `JtagReadDp(a)` (41_jtag_tap.md R180). -/
def jtagReadDp (a : BitVec 2) (s : State) : Run LinkFail Word :=
  (ensureIr irCodeDpacc s).bind fun _ s =>
  (jtagXpacc true a 0 s).bind fun _ s => jtagRdbuff s

/-- `JtagWriteDp(a, v)` (41_jtag_tap.md R181). -/
def jtagWriteDp (a : BitVec 2) (v : Word) (s : State) : Run LinkFail Word :=
  (ensureIr irCodeDpacc s).bind fun _ s =>
  (jtagXpacc false a v s).bind fun _ s =>
  (jtagRdbuff s).bind fun _ s => .ok 0 s

/-- The scans of `JtagReadAp(a)` and `JtagWriteAp(a, v)` up to their end-of-AP-command poll: the APACC transaction, then
the DPACC RDBUFF scan (41_jtag_tap.md R182, R183). -/
def jtagApScans (rnw : Bool) (a : BitVec 2) (v : Word) (s : State) : Run LinkFail Word :=
  (ensureIr irCodeApacc s).bind fun _ s =>
  (jtagXpacc rnw a v s).bind fun _ s =>
  (ensureIr irCodeDpacc s).bind fun _ s => jtagRdbuff s

/-- The internal SELECT write, with no flush (41_jtag_tap.md R184). -/
def jtagSelect (sel : Word) (s : State) : Run LinkFail Word :=
  (ensureIr irCodeDpacc s).bind fun _ s => jtagXpacc false aSelect sel s

end Sys2Proof.Machine
end

