-- ==== Sys2Proof/Machine/Swd.lean ====
section
/-! DEFINITION. The SWD bit-sequence encoder/decoder (40_swd_link.md sections 1 and 2). -/

namespace Sys2Proof.Machine

/-- How one attempt ends other than with Ok: with WAIT, or with a link result that ends the transaction. -/
inductive AttemptStop where
  | wait
  | fail (f : LinkFail)
deriving DecidableEq, Repr

/-- A transport call within an attempt: its error ends the attempt at once (40_swd_link.md R120). -/
def inAttempt {α : Type} (r : Run LinkFail α) : Run AttemptStop α :=
  match r with
  | .ok a s => .ok a s
  | .stop f s => .stop (.fail f) s

/-- `Idle()` (40_swd_link.md R128). -/
def swdIdle (s : State) : Run LinkFail Unit :=
  if s.params.idleCycles = 0 then .ok () s else sendBits s.params.idleCycles 0 s

/-- One turnaround, its sample ignored, then the idle cycles: how an attempt ends when the target stops driving
(40_swd_link.md R122, R126). -/
def swdTurnIdle (s : State) : Run LinkFail Unit :=
  (recvBits trn s).bind fun _ s => swdIdle s

/-- The data phase of a read answered OK: data, turnaround, idle, and only then the parity test (40_swd_link.md R124). -/
def swdReadPhase (s : State) : Run LinkFail Word :=
  (recvBits 33 s).bind fun w s =>
  (swdTurnIdle s).bind fun _ s =>
  if swdDataOk w then .ok (w.extractLsb' 0 32) s else .stop .parityError s

/-- The data phase of a write answered OK (40_swd_link.md R125). -/
def swdWritePhase (wdata : Word) (s : State) : Run LinkFail Word :=
  (recvBits trn s).bind fun _ s =>
  (sendBits 33 (swdData wdata) s).bind fun _ s =>
  (swdIdle s).bind fun _ s => .ok 0 s

/-- The request, the turnaround and the acknowledge (40_swd_link.md R121, R122, R123). -/
def swdRequestPhase (apndp rnw : Bool) (a : BitVec 2) (s : State) : Run LinkFail (BitVec 3) :=
  (sendBits 8 ((swdRequest apndp rnw a).setWidth 33) s).bind fun _ s =>
  (recvBits trn s).bind fun _ s =>
  recvBits 3 s

/-- `SwdAttempt(apndp, rnw, a, wdata)` (40_swd_link.md R120). -/
def swdAttempt (apndp rnw : Bool) (a : BitVec 2) (wdata : Word) (s : State) : Run AttemptStop Word :=
  (inAttempt (swdRequestPhase apndp rnw a s)).bind fun ack s =>
  match swdAck ack with
  | .ok => inAttempt (if rnw then swdReadPhase s else swdWritePhase wdata s)
  | .wait => (inAttempt (swdTurnIdle s)).bind fun _ s => .stop .wait s
  | .fault => (inAttempt (swdTurnIdle s)).bind fun _ s => .stop (.fail .fault) s
  | .invalid k => .stop (.fail (.invalidAck k)) s

/-- The retry loop with `left` retries left of `total`: only WAIT is retried, and the attempt is the same each time
(40_swd_link.md R129). -/
def swdRetry (total : Nat) (apndp rnw : Bool) (a : BitVec 2) (wdata : Word) : Nat → State → Run LinkFail Word
  | left, s =>
    match swdAttempt apndp rnw a wdata s, left with
    | .ok d s', _ => .ok d s'
    | .stop (.fail f) s', _ => .stop f s'
    | .stop .wait s', 0 => .stop (.timeout total) s'
    | .stop .wait s', left' + 1 => swdRetry total apndp rnw a wdata left' s'

/-- `SwdXfer(apndp, rnw, a, wdata)` (40_swd_link.md R129). -/
def swdXfer (apndp rnw : Bool) (a : BitVec 2) (wdata : Word) (s : State) : Run LinkFail Word :=
  swdRetry s.params.waitRetries apndp rnw a wdata s.params.waitRetries s

end Sys2Proof.Machine
end

