-- ==== Sys2Proof/Machine/Protocol.lean ====
section
/-! DEFINITION. The DP/AP register protocol: dispatch over the two links, polls, the sticky-clear sequence, the pending
clear, EnsureSelect, and the bodies of the commands (42_dpap_commands.md, 60_exceptions.md). -/

namespace Sys2Proof.Machine

/-! ## Dispatch over the link (42_dpap_commands.md R203) -/

/-- `DpRead(a)`. Where `st.proto` is not SWD the JTAG body runs, as the `else` of R205 has it (log 16). -/
def dpRead (a : BitVec 2) (s : State) : Run LinkFail Word :=
  if s.st.proto = some .swd then swdXfer false true a 0 s else jtagReadDp a s

/-- `DpWrite(a, v)`: address 0 is ABORT, which has an instruction of its own on JTAG. -/
def dpWrite (a : BitVec 2) (v : Word) (s : State) : Run LinkFail Word :=
  if s.st.proto = some .swd then swdXfer false false a v s
  else if a = 0 then jtagAbort v s
  else jtagWriteDp a v s

/-- `WriteClear(v)` for a polled value v (42_dpap_commands.md R203, 41_jtag_tap.md R186). -/
def writeClear (v : Word) (s : State) : Run LinkFail Word :=
  if s.st.proto = some .swd then swdXfer false false 0 (abortValue v) s
  else
    match s.params.jtagStickyClear with
    | .abortWrite => jtagAbort (abortValue v) s
    | .ctrlStatW1C => jtagWriteDp aCtrlStat (w1cValue v) s

/-! ## Polls and the clear sequences (60_exceptions.md R262 to R266) -/

/-- `Poll()`: a CTRL/STAT read whose value is observed (60_exceptions.md R263). -/
def poll (s : State) : Run LinkFail Word :=
  (dpRead aCtrlStat s).bind fun v s => .ok v (observeCtrlStat v s)

/-- The end of an SCS that did not fail (60_exceptions.md R264). -/
def scsDone {α : Type} (cause : FaultCause) (v : Word) (s : State) : Run Error α :=
  .stop (.accessFault cause (some v) false) (setPending false s)

/-- The clear write of an SCS, for the polled value v (60_exceptions.md R264). -/
def scsClear {α : Type} (cause : FaultCause) (v : Word) (s : State) : Run Error α :=
  if sticky v then clearStep (writeClear v s) (clearFailed cause (some v)) fun _ s => scsDone cause v s
  else scsDone cause v s

/-- `SCS(cause, polled)`: the sticky-clear sequence, which ends the command (60_exceptions.md R264). -/
def scs {α : Type} (cause : FaultCause) (polled : Option Word) (s : State) : Run Error α :=
  let s := emitInvalidate (setSelect none s)
  match polled with
  | some v => scsClear cause v s
  | none => clearStep (poll s) (clearFailed cause none) fun v s => scsClear cause v s

/-- `Check(r)`: the reaction to a link result (60_exceptions.md R262). -/
def check {α : Type} (r : Run LinkFail α) : Run Error α :=
  match r with
  | .ok a s => .ok a s
  | .stop .fault s => scs .ackFault none s
  | .stop .parityError s => scs .parity none s
  | .stop (.timeout n) s => waitTimeout n s
  | .stop (.invalidAck k) s => linkDesync k s
  | .stop .disconnected s => linkDisconnected s
  | .stop .unsupported s => linkUnsupported s

/-- A polled value with a sticky bit starts the SCS (60_exceptions.md R263). -/
def stickyStop (v : Word) (s : State) : Run Error Word :=
  if sticky v then scs .stickyObserved (some v) s else .ok v s

/-- `CheckedPoll()` (60_exceptions.md R263). -/
def checkedPoll (s : State) : Run Error Word := (check (poll s)).bind stickyStop

/-- A pending clear that failed: the command fails and the clear stays pending (60_exceptions.md R266). -/
def pendingFailed {α : Type} (cs : Option Word) (s : State) : Run Error α :=
  .stop (.accessFault .pendingClear cs true) s

/-- The clear write of a pending clear, for the polled value v (60_exceptions.md R266). -/
def pendingWrite (v : Word) (s : State) : Run Error Unit :=
  if sticky v then clearStep (writeClear v s) (pendingFailed (some v)) fun _ s => .ok () (setPending false s)
  else .ok () (setPending false s)

/-- `PendingClear()` (60_exceptions.md R266). -/
def pendingClear (s : State) : Run Error Unit :=
  clearStep (poll s) (pendingFailed none) pendingWrite

/-! ## Shared operations of the commands (42_dpap_commands.md sections 2 to 6) -/

/-- A SELECT write over the connected link, with no flush (42_dpap_commands.md R205, 41_jtag_tap.md R184). -/
def selectWrite (v : Word) (s : State) : Run LinkFail Word :=
  if s.st.proto = some .swd then swdXfer false false aSelect v s else jtagSelect v s

/-- `EnsureSelect(ap, addr)` (42_dpap_commands.md R205). -/
def ensureSelect (ap addr : Addr) (s : State) : Run Error Unit :=
  let v := requiredSelect ap addr
  if s.st.selectCache = some v then .ok () s
  else (check (selectWrite v s)).bind fun _ s => .ok () (emitInvalidate (setSelect (some v) s))

/-- The DP read of a command: a CTRL/STAT value is observed, and a sticky bit in it starts the SCS
(42_dpap_commands.md R210, R211). -/
def readDpReg (a : BitVec 2) (s : State) : Run Error (Option Word) :=
  (check (dpRead a s)).bind fun d s =>
  if a = aCtrlStat then (stickyStop d (observeCtrlStat d s)).bind fun v s => .ok (some v) s
  else .ok (some d) s

/-- A host SELECT write's effect on the cache and the event (42_dpap_commands.md R214). -/
def adoptSelect (v : Word) (s : State) : State :=
  setSelect (some v) (if s.st.selectCache = some v then s else emitInvalidate s)

/-- The DP write of a command: ABORT (R212), CTRL/STAT (R213), SELECT (R214). Address 0xC is refused before any write
(R215, R219), and so its body writes nothing. -/
def writeDpReg (a : BitVec 2) (v : Word) (s : State) : Run Error (Option Word) :=
  if a = aRdbuff then .stop (.refused .targetSel) s
  else
    (check (dpWrite a v s)).bind fun _ s =>
    if a = aCtrlStat then .ok none (if dropsPower v then setPowered false s else s)
    else if a = aSelect then .ok none (adoptSelect v s)
    else .ok none s

/-- An AP read in the selected bank: the posted read, its data discarded, then RDBUFF; on JTAG also the
end-of-AP-command poll (42_dpap_commands.md R216, 20_memory.md R66, 41_jtag_tap.md R182, R185). -/
def apReadReg (a : BitVec 2) (s : State) : Run Error (Option Word) :=
  if s.st.proto = some .swd then
    (check (swdXfer true true a 0 s)).bind fun _ s =>
    (check (swdXfer false true aRdbuff 0 s)).bind fun d s => .ok (some d) s
  else
    (check (jtagApScans true a 0 s)).bind fun d s =>
    (checkedPoll s).bind fun _ s => .ok (some d) s

/-- An AP write in the selected bank: the write, then the RDBUFF flush; on JTAG also the end-of-AP-command poll
(42_dpap_commands.md R217, 20_memory.md R67, 41_jtag_tap.md R183, R185). -/
def apWriteReg (a : BitVec 2) (v : Word) (s : State) : Run Error (Option Word) :=
  if s.st.proto = some .swd then
    (check (swdXfer true false a v s)).bind fun _ s =>
    (check (swdXfer false true aRdbuff 0 s)).bind fun _ s => .ok none s
  else
    (check (jtagApScans false a v s)).bind fun _ s =>
    (checkedPoll s).bind fun _ s => .ok none s

/-- The polls of POWER_UP, `left` of `total` left (42_dpap_commands.md R218). -/
def powerPolls (total : Nat) : Nat → State → Run Error (Option Word)
  | 0, s => .stop (.timeout .powerUp total) s
  | left + 1, s =>
    (checkedPoll s).bind fun v s => if s.st.dpPowered then .ok (some v) s else powerPolls total left s

/-- `PowerUp()` (42_dpap_commands.md R218). -/
def powerUpBody (s : State) : Run Error (Option Word) :=
  (check (dpWrite aCtrlStat pwrupReq s)).bind fun _ s => powerPolls s.params.pwrPolls s.params.pwrPolls s

/-- The first line of CONNECT: every field of `st` at its reset value, then the protocol, then the event
(42_dpap_commands.md R206, R207; 70_reset_and_hazards.md R301). -/
def connectStart (p : Protocol) (s : State) : State :=
  emitInvalidate { s with st := { Block.reset with proto := some p } }

/-- The last line of CONNECT (42_dpap_commands.md R206, R207). -/
def connectDone (id : Word) (s : State) : State :=
  { s with st := { s.st with link := .ready, selectCache := some 0, dpIdcode := some id } }

/-- `Connect(SWD)` (42_dpap_commands.md R206). -/
def connectSwdBody (s : State) : Run Error (Option Word) :=
  (connectCheck (resetLine (connectStart .swd s))).bind fun _ s =>
  (connectCheck (swdXfer false true 0 0 s)).bind fun id s =>
  (connectCheck (swdXfer false false 0 abortAllClear s)).bind fun _ s =>
  (connectCheck (swdXfer false false aSelect 0 s)).bind fun _ s =>
  .ok (some id) (connectDone id s)

/-- `Connect(JTAG)` (42_dpap_commands.md R207). -/
def connectJtagBody (s : State) : Run Error (Option Word) :=
  (connectCheck (tapReset (connectStart .jtag s))).bind fun _ s =>
  (connectCheck (jtagIdcode s)).bind fun id s =>
  (connectCheck (jtagAbort abortAllClear s)).bind fun _ s =>
  (connectCheck (jtagWriteDp aSelect 0 s)).bind fun _ s =>
  .ok (some id) (connectDone id s)

/-- `SetClockCmd(hz)` (42_dpap_commands.md R209). -/
def setClockBody (hz : Word) (s : State) : Run Error (Option Word) :=
  (check (setClockCall hz s)).bind fun _ s => .ok none s

/-! ## The command frame (42_dpap_commands.md R200) -/

/-- The pending clear, if one is due, and then the command's body (60_exceptions.md R266). -/
def afterPending (body : State → Run Error (Option Word)) (s : State) : Run Error (Option Word) :=
  if s.st.clearPending then (pendingClear s).bind fun _ s => body s else body s

/-- A command that reaches the target only while the link is Ready (42_dpap_commands.md R200). -/
def runReady (i : Instr) (ap : Bool) (body : State → Run Error (Option Word)) (s : State) : State :=
  finish (.instr i) (ctxOf s.st.selectCache i)
    (match precheck (refusalOf s.st.proto i) ap s with
    | some e => .stop e s
    | none => afterPending body s)

/-- CONNECT and SET_CLOCK: run in every link state but Disconnected, with no pending clear (42_dpap_commands.md R200). -/
def runEarly (i : Instr) (body : State → Run Error (Option Word)) (s : State) : State :=
  finish (.instr i) (ctxOf s.st.selectCache i)
    (match precheckEarly (refusalOf s.st.proto i) s with
    | some e => .stop e s
    | none => body s)

/-- Whether the block holds the target's SELECT as an AP request with A[3:2] = a needs it: the held value is
`RequiredSelect(ap, addr)` of the register it reaches (40_swd_link.md R140, R141; log 7). -/
def selectHeld (a : BitVec 2) (s : State) : Bool :=
  match s.st.selectCache with
  | some v => requiredSelect (selectAp v) (selectAddr v a) == v
  | none => false

/-- A request of a link format, run in the command frame (log 5). It is refused where the spec gives it no effect: on the
protocol that is not connected (log 6). -/
def runLink (i : Instr) (p : Protocol) (body : State → Run Error (Option Word)) (s : State) :
    Host.Outcome State Fault Refusal :=
  if precheck (refusalOf s.st.proto i) false s = none ∧ s.st.proto ≠ some p then .refused .encoderNotSelected
  else .next (runReady i false body s)

/-- An AP request of a link format: as `runLink`, behind the power gate, and refused where the block does not hold SELECT
(log 7). -/
def runLinkAp (i : Instr) (p : Protocol) (a : BitVec 2) (body : State → Run Error (Option Word)) (s : State) :
    Host.Outcome State Fault Refusal :=
  if precheck (refusalOf s.st.proto i) true s = none ∧ s.st.proto ≠ some p then .refused .encoderNotSelected
  else if precheck (refusalOf s.st.proto i) true s = none ∧ !selectHeld a s then .refused .selectNotHeld
  else .next (runReady i true body s)

end Sys2Proof.Machine
end

