-- ==== Sys2Proof/Machine/HostCommands.lean ====
section
/-! DEFINITION. The host commands (42_dpap_commands.md sections 3 to 6). -/

namespace Sys2Proof.Machine

/-- CONNECT SWD (42_dpap_commands.md R206). -/
def execConnectSwd (s : State) : Host.Outcome State Fault Refusal := .next (runEarly .connectSwd connectSwdBody s)

/-- CONNECT JTAG (42_dpap_commands.md R207). -/
def execConnectJtag (s : State) : Host.Outcome State Fault Refusal := .next (runEarly .connectJtag connectJtagBody s)

/-- SET_CLOCK (42_dpap_commands.md R209). -/
def execSetClock (hz : Word) (s : State) : Host.Outcome State Fault Refusal :=
  .next (runEarly (.setClock hz) (setClockBody hz) s)

/-- READ_DP (42_dpap_commands.md R210, R211). -/
def execReadDp (addr : Addr) (s : State) : Host.Outcome State Fault Refusal :=
  .next (runReady (.readDp addr) false (readDpReg (regA addr)) s)

/-- WRITE_DP (42_dpap_commands.md R212 to R215). -/
def execWriteDp (addr : Addr) (data : Word) (s : State) : Host.Outcome State Fault Refusal :=
  .next (runReady (.writeDp addr data) false (writeDpReg (regA addr) data) s)

/-- READ_AP (42_dpap_commands.md R216). -/
def execReadAp (ap addr : Addr) (s : State) : Host.Outcome State Fault Refusal :=
  .next (runReady (.readAp ap addr) true
    (fun s => (ensureSelect ap addr s).bind fun _ s => apReadReg (regA addr) s) s)

/-- WRITE_AP (42_dpap_commands.md R217). -/
def execWriteAp (ap addr : Addr) (data : Word) (s : State) : Host.Outcome State Fault Refusal :=
  .next (runReady (.writeAp ap addr data) true
    (fun s => (ensureSelect ap addr s).bind fun _ s => apWriteReg (regA addr) data s) s)

/-- POWER_UP (42_dpap_commands.md R218). -/
def execPowerUp (s : State) : Host.Outcome State Fault Refusal := .next (runReady .powerUp false powerUpBody s)

end Sys2Proof.Machine
end

