-- ==== Sys2Proof/Machine/JtagRequests.lean ====
section
/-! DEFINITION. The five JTAG instruction codes and the six data register transactions (41_jtag_tap.md sections 4 to 6). -/

namespace Sys2Proof.Machine

/-- An IR scan as a request of its own: no value (41_jtag_tap.md R166; log 21). -/
def irBody (ir : BitVec 4) (s : State) : Run Error (Option Word) :=
  (check (irScan ir s)).bind fun _ s => .ok none s

/-- IR 0x8 (41_jtag_tap.md R174). -/
def execIrAbort (s : State) : Host.Outcome State Fault Refusal := runLink .irAbort .jtag (irBody irCodeAbort) s

/-- IR 0xA (41_jtag_tap.md R175). -/
def execIrDpacc (s : State) : Host.Outcome State Fault Refusal := runLink .irDpacc .jtag (irBody irCodeDpacc) s

/-- IR 0xB (41_jtag_tap.md R176). -/
def execIrApacc (s : State) : Host.Outcome State Fault Refusal := runLink .irApacc .jtag (irBody irCodeApacc) s

/-- IR 0xE (41_jtag_tap.md R177). -/
def execIrIdcode (s : State) : Host.Outcome State Fault Refusal := runLink .irIdcode .jtag (irBody irCodeIdcode) s

/-- A request whose transaction the block never makes: no call, no change, no value (log 10). -/
def noTransaction (s : State) : Run Error (Option Word) := .ok none s

/-- IR 0xF: "Never shifted by the block", so this request shifts nothing (41_jtag_tap.md R178, 30_encoding.md R87, R94;
log 10). -/
def execIrBypass (s : State) : Host.Outcome State Fault Refusal := runLink .irBypass .jtag noTransaction s

/-- `JtagReadDp(a)` (41_jtag_tap.md R180). -/
def execDpaccR (a : BitVec 2) (s : State) : Host.Outcome State Fault Refusal :=
  runLink (.dpaccR a) .jtag (readDpReg a) s

/-- `JtagWriteDp(a, v)` (41_jtag_tap.md R181). -/
def execDpaccW (reg : DpaccReg) (data : Word) (s : State) : Host.Outcome State Fault Refusal :=
  runLink (.dpaccW reg data) .jtag (writeDpReg reg.a data) s

/-- `JtagReadAp(a)` (41_jtag_tap.md R182). -/
def execApaccR (a : BitVec 2) (s : State) : Host.Outcome State Fault Refusal :=
  runLinkAp (.apaccR a) .jtag a (apReadReg a) s

/-- `JtagWriteAp(a, v)` (41_jtag_tap.md R183). -/
def execApaccW (a : BitVec 2) (data : Word) (s : State) : Host.Outcome State Fault Refusal :=
  runLinkAp (.apaccW a data) .jtag a (apWriteReg a data) s

/-- `JtagAbort(v)` (41_jtag_tap.md R172). -/
def execAbortW (data : Word) (s : State) : Host.Outcome State Fault Refusal :=
  runLink (.abortW data) .jtag (writeDpReg 0 data) s

/-- `JtagIdcode()` as a request of its own: the value is returned and `st.dp_idcode` keeps the identity CONNECT read
(41_jtag_tap.md R173, 10_state.md R28). -/
def execIdcodeR (s : State) : Host.Outcome State Fault Refusal :=
  runLink .idcodeR .jtag (fun s => (check (jtagIdcode s)).bind fun id s => .ok (some id) s) s

end Sys2Proof.Machine
end

