-- ==== Sys2Proof/Machine/Reserved.lean ====
section
/-! DEFINITION. The reserved command opcodes 7 to 15: refused with BadOpcode, no transport call, no state change
(30_encoding.md R102). -/

namespace Sys2Proof.Machine

/-- The body of a reserved opcode. The refusal table stops every reserved opcode first (42_dpap_commands.md R219 row 1). -/
def reservedBody (s : State) : Run Error (Option Word) := .stop (.refused .badOpcode) s

/-- Opcode 7 (30_encoding.md R102). -/
def execReservedOp7 (s : State) : Host.Outcome State Fault Refusal :=
  .next (runReady .reservedOp7 false reservedBody s)

/-- Opcode 8 (30_encoding.md R102). -/
def execReservedOp8 (s : State) : Host.Outcome State Fault Refusal :=
  .next (runReady .reservedOp8 false reservedBody s)

/-- Opcode 9 (30_encoding.md R102). -/
def execReservedOp9 (s : State) : Host.Outcome State Fault Refusal :=
  .next (runReady .reservedOp9 false reservedBody s)

/-- Opcode 10 (30_encoding.md R102). -/
def execReservedOp10 (s : State) : Host.Outcome State Fault Refusal :=
  .next (runReady .reservedOp10 false reservedBody s)

/-- Opcode 11 (30_encoding.md R102). -/
def execReservedOp11 (s : State) : Host.Outcome State Fault Refusal :=
  .next (runReady .reservedOp11 false reservedBody s)

/-- Opcode 12 (30_encoding.md R102). -/
def execReservedOp12 (s : State) : Host.Outcome State Fault Refusal :=
  .next (runReady .reservedOp12 false reservedBody s)

/-- Opcode 13 (30_encoding.md R102). -/
def execReservedOp13 (s : State) : Host.Outcome State Fault Refusal :=
  .next (runReady .reservedOp13 false reservedBody s)

/-- Opcode 14 (30_encoding.md R102). -/
def execReservedOp14 (s : State) : Host.Outcome State Fault Refusal :=
  .next (runReady .reservedOp14 false reservedBody s)

/-- Opcode 15 (30_encoding.md R102). -/
def execReservedOp15 (s : State) : Host.Outcome State Fault Refusal :=
  .next (runReady .reservedOp15 false reservedBody s)

end Sys2Proof.Machine
end

