-- ==== Sys2Proof/Machine/SwdRequests.lean ====
section
/-! DEFINITION. The sixteen SWD requests (40_swd_link.md section 3), each one meaning of its own. -/

namespace Sys2Proof.Machine

/-- DPIDR read (40_swd_link.md R132). -/
def execDpR0 (s : State) : Host.Outcome State Fault Refusal := runLink .dpR0 .swd (readDpReg 0) s

/-- CTRL/STAT read, a poll (40_swd_link.md R134). -/
def execDpR4 (s : State) : Host.Outcome State Fault Refusal := runLink .dpR4 .swd (readDpReg 1) s

/-- RESEND read (40_swd_link.md R136). -/
def execDpR8 (s : State) : Host.Outcome State Fault Refusal := runLink .dpR8 .swd (readDpReg 2) s

/-- RDBUFF read (40_swd_link.md R138). -/
def execDpRC (s : State) : Host.Outcome State Fault Refusal := runLink .dpRC .swd (readDpReg 3) s

/-- ABORT write (40_swd_link.md R133). -/
def execDpW0 (data : Word) (s : State) : Host.Outcome State Fault Refusal :=
  runLink (.dpW0 data) .swd (writeDpReg 0 data) s

/-- CTRL/STAT write; with ORUNDETECT it is refused before encoding (40_swd_link.md R135). -/
def execDpW4 (data : Word) (s : State) : Host.Outcome State Fault Refusal :=
  runLink (.dpW4 data) .swd (writeDpReg 1 data) s

/-- SELECT write; with bits [3:0] ≠ 0 it is refused before encoding (40_swd_link.md R137). -/
def execDpW8 (data : Word) (s : State) : Host.Outcome State Fault Refusal :=
  runLink (.dpW8 data) .swd (writeDpReg 2 data) s

/-- TARGETSEL write: always refused before encoding, never issued (40_swd_link.md R139, 42_dpap_commands.md R215). -/
def execDpWC (data : Word) (s : State) : Host.Outcome State Fault Refusal :=
  runLink (.dpWC data) .swd (writeDpReg 3 data) s

/-- AP read, A[3:2] = 0, bank from SELECT (40_swd_link.md R140). -/
def execApR0 (s : State) : Host.Outcome State Fault Refusal := runLinkAp .apR0 .swd 0 (apReadReg 0) s

/-- AP read, A[3:2] = 1, bank from SELECT (40_swd_link.md R140). -/
def execApR1 (s : State) : Host.Outcome State Fault Refusal := runLinkAp .apR1 .swd 1 (apReadReg 1) s

/-- AP read, A[3:2] = 2, bank from SELECT (40_swd_link.md R140). -/
def execApR2 (s : State) : Host.Outcome State Fault Refusal := runLinkAp .apR2 .swd 2 (apReadReg 2) s

/-- AP read, A[3:2] = 3, bank from SELECT (40_swd_link.md R140). -/
def execApR3 (s : State) : Host.Outcome State Fault Refusal := runLinkAp .apR3 .swd 3 (apReadReg 3) s

/-- AP write, A[3:2] = 0, bank from SELECT (40_swd_link.md R141). -/
def execApW0 (data : Word) (s : State) : Host.Outcome State Fault Refusal :=
  runLinkAp (.apW0 data) .swd 0 (apWriteReg 0 data) s

/-- AP write, A[3:2] = 1, bank from SELECT (40_swd_link.md R141). -/
def execApW1 (data : Word) (s : State) : Host.Outcome State Fault Refusal :=
  runLinkAp (.apW1 data) .swd 1 (apWriteReg 1 data) s

/-- AP write, A[3:2] = 2, bank from SELECT (40_swd_link.md R141). -/
def execApW2 (data : Word) (s : State) : Host.Outcome State Fault Refusal :=
  runLinkAp (.apW2 data) .swd 2 (apWriteReg 2 data) s

/-- AP write, A[3:2] = 3, bank from SELECT (40_swd_link.md R141). -/
def execApW3 (data : Word) (s : State) : Host.Outcome State Fault Refusal :=
  runLinkAp (.apW3 data) .swd 3 (apWriteReg 3 data) s

end Sys2Proof.Machine
end

