-- ==== Sys2Proof/Machine/Dispatch.lean ====
section
/-! DEFINITION. One arm per row of spec/opcode_table.json. -/

namespace Sys2Proof.Machine

def exec (i : Instr) (s : State) : Host.Outcome State Fault Refusal :=
  match i with
  | .dpR0 => Sys2Proof.Machine.execDpR0 s
  | .dpR4 => Sys2Proof.Machine.execDpR4 s
  | .dpR8 => Sys2Proof.Machine.execDpR8 s
  | .dpRC => Sys2Proof.Machine.execDpRC s
  | .dpW0 data => Sys2Proof.Machine.execDpW0 data s
  | .dpW4 data => Sys2Proof.Machine.execDpW4 data s
  | .dpW8 data => Sys2Proof.Machine.execDpW8 data s
  | .dpWC data => Sys2Proof.Machine.execDpWC data s
  | .apR0 => Sys2Proof.Machine.execApR0 s
  | .apR1 => Sys2Proof.Machine.execApR1 s
  | .apR2 => Sys2Proof.Machine.execApR2 s
  | .apR3 => Sys2Proof.Machine.execApR3 s
  | .apW0 data => Sys2Proof.Machine.execApW0 data s
  | .apW1 data => Sys2Proof.Machine.execApW1 data s
  | .apW2 data => Sys2Proof.Machine.execApW2 data s
  | .apW3 data => Sys2Proof.Machine.execApW3 data s
  | .irAbort => Sys2Proof.Machine.execIrAbort s
  | .irDpacc => Sys2Proof.Machine.execIrDpacc s
  | .irApacc => Sys2Proof.Machine.execIrApacc s
  | .irIdcode => Sys2Proof.Machine.execIrIdcode s
  | .irBypass => Sys2Proof.Machine.execIrBypass s
  | .dpaccR a => Sys2Proof.Machine.execDpaccR a s
  | .dpaccW reg data => Sys2Proof.Machine.execDpaccW reg data s
  | .apaccR a => Sys2Proof.Machine.execApaccR a s
  | .apaccW a data => Sys2Proof.Machine.execApaccW a data s
  | .abortW data => Sys2Proof.Machine.execAbortW data s
  | .idcodeR => Sys2Proof.Machine.execIdcodeR s
  | .connectSwd => Sys2Proof.Machine.execConnectSwd s
  | .connectJtag => Sys2Proof.Machine.execConnectJtag s
  | .setClock hz => Sys2Proof.Machine.execSetClock hz s
  | .readDp addr => Sys2Proof.Machine.execReadDp addr s
  | .writeDp addr data => Sys2Proof.Machine.execWriteDp addr data s
  | .readAp ap addr => Sys2Proof.Machine.execReadAp ap addr s
  | .writeAp ap addr data => Sys2Proof.Machine.execWriteAp ap addr data s
  | .powerUp => Sys2Proof.Machine.execPowerUp s
  | .reservedOp7 => Sys2Proof.Machine.execReservedOp7 s
  | .reservedOp8 => Sys2Proof.Machine.execReservedOp8 s
  | .reservedOp9 => Sys2Proof.Machine.execReservedOp9 s
  | .reservedOp10 => Sys2Proof.Machine.execReservedOp10 s
  | .reservedOp11 => Sys2Proof.Machine.execReservedOp11 s
  | .reservedOp12 => Sys2Proof.Machine.execReservedOp12 s
  | .reservedOp13 => Sys2Proof.Machine.execReservedOp13 s
  | .reservedOp14 => Sys2Proof.Machine.execReservedOp14 s
  | .reservedOp15 => Sys2Proof.Machine.execReservedOp15 s

end Sys2Proof.Machine
end

