-- ==== Sys2Proof/Machine/Step.lean ====
section
/-! DEFINITION. One step: the block takes the next word from its command port and executes it to completion
(00_scope.md R6). -/

namespace Sys2Proof.Machine

/-- One step. With nothing on the port the block does nothing (70_reset_and_hazards.md R302; log 17). -/
def step (s : State) : Host.Outcome State Fault Refusal :=
  match fetch s with
  | none => .next s
  | some (w, s') =>
    match decode w with
    | .ok i => exec i s'
    | .error e => rejectWord e s'

/-- The state with a word of the opcode table put at the front of the command port, so that the next step runs it. -/
def State.withFetchWord (s : State) (nbits w : Nat) : State := placeWord nbits w s

end Sys2Proof.Machine
end

