-- ==== Sys2Proof/Machine/Registers.lean ====
section
/-! DEFINITION. The target-side register layouts the block builds and examines (10_state.md section 2), and the
pseudo-commands (30_encoding.md R104). The block holds none of these registers: their contents are draws (00_scope.md R6). -/

namespace Sys2Proof.Machine

/-- The DP registers (10_state.md R35). -/
inductive DpReg where
  | dpidr
  | ctrlStat
  | resend
  | select
  | rdbuff
  | abort
  | targetSel
  /-- A DPACC write of 0x0, not issued: ABORT has an instruction of its own. -/
  | notIssued
  /-- A DPACC write of 0xC, ignored by the target. -/
  | ignored
deriving DecidableEq, Repr

/-- The register a DP transaction reaches with DPBANKSEL = 0 (10_state.md R35). -/
def dpRegister (p : Protocol) (rnw : Bool) (a : BitVec 2) : DpReg :=
  match rnw, a.toNat, p with
  | true, 0, _ => .dpidr
  | true, 1, _ => .ctrlStat
  | true, 2, .swd => .resend
  | true, 2, .jtag => .select
  | true, _, _ => .rdbuff
  | false, 0, .swd => .abort
  | false, 0, .jtag => .notIssued
  | false, 1, _ => .ctrlStat
  | false, 2, _ => .select
  | false, _, .swd => .targetSel
  | false, _, .jtag => .ignored

/-- How the target lets a field be accessed (10_state.md R36, R38, R39). -/
inductive Access where
  | ro
  | rw
  | wo
  | w1c
  | reserved
deriving DecidableEq, Repr

/-- One row of a register layout: the field's bits, and its access on an SW-DP and on a JTAG-DP. -/
structure Field where
  name : String
  hi : Nat
  lo : Nat
  swd : Access
  jtag : Access
deriving DecidableEq, Repr

/-- The value of a field. -/
def Field.read (f : Field) (v : Word) : Nat := (v.toNat >>> f.lo) % 2 ^ (f.hi + 1 - f.lo)

/-- The bits of a field. -/
def Field.bits (f : Field) : Word := BitVec.ofNat 32 ((2 ^ (f.hi + 1 - f.lo) - 1) <<< f.lo)

/-- The bits of the fields that satisfy a test. -/
def fieldMask (fs : List Field) (keep : Field → Bool) : Word :=
  (fs.filter keep).foldl (fun m f => m ||| f.bits) 0

/-- CTRL/STAT (10_state.md R36). -/
def ctrlStatFields : List Field :=
  [⟨"CSYSPWRUPACK", 31, 31, .ro, .ro⟩, ⟨"CSYSPWRUPREQ", 30, 30, .rw, .rw⟩,
   ⟨"CDBGPWRUPACK", 29, 29, .ro, .ro⟩, ⟨"CDBGPWRUPREQ", 28, 28, .rw, .rw⟩,
   ⟨"CDBGRSTACK", 27, 27, .ro, .ro⟩, ⟨"CDBGRSTREQ", 26, 26, .rw, .rw⟩,
   ⟨"reserved", 25, 24, .reserved, .reserved⟩, ⟨"TRNCNT", 23, 12, .rw, .rw⟩,
   ⟨"MASKLANE", 11, 8, .rw, .rw⟩, ⟨"WDATAERR", 7, 7, .ro, .reserved⟩,
   ⟨"READOK", 6, 6, .ro, .ro⟩, ⟨"STICKYERR", 5, 5, .ro, .w1c⟩,
   ⟨"STICKYCMP", 4, 4, .ro, .w1c⟩, ⟨"TRNMODE", 3, 2, .rw, .rw⟩,
   ⟨"STICKYORUN", 1, 1, .ro, .w1c⟩, ⟨"ORUNDETECT", 0, 0, .rw, .rw⟩]

/-- SELECT: write-only on an SW-DP, readable on a JTAG-DP (10_state.md R38). -/
def selectFields : List Field :=
  [⟨"APSEL", 31, 24, .wo, .rw⟩, ⟨"reserved", 23, 8, .reserved, .reserved⟩,
   ⟨"APBANKSEL", 7, 4, .wo, .rw⟩, ⟨"DPBANKSEL", 3, 0, .wo, .rw⟩]

/-- ABORT (10_state.md R39). -/
def abortFields : List Field :=
  [⟨"reserved", 31, 5, .reserved, .reserved⟩, ⟨"ORUNERRCLR", 4, 4, .wo, .wo⟩,
   ⟨"WDERRCLR", 3, 3, .wo, .wo⟩, ⟨"STKERRCLR", 2, 2, .wo, .wo⟩,
   ⟨"STKCMPCLR", 1, 1, .wo, .wo⟩, ⟨"DAPABORT", 0, 0, .wo, .wo⟩]

/-- DPIDR, stored and not checked (10_state.md R43). -/
def dpidrFields : List Field :=
  [⟨"REVISION", 31, 28, .ro, .ro⟩, ⟨"PARTNO", 27, 20, .ro, .ro⟩, ⟨"reserved", 19, 17, .reserved, .reserved⟩,
   ⟨"MIN", 16, 16, .ro, .ro⟩, ⟨"VERSION", 15, 12, .ro, .ro⟩, ⟨"DESIGNER", 11, 1, .ro, .ro⟩,
   ⟨"one", 0, 0, .ro, .ro⟩]

/-- The usual MEM-AP register addresses, opaque to the block (10_state.md R44). -/
def memApRegisters : List (String × Addr) :=
  [("CSW", 0x00), ("TAR", 0x04), ("DRW", 0x0C), ("BD0", 0x10), ("BD1", 0x14), ("BD2", 0x18), ("BD3", 0x1C),
   ("CFG", 0xF4), ("BASE", 0xF8), ("IDR", 0xFC)]

/-! ## Pseudo-commands (30_encoding.md R104) -/

def pseudoReadIdcode : Instr := .readDp 0x0
def pseudoReadCtrlStat : Instr := .readDp 0x4
def pseudoReadResend : Instr := .readDp 0x8
def pseudoReadRdbuff : Instr := .readDp 0xC
def pseudoWriteAbort (v : Word) : Instr := .writeDp 0x0 v
def pseudoDapAbort : Instr := .writeDp 0x0 0x1
def pseudoWriteCtrlStat (v : Word) : Instr := .writeDp 0x4 v
def pseudoWriteSelect (v : Word) : Instr := .writeDp 0x8 v

end Sys2Proof.Machine
end

