-- ==== Sys2Proof/Machine/Target.lean ====
section
/-! DEFINITION. What the spec says of the target's side: the shift registers of its TAP (41_jtag_tap.md R164, R165, R168)
and what ABORT and CTRL/STAT writes do to its sticky flags (10_state.md R36, R39). The step does not use it, since every
value the target returns is a draw (00_scope.md R6); it is what the block's sequences are meant for (log 22). -/

namespace Sys2Proof.Machine

/-- What the target's side brings to a scan: the values its registers would capture, and the instruction a TAP reset
loads. All are free: `irCapture` is ignored by the block, `abortCapture` is undefined in 41_jtag_tap.md R168, and R165
does not say which instruction `resetIr` is. -/
structure TargetSource where
  irCapture : BitVec 4
  /-- ReadResult of DPACC and APACC (30_encoding.md R90). -/
  result : Word
  /-- ACK of DPACC and APACC (30_encoding.md R90). -/
  ack : BitVec 3
  abortCapture : BitVec 35
  /-- The TAP identity. -/
  idcode : Word
  resetIr : BitVec 4
deriving DecidableEq, Repr

/-- What the target acts on at Update-DR (41_jtag_tap.md R168). -/
inductive TargetAction where
  /-- A DP access, through DPACC. -/
  | dpAccess (rnw : Bool) (a : BitVec 2) (data : Word)
  /-- An AP access, through APACC. -/
  | apAccess (rnw : Bool) (a : BitVec 2) (data : Word)
  /-- A write to ABORT, through the ABORT register. -/
  | abortWrite (data : Word)
deriving DecidableEq, Repr

/-- The target's TAP: controller state, current instruction, the two shift registers, bit 0 first, whether the data
register last captured ACK = WAIT, and what the target has acted on, oldest first. -/
structure TargetTap where
  state : TapState
  ir : BitVec 4
  irShift : List Bool
  drShift : List Bool
  waited : Bool
  actions : List TargetAction
deriving DecidableEq, Repr

/-- The bits of a value, bit 0 first. -/
def lsbFirst {n : Nat} (v : BitVec n) : List Bool := (List.range n).map v.getLsbD

/-- The value a shift register holds. -/
def ofLsbFirst (n : Nat) (bits : List Bool) : BitVec n := (BitVec.ofBoolListLE bits).setWidth n

/-- The value the data register of an instruction captures, its length the register's; `none` for the eleven codes whose
register the spec does not give (41_jtag_tap.md R168, 30_encoding.md R88). -/
def drCapture (src : TargetSource) (ir : BitVec 4) : Option (List Bool) :=
  if ir = irCodeDpacc ∨ ir = irCodeApacc then some (lsbFirst (src.result ++ src.ack))
  else if ir = irCodeAbort then some (lsbFirst src.abortCapture)
  else if ir = irCodeIdcode then some (lsbFirst src.idcode)
  else if ir = irCodeBypass then some [false]
  else none

/-- The update action of the data register of an instruction, for its contents `dr`; an access asked for in a scan that
captured WAIT is not started (41_jtag_tap.md R168, R171; the fields: 30_encoding.md R89, R91). -/
def drUpdate (waited : Bool) (ir : BitVec 4) (dr : BitVec 35) : List TargetAction :=
  if ir = irCodeDpacc ∧ !waited then [.dpAccess (dr.getLsbD 0) (dr.extractLsb' 1 2) (dr.extractLsb' 3 32)]
  else if ir = irCodeApacc ∧ !waited then [.apAccess (dr.getLsbD 0) (dr.extractLsb' 1 2) (dr.extractLsb' 3 32)]
  else if ir = irCodeAbort then [.abortWrite (dr.extractLsb' 3 32)]
  else []

/-- A shift register moved one place toward bit 0, with `tdi` entering at the top (41_jtag_tap.md R164). -/
def shiftIn (reg : List Bool) (tdi : Bool) : List Bool := reg.tail ++ [tdi]

/-- One clock of the target's TAP: what TDO carries, `none` where R164 says don't-care, and its next state. The actions are
placed on the clock that leaves the state (41_jtag_tap.md R164). The reset instruction is loaded on a clock that starts in
Test-Logic-Reset: R165 says that a TAP reset loads it, and the clock is the model's choice. So is that nothing is captured,
shifted or updated behind an IR code whose register the spec does not give (log 22). -/
def targetClock (src : TargetSource) (t : TargetTap) (tms tdi : Bool) : Option Bool × TargetTap :=
  let next := tapNext t.state tms
  match t.state with
  | .tlr => (none, { t with state := next, ir := src.resetIr })
  | .capDR =>
    (none, { t with state := next, drShift := (drCapture src t.ir).getD t.drShift, waited := src.ack == 0b001 })
  | .capIR => (none, { t with state := next, irShift := lsbFirst src.irCapture })
  | .shDR =>
    let known := (drCapture src t.ir).isSome
    (if known then t.drShift.head? else none,
      { t with state := next, drShift := if known then shiftIn t.drShift tdi else t.drShift })
  | .shIR => (t.irShift.head?, { t with state := next, irShift := shiftIn t.irShift tdi })
  | .updDR =>
    (none, { t with state := next, actions := t.actions ++ drUpdate t.waited t.ir (ofLsbFirst 35 t.drShift) })
  | .updIR => (none, { t with state := next, ir := ofLsbFirst 4 t.irShift })
  | .rti | .selDR | .ex1DR | .pauseDR | .ex2DR | .selIR | .ex1IR | .pauseIR | .ex2IR => (none, { t with state := next })

/-- A run of clocks: what TDO carries at each, and the state after. -/
def targetRun (src : TargetSource) : TargetTap → List (Bool × Bool) → List (Option Bool) × TargetTap
  | t, [] => ([], t)
  | t, (tms, tdi) :: rest =>
    let (tdo, t') := targetClock src t tms tdi
    let (tdos, t'') := targetRun src t' rest
    (tdo :: tdos, t'')

/-- The TMS and TDI of each clock of a sequence, the first clock first (00_scope.md R14). -/
def sequenceClocks (n : Nat) (tms tdi : Wire) : List (Bool × Bool) :=
  (List.range n).map fun i => (tms.getLsbD i, tdi.getLsbD i)

/-- CTRL/STAT of the target after an ABORT write of v: each clear bit clears its flag (10_state.md R39). -/
def targetAbort (v cs : Word) : Word :=
  let clear (bit flag : Nat) (w : Word) : Word := if v.getLsbD bit then w &&& ~~~(1#32 <<< flag) else w
  clear 1 4 (clear 2 5 (clear 3 7 (clear 4 1 cs)))

/-- CTRL/STAT of a JTAG-DP after a CTRL/STAT write of v: the read-write fields take the value, and the flags STICKYERR,
STICKYCMP and STICKYORUN are cleared where v has a 1 (10_state.md R36). -/
def targetCtrlStatW1C (v cs : Word) : Word :=
  (v &&& csRwMask) ||| (cs &&& ~~~csRwMask &&& ~~~(v &&& 0x00000032))

end Sys2Proof.Machine
end

