-- ==== Sys2Proof/Safety.lean ====
section
/-! DEFINITION. What claims about the machine are said in: the invariants between commands, the projections of the
observation, and exchanges, that is what the transport answers and what the block is then seen to do. The exchanges are
written from the frames of 30_encoding.md R86, R93 and the sequences of 41_jtag_tap.md, not from the machine's functions. -/

namespace Sys2Proof.Machine

/-! ## Invariants between commands -/

/-- The invariants of 42_dpap_commands.md R201. -/
structure BlockInv (b : Block) : Prop where
  /-- (a), 10_state.md R31 -/
  tapIdle : b.link = .ready → b.proto = some .jtag → b.tap = some .rti
  /-- (b) -/
  pendingNoSelect : b.clearPending = true → b.selectCache = none
  /-- (c) -/
  notReadyNoSelect : b.link ≠ .ready → b.selectCache = none
  /-- (d), 10_state.md R32 -/
  selectBank0 : ∀ v, b.selectCache = some v → v.extractLsb' 0 4 = 0

/-- The block is connected over p with no clear pending, so that a command runs at once (42_dpap_commands.md R200). -/
structure Connected (p : Protocol) (s : State) : Prop where
  link : s.st.link = .ready
  proto : s.st.proto = some p
  clear : s.st.clearPending = false

/-- Connected over JTAG with the TAP in Run-Test/Idle (10_state.md R31). -/
structure ConnectedJtag (s : State) : Prop extends Connected .jtag s where
  tap : s.st.tap = some .rti

/-! ## Projections of the observation (00_scope.md R8) -/

/-- Whether an observation is a transport call. -/
def isCall : Obs → Bool
  | .sendBits _ _ _ | .recvBits _ _ | .resetLine _ | .setClock _ _ | .jtagSeq _ _ _ _ => true
  | .apShadowInvalidate | .result _ _ => false

/-- Whether an observation is a command's result. -/
def isResult : Obs → Bool
  | .result _ _ => true
  | .sendBits _ _ _ | .recvBits _ _ | .resetLine _ | .setClock _ _ | .jtagSeq _ _ _ _ | .apShadowInvalidate => false

/-- The wire transcript. -/
def wireTranscript (s : State) : List Obs := s.trace.filter isCall

/-- The sequence of (command, result) pairs. -/
def commandResults (s : State) : List Obs := s.trace.filter isResult

/-- The 33-bit words sent in a part of the trace, each with the last 8-bit word sent before it, `request` where there is
none: for a data phase, the request it belongs to (30_encoding.md R86). -/
def dataWords (request : BitVec 33) : List Obs → List (BitVec 33 × BitVec 33)
  | [] => []
  | .sendBits n v _ :: l =>
    if n = 8 then dataWords v l else if n = 33 then (request, v) :: dataWords request l else dataWords request l
  | .recvBits _ _ :: l | .resetLine _ :: l | .setClock _ _ :: l | .jtagSeq _ _ _ _ :: l | .apShadowInvalidate :: l
  | .result _ _ :: l => dataWords request l

/-- The clocks a transport call takes (70_reset_and_hazards.md R313); the line reset and the rate are the transport's. -/
def obsClocks : Obs → Nat
  | .sendBits n _ _ => n
  | .recvBits n _ => n
  | .jtagSeq n _ _ _ => n
  | .resetLine _ | .setClock _ _ | .apShadowInvalidate | .result _ _ => 0

/-- The clocks of a part of the trace. -/
def clockCount (l : List Obs) : Nat := (l.map obsClocks).sum

/-- The number of transport calls in a part of the trace. -/
def callCount (l : List Obs) : Nat := (l.filter isCall).length

/-! ## Exchanges -/

/-- What the transport answers, in order, and what is then observed, in order. -/
structure Exchange where
  answers : List Answer
  obs : List Obs

/-- Nothing. -/
def noExchange : Exchange := ⟨[], []⟩

/-- One exchange after another. -/
def Exchange.andThen (x y : Exchange) : Exchange := ⟨x.answers ++ y.answers, x.obs ++ y.obs⟩

/-- An ApShadowInvalidate pulse: no call. -/
def pulse : Exchange := ⟨[], [.apShadowInvalidate]⟩

/-- The transport's next n answers (00_scope.md R6). -/
def upcoming : Nat → State → List Answer
  | 0, _ => []
  | n + 1, s => (nextAnswer s).1 :: upcoming n (nextAnswer s).2

/-- The state when they have been drawn. -/
def skipped : Nat → State → State
  | 0, s => s
  | n + 1, s => skipped n (nextAnswer s).2

/-- The transport's next answers are those of an exchange. -/
def State.meets (s : State) (x : Exchange) : Prop := upcoming x.answers.length s = x.answers

/-- The state after an exchange, the block state aside: its answers drawn, its observations made. -/
def State.after (s : State) (x : Exchange) : State :=
  { skipped x.answers.length s with trace := s.trace ++ x.obs }

/-- The state with another block state. -/
def State.withBlock (s : State) (b : Block) : State := { s with st := b }

/-- The state with a result added for an instruction. -/
def State.answered (s : State) (i : Instr) (r : Result) : State :=
  { s with trace := s.trace ++ [.result (.instr i) r] }

/-- The state with an instruction's value added, empty or not (30_encoding.md R100). -/
def State.replied (s : State) (i : Instr) (v : Option Word) : State := s.answered i (.ok v)

/-- The state with an instruction's error added; `select` is the SELECT cache the instruction started with, which its error
record may name (60_exceptions.md R260; log 8). -/
def State.failed (s : State) (i : Instr) (select : Option Word) (e : Error) : State :=
  s.answered i (.err (errorRecord (ctxOf select i) e))

/-- `ResetLine()` answered Ok. -/
def lineResetX (junk : Wire) : Exchange := ⟨[.ok junk], [.resetLine .ok]⟩

/-- `SetClock(hz)` answered a. -/
def setClockX (hz : Word) (a : Answer) : Exchange := ⟨[a], [.setClock hz (answerStatus a)]⟩

/-! ### SWD -/

/-- `SendBits(n, v)` answered Ok, whatever bits come with it. -/
def sent (n : Nat) (v : BitVec 33) (junk : Wire) : Exchange := ⟨[.ok junk], [.sendBits n v .ok]⟩

/-- `RecvBits(n)` answered Ok(v). -/
def received (n : Nat) (v : BitVec n) : Exchange := ⟨[.ok (v.setWidth 40)], [.recvBits n (.ok (v.setWidth 40))]⟩

/-- The samples nothing depends on in one SWD attempt (93_implementation_defined.md U20). -/
structure SwdJunk where
  request : Wire
  turn1 : BitVec 1
  turn2 : BitVec 1
  data : Wire
  idle : Wire

/-- The idle cycles of an attempt (40_swd_link.md R128). -/
def idleX (p : Params) (j : SwdJunk) : Exchange :=
  if p.idleCycles = 0 then noExchange else sent p.idleCycles 0 j.idle

/-- Request, turnaround, acknowledge (30_encoding.md R86). -/
def swdHeadX (apndp rnw : Bool) (a : BitVec 2) (ack : BitVec 3) (j : SwdJunk) : Exchange :=
  ((sent 8 ((swdRequest apndp rnw a).setWidth 33) j.request).andThen (received 1 j.turn1)).andThen (received 3 ack)

/-- An attempt the target answers with WAIT (0b010) or FAULT (0b100) (30_encoding.md R86). -/
def swdStopX (p : Params) (apndp rnw : Bool) (a : BitVec 2) (ack : BitVec 3) (j : SwdJunk) : Exchange :=
  ((swdHeadX apndp rnw a ack j).andThen (received 1 j.turn2)).andThen (idleX p j)

/-- A read attempt answered OK with the 33-bit data phase w (30_encoding.md R86). -/
def swdReadX (p : Params) (apndp : Bool) (a : BitVec 2) (w : BitVec 33) (j : SwdJunk) : Exchange :=
  (((swdHeadX apndp true a 0b001 j).andThen (received 33 w)).andThen (received 1 j.turn2)).andThen (idleX p j)

/-- A write attempt answered OK (30_encoding.md R86). -/
def swdWriteX (p : Params) (apndp : Bool) (a : BitVec 2) (v : Word) (j : SwdJunk) : Exchange :=
  (((swdHeadX apndp false a 0b001 j).andThen (received 1 j.turn2)).andThen (sent 33 (swdData v) j.data)).andThen
    (idleX p j)

/-- One WAIT attempt after another, one per element (40_swd_link.md R129). -/
def swdWaitsX (p : Params) (apndp rnw : Bool) (a : BitVec 2) : List SwdJunk → Exchange
  | [] => noExchange
  | j :: js => (swdStopX p apndp rnw a 0b010 j).andThen (swdWaitsX p apndp rnw a js)

/-- The samples of one SWD transaction: those of its WAIT attempts, and those of its last attempt. -/
structure SwdTry where
  waits : List SwdJunk
  last : SwdJunk

/-- The WAITs are within the retry bound (00_scope.md R9). -/
abbrev SwdTry.fits (t : SwdTry) (p : Params) : Prop := t.waits.length ≤ p.waitRetries

/-- A read transaction that ends with OK and the data d (40_swd_link.md R124, R129). -/
def swdReadOkX (p : Params) (apndp : Bool) (a : BitVec 2) (d : Word) (t : SwdTry) : Exchange :=
  (swdWaitsX p apndp true a t.waits).andThen (swdReadX p apndp a (swdData d) t.last)

/-- A write transaction of v that ends with OK (40_swd_link.md R125, R129). -/
def swdWriteOkX (p : Params) (apndp : Bool) (a : BitVec 2) (v : Word) (t : SwdTry) : Exchange :=
  (swdWaitsX p apndp false a t.waits).andThen (swdWriteX p apndp a v t.last)

/-- A transaction that ends with FAULT (40_swd_link.md R126, R129). -/
def swdFaultX (p : Params) (apndp rnw : Bool) (a : BitVec 2) (t : SwdTry) : Exchange :=
  (swdWaitsX p apndp rnw a t.waits).andThen (swdStopX p apndp rnw a 0b100 t.last)

/-- A read transaction that ends with the data phase w, whatever its parity (40_swd_link.md R124, R129). -/
def swdDataX (p : Params) (apndp : Bool) (a : BitVec 2) (w : BitVec 33) (t : SwdTry) : Exchange :=
  (swdWaitsX p apndp true a t.waits).andThen (swdReadX p apndp a w t.last)

/-- A transaction that ends with the acknowledge k and nothing after it (40_swd_link.md R127, R129). -/
def swdInvalidX (p : Params) (apndp rnw : Bool) (a : BitVec 2) (k : BitVec 3) (t : SwdTry) : Exchange :=
  (swdWaitsX p apndp rnw a t.waits).andThen (swdHeadX apndp rnw a k t.last)

/-- A transaction whose first call the transport fails (00_scope.md R15). -/
def swdLostX (apndp rnw : Bool) (a : BitVec 2) (lost : Answer) : Exchange :=
  ⟨[lost], [.sendBits 8 ((swdRequest apndp rnw a).setWidth 33) (answerStatus lost)]⟩

/-- The clear of an SCS after a poll that returned v, all OK: an ABORT write, if a sticky bit was seen
(60_exceptions.md R264). -/
def swdClearX (p : Params) (v : Word) (t : SwdTry) : Exchange :=
  if sticky v then swdWriteOkX p false 0 (abortValue v) t else noExchange

/-- An SCS that polls for itself, all OK (60_exceptions.md R264). -/
def swdScsX (p : Params) (v : Word) (t u : SwdTry) : Exchange :=
  (pulse.andThen (swdReadOkX p false 1 v t)).andThen (swdClearX p v u)

/-- Polls one after another, each of them OK (60_exceptions.md R263). -/
def swdPollsX (p : Params) : List (Word × SwdTry) → Exchange
  | [] => noExchange
  | (v, t) :: rest => (swdReadOkX p false 1 v t).andThen (swdPollsX p rest)

/-! ### JTAG -/

/-- `JtagSeq` answered Ok(tdo). -/
def jtagX (n : Nat) (tms tdi tdo : Wire) : Exchange :=
  ⟨[.ok tdo], [.jtagSeq n tms tdi (.ok ((tdo.setWidth n).setWidth 40))]⟩

/-- `IrScan(ir)` (30_encoding.md R93). -/
def irScanX (ir : BitVec 4) (tdo : Wire) : Exchange := jtagX 10 0x183 (ir.setWidth 40 <<< 4) tdo

/-- `EnsureIr(ir)` when the cache holds `cache` (41_jtag_tap.md R169). -/
def ensureIrX (cache : Option (BitVec 4)) (ir : BitVec 4) (tdo : Wire) : Exchange :=
  if cache = some ir then noExchange else irScanX ir tdo

/-- A TDO word of a 35-bit scan whose shift-out is `out`; the other bits are don't-care (41_jtag_tap.md R164). -/
def tdo35 (out : BitVec 35) (junk : Wire) : Wire := junk.extractLsb' 38 2 ++ out ++ junk.extractLsb' 0 3

/-- `DrScan(35, din)` with shift-out `out` (30_encoding.md R93). -/
def dr35X (din out : BitVec 35) (junk : Wire) : Exchange :=
  jtagX 40 0x6000000001 (din.setWidth 40 <<< 3) (tdo35 out junk)

/-- A TDO word of a 32-bit scan whose shift-out is `out` (41_jtag_tap.md R164). -/
def tdo32 (out : Word) (junk : Wire) : Wire := junk.extractLsb' 35 5 ++ out ++ junk.extractLsb' 0 3

/-- `DrScan(32, 0)` with shift-out `out` (30_encoding.md R92, R93). -/
def dr32X (out : Word) (junk : Wire) : Exchange := jtagX 37 0xC00000001 0 (tdo32 out junk)

/-- `TapReset()` (30_encoding.md R93). -/
def tapResetX (tdo : Wire) : Exchange := jtagX 6 0x1F 0 tdo

/-- What a DPACC or APACC scan captures: a result and an acknowledge (30_encoding.md R90). -/
structure Capture where
  result : Word
  junk : Wire

/-- DPACC or APACC scans answered WAIT (0b001), one per element (41_jtag_tap.md R170). -/
def xpaccWaitsX (rnw : Bool) (a : BitVec 2) (data : Word) : List Capture → Exchange
  | [] => noExchange
  | c :: cs =>
    (dr35X (xpaccIn rnw a data) (c.result ++ 0b001#3) c.junk).andThen (xpaccWaitsX rnw a data cs)

/-- The captures of one JTAG-DP transaction: those of its WAIT scans, and the TDO bits nothing depends on of its last. -/
structure JtagTry where
  waits : List Capture
  last : Wire

/-- The WAITs are within the retry bound (00_scope.md R9). -/
abbrev JtagTry.fits (t : JtagTry) (p : Params) : Prop := t.waits.length ≤ p.waitRetries

/-- A DPACC or APACC transaction that ends with OK/FAULT and captures d, the previous transaction's result
(41_jtag_tap.md R170). -/
def xpaccOkX (rnw : Bool) (a : BitVec 2) (data d : Word) (t : JtagTry) : Exchange :=
  (xpaccWaitsX rnw a data t.waits).andThen (dr35X (xpaccIn rnw a data) (d ++ 0b010#3) t.last)

/-- A DPACC or APACC transaction whose last scan captures the acknowledge k (41_jtag_tap.md R170). -/
def xpaccInvalidX (rnw : Bool) (a : BitVec 2) (data d : Word) (k : BitVec 3) (t : JtagTry) : Exchange :=
  (xpaccWaitsX rnw a data t.waits).andThen (dr35X (xpaccIn rnw a data) (d ++ k) t.last)

/-- `JtagReadDp(a)` returning d, after an EnsureIr that found `cache` (41_jtag_tap.md R180). -/
def jtagReadDpX (cache : Option (BitVec 4)) (a : BitVec 2) (prev d : Word) (ir : Wire) (t u : JtagTry) : Exchange :=
  ((ensureIrX cache 0xA ir).andThen (xpaccOkX true a 0 prev t)).andThen (xpaccOkX true 3 0 d u)

/-- `JtagWriteDp(a, v)`, after an EnsureIr that found `cache` (41_jtag_tap.md R181). -/
def jtagWriteDpX (cache : Option (BitVec 4)) (a : BitVec 2) (v prev d : Word) (ir : Wire) (t u : JtagTry) : Exchange :=
  ((ensureIrX cache 0xA ir).andThen (xpaccOkX false a v prev t)).andThen (xpaccOkX true 3 0 d u)

/-- `JtagAbort(v)`, after an EnsureIr that found `cache`; the shift-out is ignored (41_jtag_tap.md R172). -/
def jtagAbortX (cache : Option (BitVec 4)) (v : Word) (ir : Wire) (out : BitVec 35) (junk : Wire) : Exchange :=
  (ensureIrX cache 0x8 ir).andThen (dr35X (abortIn v) out junk)

/-- `JtagIdcode()` returning id, after an EnsureIr that found `cache` (41_jtag_tap.md R173). -/
def jtagIdcodeX (cache : Option (BitVec 4)) (id : Word) (ir junk : Wire) : Exchange :=
  (ensureIrX cache 0xE ir).andThen (dr32X id junk)

/-- The internal SELECT write, after an EnsureIr that found `cache`, with no flush (41_jtag_tap.md R184). -/
def jtagSelectX (cache : Option (BitVec 4)) (sel prev : Word) (ir : Wire) (t : JtagTry) : Exchange :=
  (ensureIrX cache 0xA ir).andThen (xpaccOkX false 2 sel prev t)

/-- The two scans of an AP transaction, the second capturing d (41_jtag_tap.md R182, R183). -/
def jtagApX (cache : Option (BitVec 4)) (rnw : Bool) (a : BitVec 2) (v prev d : Word) (irB irA : Wire)
    (t u : JtagTry) : Exchange :=
  (((ensureIrX cache 0xB irB).andThen (xpaccOkX rnw a v prev t)).andThen (irScanX 0xA irA)).andThen
    (xpaccOkX true 3 0 d u)

/-- The SELECT write and the event of an EnsureSelect that finds another value in the cache (42_dpap_commands.md R205). -/
def jtagEnsureSelectX (cache : Option (BitVec 4)) (sel prev : Word) (ir : Wire) (t : JtagTry) : Exchange :=
  (jtagSelectX cache sel prev ir t).andThen pulse

/-- One poll over JTAG with IR already DPACC (41_jtag_tap.md R180, 60_exceptions.md R263). -/
structure JtagPoll where
  value : Word
  prev : Word
  first : JtagTry
  last : JtagTry

/-- The WAITs are within the retry bound (00_scope.md R9). -/
abbrev JtagPoll.fits (q : JtagPoll) (p : Params) : Prop := q.first.fits p ∧ q.last.fits p

/-- Its exchange. -/
def JtagPoll.exchange (q : JtagPoll) : Exchange := jtagReadDpX (some 0xA) 1 q.prev q.value 0 q.first q.last

/-- Polls one after another, each of them OK. -/
def jtagPollsX : List JtagPoll → Exchange
  | [] => noExchange
  | q :: rest => q.exchange.andThen (jtagPollsX rest)

/-- The clear of an SCS on JTAG, IR already DPACC, all OK: by the ABORT instruction, or by writing 1s to CTRL/STAT
(41_jtag_tap.md R186). -/
def jtagClearX (p : Params) (v prev d : Word) (ir : Wire) (out : BitVec 35) (junk : Wire) (t u : JtagTry) : Exchange :=
  match p.jtagStickyClear with
  | .abortWrite => jtagAbortX (some 0xA) (abortValue v) ir out junk
  | .ctrlStatW1C => jtagWriteDpX (some 0xA) 1 (w1cValue v) prev d ir t u

/-- A DPACC or APACC transaction whose first call the transport fails (00_scope.md R15). -/
def jtagLostX (rnw : Bool) (a : BitVec 2) (data : Word) (lost : Answer) : Exchange :=
  ⟨[lost], [.jtagSeq 40 0x6000000001 ((xpaccIn rnw a data).setWidth 40 <<< 3) lost]⟩

/-- The clear after a poll that returned v, all OK: a clear write, if a sticky bit was seen (60_exceptions.md R266). -/
def jtagMaybeClearX (p : Params) (v prev d : Word) (ir : Wire) (out : BitVec 35) (junk : Wire) (t u : JtagTry) : Exchange :=
  if sticky v then jtagClearX p v prev d ir out junk t u else noExchange

/-- The IR code held after a clear write on JTAG (41_jtag_tap.md R186). -/
def clearIr (p : Params) : BitVec 4 :=
  match p.jtagStickyClear with
  | .abortWrite => 0x8
  | .ctrlStatW1C => 0xA

/-- An IR scan that the transport fails (00_scope.md R15). -/
def irLostX (ir : BitVec 4) (lost : Answer) : Exchange := ⟨[lost], [.jtagSeq 10 0x183 (ir.setWidth 40 <<< 4) lost]⟩

/-- An ABORT scan that the transport fails (00_scope.md R15, 41_jtag_tap.md R172). -/
def abortLostX (v : Word) (lost : Answer) : Exchange :=
  ⟨[lost], [.jtagSeq 40 0x6000000001 ((abortIn v).setWidth 40 <<< 3) lost]⟩

/-! ### The first transaction of a command -/

/-- Over SWD, with SELECT held where it matters: the host command, and its transaction's APnDP, RnW and A[3:2]
(42_dpap_commands.md R210 to R218). `cs` and `sel` are values a CTRL/STAT and a SELECT write may have. -/
def firstSwd (a : BitVec 2) (ap addr : Addr) (cs sel v : Word) : List (Instr × Bool × Bool × BitVec 2) :=
  [(.readDp (0#4 ++ a ++ 0#2), false, true, a), (.writeDp 0x0 v, false, false, 0), (.writeDp 0x4 cs, false, false, 1),
    (.writeDp 0x8 sel, false, false, 2), (.readAp ap addr, true, true, regA addr),
    (.writeAp ap addr v, true, false, regA addr), (.powerUp, false, false, 1)]

/-- The requests of the SWD format, as `firstSwd` has the host commands (30_encoding.md R83; log 5). The TARGETSEL request,
which makes no transaction, is none of them. -/
def requestsSwd (cs sel v : Word) : List (Instr × Bool × Bool × BitVec 2) :=
  [(.dpR0, false, true, 0), (.dpR4, false, true, 1), (.dpR8, false, true, 2), (.dpRC, false, true, 3),
    (.dpW0 v, false, false, 0), (.dpW4 cs, false, false, 1), (.dpW8 sel, false, false, 2),
    (.apR0, true, true, 0), (.apR1, true, true, 1), (.apR2, true, true, 2), (.apR3, true, true, 3),
    (.apW0 v, true, false, 0), (.apW1 v, true, false, 1), (.apW2 v, true, false, 2), (.apW3 v, true, false, 3)]

/-- Over JTAG, with SELECT held where it matters: the host command, and its transaction's IR code, RnW, A[3:2] and data. An
ABORT write has no acknowledge (41_jtag_tap.md R172) and is none of them. -/
def firstJtag (a : BitVec 2) (ap addr : Addr) (sel v : Word) : List (Instr × BitVec 4 × Bool × BitVec 2 × Word) :=
  [(.readDp (0#4 ++ a ++ 0#2), 0xA, true, a, 0), (.writeDp 0x4 v, 0xA, false, 1, v), (.writeDp 0x8 sel, 0xA, false, 2, sel),
    (.readAp ap addr, 0xB, true, regA addr, 0), (.writeAp ap addr v, 0xB, false, regA addr, v),
    (.powerUp, 0xA, false, 1, 0x50000000)]

/-- An AP access runs at once: the DP is powered and the target's SELECT holds what it needs (42_dpap_commands.md R200,
R205). -/
structure ApReady (ap addr : Addr) (s : State) : Prop where
  powered : s.st.dpPowered = true
  select : s.st.selectCache = some (requiredSelect ap addr)

/-! ## Block states after the events of 60_exceptions.md section 4 -/

/-- The block after a CTRL/STAT value was observed (42_dpap_commands.md R204). -/
def Block.observed (b : Block) (v : Word) : Block := { b with ctrlStatShadow := some v, dpPowered := powered v }

/-- The block after an SCS that read v (60_exceptions.md R264). -/
def Block.cleared (b : Block) (v : Word) : Block :=
  { b.observed v with selectCache := none, clearPending := false }

/-- The block after a disconnection (60_exceptions.md R272). -/
def Block.lost (b : Block) : Block :=
  { b with link := .disconnected, selectCache := none, irCache := none, tap := none }

/-- The block after an Unsupported (60_exceptions.md R273). -/
def Block.unsupported (b : Block) : Block :=
  { b with link := .unconnected, selectCache := none, irCache := none, tap := none }

/-- The block after an undecodable acknowledge (60_exceptions.md R274). -/
def Block.desynced (b : Block) : Block := { b with link := .desync, selectCache := none, irCache := none }

/-! ## How a transaction inside a clear sequence can fail (60_exceptions.md R264, R266, R276, R284) -/

/-- A severe result: what is exchanged, its event included, what becomes of the block, and the error that ends the command
(60_exceptions.md R272 to R274, R276). -/
structure Severe where
  exchange : Exchange
  block : Block → Block
  error : Error

/-- A severe result after something else. -/
def Severe.behind (x : Exchange) (y : Severe) : Severe := { y with exchange := x.andThen y.exchange }

/-- The two transport errors of a call (00_scope.md R15). -/
def lostCall (x : Answer → Exchange) : List Severe :=
  [⟨x .disconnected, Block.lost, .disconnected⟩, ⟨(x .unsupported).andThen pulse, Block.unsupported, .unsupported⟩]

/-- The severe results of an SWD transaction: the undecodable acknowledge k, and the transport errors of its first call. -/
def swdSevere (p : Params) (rnw : Bool) (a : BitVec 2) (k : BitVec 3) (t : SwdTry) : List Severe :=
  ⟨(swdInvalidX p false rnw a k t).andThen pulse, Block.desynced, .invalidAck k⟩ :: lostCall (swdLostX false rnw a)

/-- The severe results of a DPACC transaction whose IR code is held. -/
def jtagSevere (rnw : Bool) (a : BitVec 2) (data d : Word) (k : BitVec 3) (t : JtagTry) : List Severe :=
  ⟨(xpaccInvalidX rnw a data d k t).andThen pulse, Block.desynced, .invalidAck k⟩ :: lostCall (jtagLostX rnw a data)

/-- The severe results of the clear write on JTAG, IR already DPACC (41_jtag_tap.md R186): an ABORT write has no acknowledge
(R172), and can lose its IR scan or its data scan. -/
def jtagClearSevere (p : Params) (v d : Word) (k : BitVec 3) (ir : Wire) (t : JtagTry) : List Severe :=
  match p.jtagStickyClear with
  | .abortWrite => lostCall (irLostX 0x8) ++ (lostCall (abortLostX (abortValue v))).map (·.behind (irScanX 0x8 ir))
  | .ctrlStatW1C => jtagSevere false 1 (w1cValue v) d k t

/-- The failures of a poll over SWD that are not severe: FAULT, a read of `data` with the wrong parity, and WAIT on every
attempt. -/
def swdPollFails (p : Params) (data : Word) (t : SwdTry) (js : List SwdJunk) : List Exchange :=
  [swdFaultX p false true 1 t, swdDataX p false 1 (BitVec.ofBool (!parity data) ++ data) t, swdWaitsX p false true 1 js]

/-- The failures of the ABORT write over SWD that are not severe. -/
def swdClearFails (p : Params) (t : SwdTry) (js : List SwdJunk) : List Exchange :=
  [swdFaultX p false false 0 t, swdWaitsX p false false 0 js]

/-- The failures of the clear write on JTAG that are not severe: WAIT on every scan, where it has an acknowledge. -/
def jtagClearFails (p : Params) (v : Word) (scans : List Capture) : List Exchange :=
  match p.jtagStickyClear with
  | .abortWrite => []
  | .ctrlStatW1C => [xpaccWaitsX false 1 (w1cValue v) scans]

end Sys2Proof.Machine
end

