-- ==== Sys2Proof/Certificates/Slice0/Obligations.lean ====
section
/-! DEFINITION. The statements for the provers, each from a numbered rule of spec/ or from what the model does with it.
A completion statement gives the whole next state: the exchange fixes the calls made and the answers taken, the block
state is spelled out, and the port and the parameters are those of the state before. -/

section

open Sys2Proof Sys2Proof.Machine

/-! ## Words -/

/-- 30_encoding.md R83, R85, R87, R89, R91, R92, R100, R101: nine words written out from the tables decode to their rows, and a
tenth, a write request whose data parity is wrong, is rejected by name. -/
def Obligations.WrittenWordsDecode : Prop :=
  decode (.swd 0x000000000A5) = .ok .dpR0 ∧
    decode (.swd 0x0010000008B) = .error .swdDataParity ∧
    decode (.swd 0x1010000008B) = .ok (.apW1 0x01000000) ∧
    decode (.ir 0b1011) = .ok .irApacc ∧
    decode (.dr35 0xA 0x000000007) = .ok (.dpaccR 3) ∧
    decode (.dr35 0xA 0x280000002) = .ok (.dpaccW .ctrlStat 0x50000000) ∧
    decode (.dr35 0x8 0x0000000F0) = .ok (.abortW 0x1E) ∧
    decode (.dr32 0xE 0) = .ok .idcodeR ∧
    decode (.host 0x00000000_23000002_000C0005) = .ok (.writeAp 0 0xC 0x23000002) ∧
    decode (.host 0x000F4240_00000000_00000001) = .ok (.setClock 1000000)

/-- Every instruction, with every operand its encoding admits, decodes from the word it encodes to
(30_encoding.md sections 1 to 6). -/
def Obligations.DecodeEncodeRoundTrip : Prop := ∀ i : Instr, decode (encode i) = .ok i

/-- 30_encoding.md R81, R87, R89, R91, R92: a word of a link format that decodes is the word its instruction encodes to, so
no bit of it is dropped. What a port word of a link format holds (the request with its data phase in 41 bits, zeros for a
read, and data registers tagged with their IR code) is the model's choice (log 11). -/
def Obligations.LinkWordsEncodeBack : Prop :=
  ∀ (w : PortWord) (i : Instr), (∀ h, w ≠ .host h) → decode w = .ok i → encode i = w

/-- 30_encoding.md R100, R101, R102: a command word is read by its fields, whatever its reserved bits and its unused
fields hold. -/
def Obligations.HostWordFields : Prop :=
  ∀ (hz data : Word) (r₂ addr ap : BitVec 8) (r₁ proto : BitVec 2),
    let word := fun op : BitVec 4 => PortWord.host (hz ++ data ++ r₂ ++ addr ++ ap ++ r₁ ++ proto ++ op)
    decode (word 0) = (if proto = 0 then .ok .connectSwd else if proto = 1 then .ok .connectJtag
        else .error (.badProtocol proto)) ∧
      decode (word 1) = .ok (.setClock hz) ∧ decode (word 2) = .ok (.readDp addr) ∧
      decode (word 3) = .ok (.writeDp addr data) ∧ decode (word 4) = .ok (.readAp ap addr) ∧
      decode (word 5) = .ok (.writeAp ap addr data) ∧ decode (word 6) = .ok .powerUp ∧
      decode (word 7) = .ok .reservedOp7 ∧ decode (word 8) = .ok .reservedOp8 ∧ decode (word 9) = .ok .reservedOp9 ∧
      decode (word 10) = .ok .reservedOp10 ∧ decode (word 11) = .ok .reservedOp11 ∧
      decode (word 12) = .ok .reservedOp12 ∧ decode (word 13) = .ok .reservedOp13 ∧
      decode (word 14) = .ok .reservedOp14 ∧ decode (word 15) = .ok .reservedOp15

/-- 30_encoding.md R81 (the spec's decision D7): the eight bits of a request, and their value as one number. -/
def Obligations.RequestPacketBits : Prop :=
  ∀ (apndp rnw : Bool) (a : BitVec 2),
    (swdRequest apndp rnw a).toNat =
      1 + 2 * apndp.toNat + 4 * rnw.toNat + 8 * (a.getLsbD 0).toNat + 16 * (a.getLsbD 1).toNat +
        32 * (apndp ^^ rnw ^^ a.getLsbD 0 ^^ a.getLsbD 1).toNat + 128

/-- 30_encoding.md R85 (the spec's decision D9), 00_scope.md R13: the data phase is the data and then the parity of
the number of its 1 bits; the received words that pass the parity test are exactly the data phases of this format. -/
def Obligations.DataPhaseParity : Prop :=
  (∀ d : Word, (swdData d).extractLsb' 0 32 = d ∧
    ((swdData d).getLsbD 32).toNat = ((List.range 32).countP fun i => d.getLsbD i) % 2) ∧
    ∀ w : BitVec 33, swdDataOk w = true ↔ w = swdData (w.extractLsb' 0 32)

/-! ## The TAP and the target's shift registers -/

/-- 41_jtag_tap.md R162, with its longest paths, from ShDR and ShIR. -/
def Obligations.FiveOnesReachReset : Prop :=
  (∀ s : TapState, tapRun s [true, true, true, true, true] = .tlr) ∧ tapNext .tlr true = .tlr ∧
    (List.range 6).map (fun n => tapRun .shDR (List.replicate n true)) = [.shDR, .ex1DR, .updDR, .selDR, .selIR, .tlr] ∧
    (List.range 6).map (fun n => tapRun .shIR (List.replicate n true)) = [.shIR, .ex1IR, .updIR, .selDR, .selIR, .tlr]

/-- 41_jtag_tap.md R163, R165 to R167: the sequences end in Run-Test/Idle from where they start, TapReset from anywhere,
known or not; on the target (reference model, log 22) TapReset also loads the reset instruction, whichever it is. -/
def Obligations.SequencesEndIdle : Prop :=
  (∀ tap : Option TapState, trackTap tap (tmsBits tapResetLen tapResetTms) = some .rti) ∧
    trackTap (some .rti) (tmsBits irScanLen irScanTms) = some .rti ∧
    trackTap (some .rti) (tmsBits (drScanLen 35) (drScanTms 35)) = some .rti ∧
    trackTap (some .rti) (tmsBits (drScanLen 32) (drScanTms 32)) = some .rti ∧
    ∀ (src : TargetSource) (t : TargetTap),
      let r := targetRun src t (sequenceClocks tapResetLen tapResetTms 0)
      r.2.state = .rti ∧ r.2.ir = src.resetIr

/-- 41_jtag_tap.md R164, R166: on a target in Run-Test/Idle (reference model, log 22), IrScan makes ir the current
instruction, whatever the IR captures, and the target acts on nothing. -/
def Obligations.IrScanSelectsInstruction : Prop :=
  ∀ (src : TargetSource) (t : TargetTap) (ir : BitVec 4), t.state = .rti →
    let r := targetRun src t (sequenceClocks irScanLen irScanTms (irScanTdi ir))
    r.2.state = .rti ∧ r.2.ir = ir ∧ r.2.actions = t.actions

/-- 41_jtag_tap.md R164, R167, R168: on a target in Run-Test/Idle (reference model, log 22), DrScan(35) through DPACC or
APACC brings back what the register captured and starts the access it asks for, unless ACK was WAIT; through ABORT it writes
ABORT; DrScan(32) through IDCODE brings back the identity and does nothing. TDO is looked at on the shift clocks only. -/
def Obligations.DrScanExchangesValues : Prop :=
  ∀ (src : TargetSource) (t : TargetTap) (rnw : Bool) (a : BitVec 2) (v : Word), t.state = .rti →
    let scan := fun din : BitVec 35 => targetRun src t (sequenceClocks (drScanLen 35) (drScanTms 35) (drScanTdi din))
    let x := scan (xpaccIn rnw a v)
    let ab := scan (abortIn v)
    let id := targetRun src t (sequenceClocks (drScanLen 32) (drScanTms 32) (drScanTdi (0 : BitVec 32)))
    (t.ir = 0xA ∨ t.ir = 0xB →
      x.2.state = .rti ∧ x.2.ir = t.ir ∧
        x.2.actions = t.actions ++ (if src.ack = 0b001 then []
          else if t.ir = 0xA then [.dpAccess rnw a v] else [.apAccess rnw a v]) ∧
        (∀ i, (x.1.getD i none).isSome = true ↔ 3 ≤ i ∧ i ≤ 37) ∧
        ∀ tdo : Wire, (∀ i, 3 ≤ i → i ≤ 37 → x.1.getD i none = some (tdo.getLsbD i)) →
          drScanOut 35 tdo = src.result ++ src.ack) ∧
    (t.ir = 0x8 → ab.2.state = .rti ∧ ab.2.ir = t.ir ∧ ab.2.actions = t.actions ++ [.abortWrite v]) ∧
    (t.ir = 0xE →
      id.2.state = .rti ∧ id.2.ir = t.ir ∧ id.2.actions = t.actions ∧
        (∀ i, (id.1.getD i none).isSome = true ↔ 3 ≤ i ∧ i ≤ 34) ∧
        ∀ tdo : Wire, (∀ i, 3 ≤ i → i ≤ 34 → id.1.getD i none = some (tdo.getLsbD i)) → drScanOut 32 tdo = src.idcode)

/-! ## Values the block builds and tests -/

/-- 10_state.md R36, R37: the tests with their masks, which look at bits 7, 5, 4, 1 and at bits 31, 29. -/
def Obligations.StickyAndPowerTests : Prop :=
  ∀ v : Word, (sticky v = true ↔ v &&& 0x000000B2 ≠ 0) ∧ (powered v = true ↔ v &&& 0xA0000000 = 0xA0000000) ∧
    (sticky v = true ↔ v.getLsbD 7 ∨ v.getLsbD 5 ∨ v.getLsbD 4 ∨ v.getLsbD 1) ∧
    (powered v = true ↔ v.getLsbD 31 ∧ v.getLsbD 29)

/-- 20_memory.md R61 (the spec's decision D16): the SELECT value of an access, and the register it and A[3:2] reach
again. -/
def Obligations.RequiredSelectValue : Prop :=
  ∀ ap addr : Addr,
    requiredSelect ap addr = ap.setWidth 32 <<< 24 ||| (addr.extractLsb' 4 4).setWidth 32 <<< 4 ∧
      regA addr = addr.extractLsb' 2 2 ∧ (requiredSelect ap addr).extractLsb' 24 8 = ap ∧
      (requiredSelect ap addr).extractLsb' 4 4 = addr.extractLsb' 4 4 ∧ selectAp (requiredSelect ap addr) = ap ∧
      (addr.extractLsb' 0 2 = 0 → selectAddr (requiredSelect ap addr) (regA addr) = addr)

/-- 10_state.md R40 (the spec's decision D18), with the effect of R39 on the target (reference model, log 22): the ABORT
value clears exactly the sticky flags seen, and the value CONNECT writes clears all four. -/
def Obligations.AbortClearsWhatWasSeen : Prop :=
  ∀ v cs : Word,
    abortValue v = ((v >>> 4 &&& 1) <<< 1 ||| (v >>> 5 &&& 1) <<< 2 ||| (v >>> 7 &&& 1) <<< 3 ||| (v >>> 1 &&& 1) <<< 4) ∧
      abortAllClear = 0x0000001E ∧ targetAbort (abortValue v) cs = cs &&& ~~~(v &&& 0xB2) ∧
      targetAbort abortAllClear cs = cs &&& ~~~0xB2#32

/-- 41_jtag_tap.md R186 with 10_state.md R36 (reference model, log 22): the CtrlStatW1C write clears the flags of a JTAG-DP
and changes nothing else of CTRL/STAT. -/
def Obligations.W1cKeepsControl : Prop := ∀ v : Word, targetCtrlStatW1C (w1cValue v) v = v &&& ~~~0x32#32

/-! ## Steps -/

/-- 00_scope.md R6, 70_reset_and_hazards.md R302: a step takes one word from the port and runs the instruction it decodes
to; with nothing on the port nothing happens. -/
def Obligations.StepRunsDecodedInstruction : Prop :=
  (∀ (s : State) (w : PortWord) (rest : List PortWord) (i : Instr), s.port = w :: rest → decode w = .ok i →
      step s = exec i { s with port := rest }) ∧
    ∀ s : State, s.port = [] → step s = .next s

/-- 10_state.md R45, 70_reset_and_hazards.md R300. -/
def Obligations.ResetState : Prop :=
  State.reset.st = { link := .unconnected, proto := none, selectCache := none, irCache := none, tap := none,
                     dpPowered := false, clearPending := false, dpIdcode := none, ctrlStatShadow := none }

/-- 42_dpap_commands.md R201 at reset. -/
def Obligations.ResetMeetsInvariants : Prop := BlockInv State.reset.st

/-- 42_dpap_commands.md R201: every step keeps the four invariants. -/
def Obligations.StepKeepsInvariants : Prop := ∀ s t : State, BlockInv s.st → step s = .next t → BlockInv t.st

/-- 42_dpap_commands.md R202, 10_state.md R34: a step on a decodable word adds its observations and then exactly one
result, that of its instruction, takes one word from the port, and leaves the parameters alone. -/
def Obligations.StepAnswersOnce : Prop :=
  ∀ (s t : State) (w : PortWord) (rest : List PortWord) (i : Instr), s.port = w :: rest → decode w = .ok i →
    step s = .next t →
      t.port = rest ∧ t.params = s.params ∧
        ∃ (l : List Obs) (r : Result), t.trace = s.trace ++ l ++ [.result (.instr i) r] ∧ ∀ o ∈ l, isResult o = false

/-- 30_encoding.md R94, 40_swd_link.md R139, 41_jtag_tap.md R178, R179: no instruction puts an encoding on the wire that the
block never produces: no request byte 0x99, and no 8-bit word that is neither a request nor idle cycles; no SELECT value with
bits [3:0] other than 0, and over SWD no CTRL/STAT value with ORUNDETECT; no IR code but four. Over JTAG a scan that writes
A[3:2] = 2 may also be the APACC scan of the word that an AP write was given. -/
def Obligations.NeverProducedEncodings : Prop :=
  ∀ (i : Instr) (s t : State), exec i s = .next t →
    ∃ l : List Obs, t.trace = s.trace ++ l ∧
      (∀ (v : BitVec 33) (c : CallStatus), .sendBits 8 v c ∈ l →
        v ∈ [0, 0xA5, 0x8D, 0x95, 0xBD, 0x81, 0xA9, 0xB1, 0x87, 0xAF, 0xB7, 0x9F, 0xA3, 0x8B, 0x93, 0xBB]) ∧
      (∀ request word : BitVec 33, (request, word) ∈ dataWords 0 l →
        (request = 0xB1 → word.extractLsb' 0 4 = 0) ∧ (request = 0xA9 → word.getLsbD 0 = false)) ∧
      ∀ (n : Nat) (tms tdi : Wire) (ans : Answer), .jtagSeq n tms tdi ans ∈ l →
        let data := tdi.extractLsb' 6 32
        (n = 6 ∧ tms = 0x1F ∧ tdi = 0) ∨ (n = 10 ∧ tms = 0x183 ∧ tdi ∈ [0x80, 0xA0, 0xB0, 0xE0]) ∨
          (n = 40 ∧ tms = 0x6000000001 ∧ (tdi.extractLsb' 3 3 = 0b100 → data.extractLsb' 0 4 = 0 ∨
            ∃ (a : BitVec 2) (ap addr : Addr), i = .apaccW a data ∨ i = .writeAp ap addr data)) ∨
          (n = 37 ∧ tms = 0xC00000001 ∧ tdi = 0)

/-- 70_reset_and_hazards.md R314: every command makes a bounded number of transport calls. -/
def Obligations.CallsAreBounded : Prop :=
  ∀ (i : Instr) (s t : State), exec i s = .next t →
    ∃ l : List Obs, t.trace = s.trace ++ l ∧
      callCount l ≤ 6 * (s.params.waitRetries + 1) * (s.params.pwrPolls + 7)

/-- 60_exceptions.md R268: whenever the held SELECT changes, the event is emitted, except on a disconnection. -/
def Obligations.SelectChangeIsSignalled : Prop :=
  ∀ (i : Instr) (s t : State), exec i s = .next t →
    ∃ l : List Obs, t.trace = s.trace ++ l ∧
      (t.st.selectCache = s.st.selectCache ∨ t.st.link = .disconnected ∨ .apShadowInvalidate ∈ l)

/-- 10_state.md R22: no instruction but a CONNECT changes the protocol or the identity. -/
def Obligations.OnlyConnectChangesProtocol : Prop :=
  ∀ (i : Instr) (s t : State), i ≠ .connectSwd → i ≠ .connectJtag → exec i s = .next t →
    t.st.proto = s.st.proto ∧ t.st.dpIdcode = s.st.dpIdcode

/-! ## What is answered before any transport call -/

/-- 60_exceptions.md R272, 10_state.md R21: Disconnected is terminal for every command. That the rows of the link formats
answer so too, and what their error record names, is the model's choice (log 5, log 8). -/
def Obligations.DisconnectedIsTerminal : Prop :=
  ∀ (i : Instr) (s : State), s.st.link = .disconnected →
    exec i s = .next (s.failed i s.st.selectCache .disconnected)

/-- 42_dpap_commands.md R200, 60_exceptions.md R274, R275: every instruction but CONNECT and SET_CLOCK, unless refused,
answers NotConnected while the link is Unconnected and Desync while it is Desync. For the rows of the link formats this is
the model's choice, and so is what their error record names (log 5, log 8). -/
def Obligations.ClosedLinkAnswers : Prop :=
  ∀ (i : Instr) (s : State), i ≠ .connectSwd → i ≠ .connectJtag → (∀ hz, i ≠ .setClock hz) →
    refusalOf s.st.proto i = none →
      (s.st.link = .unconnected → exec i s = .next (s.failed i s.st.selectCache .notConnected)) ∧
        (s.st.link = .desync → exec i s = .next (s.failed i s.st.selectCache .desync))

/-- 42_dpap_commands.md R200, 60_exceptions.md R275: an AP access on a DP that is not powered up. For the AP rows of the
link formats this is the model's choice, and so is what their error record names (log 5, log 8). -/
def Obligations.UnpoweredApAccess : Prop :=
  ∀ (s : State) (i : Instr) (ap addr : Addr) (a : BitVec 2) (v : Word), addr.extractLsb' 0 2 = 0 →
    i ∈ [.readAp ap addr, .writeAp ap addr v, .apR0, .apR1, .apR2, .apR3, .apW0 v, .apW1 v, .apW2 v, .apW3 v,
      .apaccR a, .apaccW a v] →
    s.st.link = .ready → s.st.dpPowered = false → exec i s = .next (s.failed i s.st.selectCache .dpNotPowered)

/-- 42_dpap_commands.md R219 rows 3 to 8 with R200, R215: refused commands make no call and change nothing, in every link
state but Disconnected. That the writes of the link formats are refused as the WRITE_DP that makes the same transaction is
the model's choice (log 9). -/
def Obligations.HostRefusals : Prop :=
  ∀ (s : State) (ap addr : Addr) (v : Word), s.st.link ≠ .disconnected →
    let refused := fun (i : Instr) (r : Reason) => exec i s = .next (s.failed i s.st.selectCache (.refused r))
    refused (.setClock 0) .badClock ∧
      (addr ≠ 0x0 → addr ≠ 0x4 → addr ≠ 0x8 → addr ≠ 0xC →
        refused (.readDp addr) .badAddress ∧ refused (.writeDp addr v) .badAddress) ∧
      (addr.extractLsb' 0 2 ≠ 0 → refused (.readAp ap addr) .badAddress ∧ refused (.writeAp ap addr v) .badAddress) ∧
      refused (.writeDp 0xC v) .targetSel ∧ refused (.dpWC v) .targetSel ∧
      (v.extractLsb' 0 4 ≠ 0 →
        refused (.writeDp 0x8 v) .dpBank ∧ refused (.dpW8 v) .dpBank ∧ refused (.dpaccW .select v) .dpBank) ∧
      (v.getLsbD 0 = true → refused (.dpW4 v) .orunDetect ∧
        (s.st.proto = some .swd → refused (.writeDp 0x4 v) .orunDetect))

/-- 42_dpap_commands.md R219 row 2: a CONNECT word with protocol 2 or 3 is answered with BadProtocol. -/
def Obligations.BadProtocolRefused : Prop :=
  ∀ (s : State) (w : BitVec 96) (rest : List PortWord) (p : BitVec 2), s.port = .host w :: rest →
    decode (.host w) = .error (.badProtocol p) → s.st.link ≠ .disconnected →
      w.extractLsb' 0 4 = 0 ∧ w.extractLsb' 4 2 = p ∧ p ≠ 0 ∧ p ≠ 1 ∧
        step s = .next { s with port := rest, trace := s.trace ++
          [.result (.badConnect p) (.err (errorRecord ⟨0, 0, 0⟩ (.refused .badProtocol)))] }

/-- 30_encoding.md R102 (the spec's decision D3): opcodes 7 to 15, in every link state but Disconnected, which comes
first (42_dpap_commands.md R200). -/
def Obligations.ReservedOpcodesRefused : Prop :=
  ∀ (i : Instr) (s : State), i ∈ [.reservedOp7, .reservedOp8, .reservedOp9, .reservedOp10, .reservedOp11, .reservedOp12,
      .reservedOp13, .reservedOp14, .reservedOp15] →
    exec i s = .next (s.failed i s.st.selectCache
      (if s.st.link = .disconnected then .disconnected else .refused .badOpcode))

/-- The model's choice (log 6, log 7): while the link is Ready, a link request of the other protocol, and an AP link request
whose SELECT is not held, nothing or a value that is RequiredSelect of no register, are refused by the model; an AP request
only where the DP is powered, which is asked first. Requests that 42_dpap_commands.md R219 refuses (log 9) get that refusal
instead, the TARGETSEL request among them, which never stops so. -/
def Obligations.LinkRequestsNeedTheirEncoder : Prop :=
  ∀ (s : State) (v : Word) (a : BitVec 2), s.st.link = .ready →
    let stops := fun (r : Refusal) (l : List Instr) => ∀ i ∈ l, exec i s = .refused r
    let swdAp := [Instr.apR0, .apR1, .apR2, .apR3, .apW0 v, .apW1 v, .apW2 v, .apW3 v]
    let jtagAp := [Instr.apaccR a, .apaccW a v]
    (s.st.proto = some .jtag →
      stops .encoderNotSelected [.dpR0, .dpR4, .dpR8, .dpRC, .dpW0 v] ∧
      (v.getLsbD 0 = false → stops .encoderNotSelected [.dpW4 v]) ∧
      (v.extractLsb' 0 4 = 0 → stops .encoderNotSelected [.dpW8 v]) ∧
      (s.st.dpPowered = true → stops .encoderNotSelected swdAp)) ∧
    (s.st.proto = some .swd →
      stops .encoderNotSelected
        [.irAbort, .irDpacc, .irApacc, .irIdcode, .irBypass, .dpaccR a, .dpaccW .ctrlStat v, .abortW v, .idcodeR] ∧
      (v.extractLsb' 0 4 = 0 → stops .encoderNotSelected [.dpaccW .select v]) ∧
      (s.st.dpPowered = true → stops .encoderNotSelected jtagAp)) ∧
    ((∀ ap addr, s.st.selectCache ≠ some (requiredSelect ap addr)) → s.st.dpPowered = true →
      (s.st.proto = some .swd → stops .selectNotHeld swdAp) ∧ (s.st.proto = some .jtag → stops .selectNotHeld jtagAp))

/-- 60_exceptions.md R260, R261: the record of each error: its code, the command's fields, and the fields its kind
sets. -/
def Obligations.ErrorRecords : Prop :=
  ∀ (c : Ctx) (k : TimeoutKind) (n : Nat) (ack : BitVec 3) (cause : FaultCause) (cs : Option Word) (f : Bool)
    (r : Reason),
    let base := fun code : BitVec 8 => (⟨code, c.op, c.ap, c.addr, none, 0, 0, none, none, false, none⟩ : ErrorRecord)
    errorRecord c .disconnected = base 1 ∧ errorRecord c .unsupported = base 2 ∧
      errorRecord c (.timeout k n) = { base 16 with kind := some k, retries := n } ∧
      errorRecord c (.invalidAck ack) = { base 17 with ack := ack } ∧ errorRecord c .desync = base 18 ∧
      errorRecord c (.accessFault cause cs f) =
        { base 32 with cause := some cause, ctrlStat := cs, clearFailed := f } ∧
      errorRecord c .notConnected = base 48 ∧ errorRecord c .dpNotPowered = base 49 ∧
      errorRecord c (.refused r) = { base 50 with reason := some r }

/-! ## SWD: instructions to their end -/

/-- 42_dpap_commands.md R210, 40_swd_link.md R124, R129, R132, R136, R138: reads of DPIDR, RESEND and RDBUFF return the
data of their transaction and change nothing else. That a request of the SWD format runs as the command that makes the
same transaction is the model's choice, here and in the statements after it (log 5). -/
def Obligations.SwdDpReadReturnsData : Prop :=
  ∀ (i : Instr) (a : BitVec 2), (i, a) ∈ [(Instr.dpR0, 0), (.dpR8, 2), (.dpRC, 3), (.readDp 0x0, 0), (.readDp 0x8, 2),
      (.readDp 0xC, 3)] →
    ∀ (s : State) (d : Word) (t : SwdTry), Connected .swd s → t.fits s.params →
      s.meets (swdReadOkX s.params false a d t) →
        exec i s = .next ((s.after (swdReadOkX s.params false a d t)).replied i (some d))

/-- 42_dpap_commands.md R204, R211, 60_exceptions.md R263, R264: a CTRL/STAT read over SWD is a poll: with no sticky bit
it returns the value; with one it is followed by the clear, and fails. That the SWD request runs as READ_DP 0x4 does, and
what its error record names, is the model's choice (log 5, log 8). -/
def Obligations.SwdCtrlStatRead : Prop :=
  ∀ i ∈ [Instr.dpR4, .readDp 0x4], ∀ (s : State) (v : Word) (t u : SwdTry), Connected .swd s → t.fits s.params →
    u.fits s.params →
      let x := swdReadOkX s.params false 1 v t
      let y := (x.andThen pulse).andThen (swdClearX s.params v u)
      (sticky v = false → s.meets x →
        exec i s = .next (((s.after x).withBlock (s.st.observed v)).replied i (some v))) ∧
      (sticky v = true → s.meets y →
        exec i s = .next (((s.after y).withBlock (s.st.cleared v)).failed i s.st.selectCache
          (.accessFault .stickyObserved (some v) false)))

/-- 42_dpap_commands.md R212 to R214: DP writes over SWD. An ABORT write changes no block state; a CTRL/STAT write that
drops a power-up request clears dp_powered, and none sets it; a SELECT write is cached, with the event if the held value
differs. That the SWD requests run as WRITE_DP does is the model's choice (log 5). -/
def Obligations.SwdDpWrite : Prop :=
  ∀ (s : State) (v : Word) (t : SwdTry), Connected .swd s → t.fits s.params →
    let x := fun a : BitVec 2 => swdWriteOkX s.params false a v t
    (s.meets (x 0) → ∀ i ∈ [Instr.dpW0 v, .writeDp 0x0 v], exec i s = .next ((s.after (x 0)).replied i none)) ∧
    (v.getLsbD 0 = false → s.meets (x 1) → ∀ i ∈ [Instr.dpW4 v, .writeDp 0x4 v],
      exec i s = .next (((s.after (x 1)).withBlock
        { s.st with dpPowered := s.st.dpPowered && v.getLsbD 28 && v.getLsbD 30 }).replied i none)) ∧
    (v.extractLsb' 0 4 = 0 → s.meets (x 2) → ∀ i ∈ [Instr.dpW8 v, .writeDp 0x8 v],
      exec i s = .next (((s.after ((x 2).andThen (if s.st.selectCache = some v then noExchange else pulse))).withBlock
        { s.st with selectCache := some v }).replied i none))

/-- 42_dpap_commands.md R216, 20_memory.md R66: an AP read in the held bank is the posted read, its data discarded, and
the RDBUFF read, whose data is the value; no SELECT write (R76). That the four AP read requests of the SWD format run as
READ_AP does, where SELECT is held, is the model's choice (log 5, log 7). -/
def Obligations.SwdApRead : Prop :=
  ∀ (ap addr : Addr) (i : Instr), addr.extractLsb' 0 2 = 0 →
    (i, regA addr) ∈ [(Instr.apR0, 0), (.apR1, 1), (.apR2, 2), (.apR3, 3), (.readAp ap addr, regA addr)] →
    ∀ (s : State) (old d : Word) (t u : SwdTry), Connected .swd s → t.fits s.params → u.fits s.params →
      s.st.dpPowered = true → s.st.selectCache = some (requiredSelect ap addr) →
        let x := (swdReadOkX s.params true (regA addr) old t).andThen (swdReadOkX s.params false 3 d u)
        s.meets x → exec i s = .next ((s.after x).replied i (some d))

/-- 42_dpap_commands.md R217, 20_memory.md R67: an AP write in the held bank is the write and the RDBUFF flush. That the
four AP write requests of the SWD format run as WRITE_AP does, where SELECT is held, is the model's choice (log 5, log 7). -/
def Obligations.SwdApWrite : Prop :=
  ∀ (ap addr : Addr) (v : Word) (i : Instr), addr.extractLsb' 0 2 = 0 →
    (i, regA addr) ∈ [(Instr.apW0 v, 0), (.apW1 v, 1), (.apW2 v, 2), (.apW3 v, 3), (.writeAp ap addr v, regA addr)] →
    ∀ (s : State) (d : Word) (t u : SwdTry), Connected .swd s → t.fits s.params → u.fits s.params →
      s.st.dpPowered = true → s.st.selectCache = some (requiredSelect ap addr) →
        let x := (swdWriteOkX s.params true (regA addr) v t).andThen (swdReadOkX s.params false 3 d u)
        s.meets x → exec i s = .next ((s.after x).replied i none)

/-- 42_dpap_commands.md R205, 20_memory.md R70, R76: an AP access in another bank writes SELECT once, immediately before
its AP transaction, and signals it. -/
def Obligations.SwdApAccessSelectsBank : Prop :=
  ∀ (ap addr : Addr) (s : State) (v old d : Word) (t t' u : SwdTry), addr.extractLsb' 0 2 = 0 → Connected .swd s →
    t.fits s.params → t'.fits s.params → u.fits s.params → s.st.dpPowered = true →
    s.st.selectCache ≠ some (requiredSelect ap addr) →
      let sel := (swdWriteOkX s.params false 2 (requiredSelect ap addr) t).andThen pulse
      let rd := (sel.andThen (swdReadOkX s.params true (regA addr) old t')).andThen (swdReadOkX s.params false 3 d u)
      let wr := (sel.andThen (swdWriteOkX s.params true (regA addr) v t')).andThen (swdReadOkX s.params false 3 d u)
      let block := { s.st with selectCache := some (requiredSelect ap addr) }
      (s.meets rd → exec (.readAp ap addr) s =
          .next (((s.after rd).withBlock block).replied (.readAp ap addr) (some d))) ∧
        (s.meets wr → exec (.writeAp ap addr v) s =
          .next (((s.after wr).withBlock block).replied (.writeAp ap addr v) none))

/-- 42_dpap_commands.md R218, 60_exceptions.md R262 to R264: POWER_UP over SWD writes the requests and polls until both
acknowledges show; when no poll of PWR_POLLS shows them it times out. A sticky bit in a poll, a FAULT of one or a wrong
parity ends it with the clear sequence. -/
def Obligations.SwdPowerUp : Prop :=
  ∀ (s : State) (w : SwdTry) (qs : List (Word × SwdTry)) (v data : Word) (t u z : SwdTry), Connected .swd s →
    w.fits s.params → t.fits s.params → u.fits s.params → z.fits s.params →
    (∀ q ∈ qs, sticky q.1 = false ∧ powered q.1 = false ∧ SwdTry.fits q.2 s.params) →
      let before := (swdWriteOkX s.params false 1 0x50000000 w).andThen (swdPollsX s.params qs)
      let x := before.andThen (swdReadOkX s.params false 1 v t)
      let y := (x.andThen pulse).andThen (swdClearX s.params v u)
      let fails := fun (z : Exchange) (b : Block) (e : Error) => s.meets z →
        exec .powerUp s = .next (((s.after z).withBlock b).failed .powerUp s.st.selectCache e)
      (sticky v = false → powered v = true → qs.length < s.params.pwrPolls → s.meets x →
        exec .powerUp s = .next (((s.after x).withBlock (s.st.observed v)).replied .powerUp (some v))) ∧
      (sticky v = false → powered v = false → qs.length + 1 = s.params.pwrPolls →
        fails x (s.st.observed v) (.timeout .powerUp s.params.pwrPolls)) ∧
      (sticky v = true → qs.length < s.params.pwrPolls →
        fails y (s.st.cleared v) (.accessFault .stickyObserved (some v) false)) ∧
      (qs.length < s.params.pwrPolls →
        fails ((before.andThen (swdFaultX s.params false true 1 t)).andThen (swdScsX s.params v u z)) (s.st.cleared v)
          (.accessFault .ackFault (some v) false) ∧
        fails ((before.andThen (swdDataX s.params false 1 (BitVec.ofBool (!parity data) ++ data) t)).andThen
          (swdScsX s.params v u z)) (s.st.cleared v) (.accessFault .parity (some v) false))

/-- 42_dpap_commands.md R206, 10_state.md R45: CONNECT over SWD from any state but Disconnected. -/
def Obligations.SwdConnect : Prop :=
  ∀ (s : State) (junk : Wire) (id : Word) (t u w : SwdTry), s.st.link ≠ .disconnected → s.params.caps.swd = true →
    t.fits s.params → u.fits s.params → w.fits s.params →
      let x := (((pulse.andThen (lineResetX junk)).andThen (swdReadOkX s.params false 0 id t)).andThen
        (swdWriteOkX s.params false 0 0x1E u)).andThen (swdWriteOkX s.params false 2 0 w)
      s.meets x →
        exec .connectSwd s = .next (((s.after x).withBlock
          { link := .ready, proto := some .swd, selectCache := some 0, irCache := none, tap := none, dpPowered := false,
            clearPending := false, dpIdcode := some id, ctrlStatShadow := none }).replied .connectSwd (some id))

/-- 42_dpap_commands.md R209 (the spec's decision D32), with 60_exceptions.md R272, R273: SET_CLOCK in every link
state but Disconnected, whatever is pending, its two failures, and its refusal of 0. -/
def Obligations.SetClock : Prop :=
  ∀ (s : State) (hz : Word) (junk : Wire), s.st.link ≠ .disconnected →
    exec (.setClock 0) s = .next (s.failed (.setClock 0) s.st.selectCache (.refused .badClock)) ∧ (hz ≠ 0 →
    (s.meets (setClockX hz (.ok junk)) →
      exec (.setClock hz) s = .next ((s.after (setClockX hz (.ok junk))).replied (.setClock hz) none)) ∧
    (s.meets (setClockX hz .unsupported) →
      exec (.setClock hz) s = .next (((s.after ((setClockX hz .unsupported).andThen pulse)).withBlock
        s.st.unsupported).failed (.setClock hz) s.st.selectCache .unsupported)) ∧
    (s.meets (setClockX hz .disconnected) →
      exec (.setClock hz) s = .next (((s.after (setClockX hz .disconnected)).withBlock s.st.lost).failed (.setClock hz)
        s.st.selectCache .disconnected)))

/-! ## JTAG: instructions to their end -/

/-- 41_jtag_tap.md R166, R169, R174 to R178: a request for one of four IR codes scans it in and caches it; BYPASS is never
shifted, and a request for it makes no call and changes nothing. That such requests stand by themselves, and that BYPASS
answers without a value, is the model's choice (log 5, log 10, log 21). -/
def Obligations.JtagIrRequests : Prop :=
  (∀ (i : Instr) (ir : BitVec 4), (i, ir) ∈ [(Instr.irAbort, 0x8), (.irDpacc, 0xA), (.irApacc, 0xB), (.irIdcode, 0xE)] →
    ∀ (s : State) (tdo : Wire), ConnectedJtag s → s.meets (irScanX ir tdo) →
      exec i s = .next (((s.after (irScanX ir tdo)).withBlock { s.st with irCache := some ir }).replied i none)) ∧
    ∀ s : State, Connected .jtag s → exec .irBypass s = .next (s.replied .irBypass none)

/-- 41_jtag_tap.md R180, 42_dpap_commands.md R210: a DP read over JTAG, CTRL/STAT apart, returns what its RDBUFF scan
captured. That a JTAG request runs as the command that makes the same transaction is the model's choice, here and in the
statements after it (log 5). -/
def Obligations.JtagDpRead : Prop :=
  ∀ (i : Instr) (a : BitVec 2), a ≠ 1 →
    (i, a) ∈ [(Instr.dpaccR a, a), (.readDp 0x0, 0), (.readDp 0x8, 2), (.readDp 0xC, 3)] →
    ∀ (s : State) (prev d : Word) (ir : Wire) (t u : JtagTry), ConnectedJtag s → t.fits s.params → u.fits s.params →
      s.meets (jtagReadDpX s.st.irCache a prev d ir t u) →
        exec i s = .next (((s.after (jtagReadDpX s.st.irCache a prev d ir t u)).withBlock
          { s.st with irCache := some 0xA }).replied i (some d))

/-- 42_dpap_commands.md R211, 60_exceptions.md R263, R264, 41_jtag_tap.md R186: a CTRL/STAT read over JTAG is a poll; with
a sticky bit it is followed by the clear JTAG_STICKY_CLEAR chooses, and fails. That the DPACC request runs as READ_DP 0x4
does, and what its error record names, is the model's choice (log 5, log 8). -/
def Obligations.JtagCtrlStatRead : Prop :=
  ∀ i ∈ [Instr.dpaccR 1, .readDp 0x4], ∀ (s : State) (prev v prev' d' : Word) (ir ir' junk' : Wire) (out' : BitVec 35)
    (t u t' u' : JtagTry), ConnectedJtag s → t.fits s.params → u.fits s.params → t'.fits s.params → u'.fits s.params →
      let x := jtagReadDpX s.st.irCache 1 prev v ir t u
      let y := (x.andThen pulse).andThen (jtagClearX s.params v prev' d' ir' out' junk' t' u')
      (sticky v = false → s.meets x →
        exec i s = .next (((s.after x).withBlock { s.st.observed v with irCache := some 0xA }).replied i (some v))) ∧
      (sticky v = true → s.meets y →
        exec i s = .next (((s.after y).withBlock { s.st.cleared v with irCache := some (clearIr s.params) }).failed i
          s.st.selectCache (.accessFault .stickyObserved (some v) false)))

/-- 41_jtag_tap.md R172, R181, 42_dpap_commands.md R212 to R214: DP writes over JTAG: an ABORT write is one scan with no
acknowledge, the others end with the RDBUFF flush. That the JTAG requests run as WRITE_DP does is the model's choice
(log 5). -/
def Obligations.JtagDpWrite : Prop :=
  ∀ (s : State) (v prev d : Word) (ir junk : Wire) (out : BitVec 35) (t u : JtagTry), ConnectedJtag s →
    t.fits s.params → u.fits s.params →
      let ab := jtagAbortX s.st.irCache v ir out junk
      let cs := jtagWriteDpX s.st.irCache 1 v prev d ir t u
      let sel := (jtagWriteDpX s.st.irCache 2 v prev d ir t u).andThen
        (if s.st.selectCache = some v then noExchange else pulse)
      (s.meets ab → ∀ i ∈ [Instr.abortW v, .writeDp 0x0 v],
        exec i s = .next (((s.after ab).withBlock { s.st with irCache := some 0x8 }).replied i none)) ∧
      (s.meets cs → ∀ i ∈ [Instr.dpaccW .ctrlStat v, .writeDp 0x4 v],
        exec i s = .next (((s.after cs).withBlock { s.st with
          irCache := some 0xA, dpPowered := s.st.dpPowered && v.getLsbD 28 && v.getLsbD 30 }).replied i none)) ∧
      (v.extractLsb' 0 4 = 0 → s.meets sel → ∀ i ∈ [Instr.dpaccW .select v, .writeDp 0x8 v],
        exec i s = .next (((s.after sel).withBlock { s.st with
          irCache := some 0xA, selectCache := some v }).replied i none))

/-- 41_jtag_tap.md R173: the identity scan returns the shift-out; st.dp_idcode keeps what CONNECT read (10_state.md R28).
That it is a request of its own is the model's choice (log 5). -/
def Obligations.JtagIdcodeScan : Prop :=
  ∀ (s : State) (id : Word) (ir junk : Wire), ConnectedJtag s → s.meets (jtagIdcodeX s.st.irCache id ir junk) →
    exec .idcodeR s = .next (((s.after (jtagIdcodeX s.st.irCache id ir junk)).withBlock
      { s.st with irCache := some 0xE }).replied .idcodeR (some id))

/-- 41_jtag_tap.md R182, R183, R185, 42_dpap_commands.md R216, R217: AP accesses over JTAG in the held bank: the APACC
transaction, the RDBUFF scan whose capture a read returns, and the poll at the end. That the APACC requests run as READ_AP and
WRITE_AP do, where SELECT is held, is the model's choice (log 5, log 7). -/
def Obligations.JtagApAccess : Prop :=
  ∀ (ap addr : Addr) (s : State) (v prev d : Word) (irB irA : Wire) (t u : JtagTry) (q : JtagPoll),
    addr.extractLsb' 0 2 = 0 → ConnectedJtag s → t.fits s.params → u.fits s.params → q.fits s.params →
    s.st.dpPowered = true → s.st.selectCache = some (requiredSelect ap addr) → sticky q.value = false →
      let rd := (jtagApX s.st.irCache true (regA addr) 0 prev d irB irA t u).andThen q.exchange
      let wr := (jtagApX s.st.irCache false (regA addr) v prev d irB irA t u).andThen q.exchange
      let block := { s.st.observed q.value with irCache := some 0xA }
      (∀ i ∈ [Instr.apaccR (regA addr), .readAp ap addr], s.meets rd →
        exec i s = .next (((s.after rd).withBlock block).replied i (some d))) ∧
      (∀ i ∈ [Instr.apaccW (regA addr) v, .writeAp ap addr v], s.meets wr →
        exec i s = .next (((s.after wr).withBlock block).replied i none))

/-- 42_dpap_commands.md R205, 41_jtag_tap.md R184: an AP access over JTAG in another bank writes SELECT first, with no
flush, and signals it. -/
def Obligations.JtagApAccessSelectsBank : Prop :=
  ∀ (ap addr : Addr) (s : State) (v prev₀ prev d : Word) (ir₀ irB irA : Wire) (t₀ t u : JtagTry) (q : JtagPoll),
    addr.extractLsb' 0 2 = 0 → ConnectedJtag s → t₀.fits s.params → t.fits s.params → u.fits s.params →
    q.fits s.params → s.st.dpPowered = true → s.st.selectCache ≠ some (requiredSelect ap addr) →
    sticky q.value = false →
      let sel := jtagEnsureSelectX s.st.irCache (requiredSelect ap addr) prev₀ ir₀ t₀
      let rd := (sel.andThen (jtagApX (some 0xA) true (regA addr) 0 prev d irB irA t u)).andThen q.exchange
      let wr := (sel.andThen (jtagApX (some 0xA) false (regA addr) v prev d irB irA t u)).andThen q.exchange
      let block := { s.st.observed q.value with irCache := some 0xA, selectCache := some (requiredSelect ap addr) }
      (s.meets rd → exec (.readAp ap addr) s =
          .next (((s.after rd).withBlock block).replied (.readAp ap addr) (some d))) ∧
        (s.meets wr → exec (.writeAp ap addr v) s =
          .next (((s.after wr).withBlock block).replied (.writeAp ap addr v) none))

/-- 41_jtag_tap.md R185, R186, 60_exceptions.md R264, R269: a sticky bit in the poll after an AP write or read over JTAG
fails it, after the clear; a read's data is lost. That the APACC requests fail as WRITE_AP and READ_AP do, and what their error
record names, is the model's choice (log 5, log 7, log 8). -/
def Obligations.JtagApAccessReportsSticky : Prop :=
  ∀ (ap addr : Addr) (s : State) (v prev d prev' d' : Word) (irB irA ir' junk' : Wire) (out' : BitVec 35)
    (t u t' u' : JtagTry) (q : JtagPoll),
    addr.extractLsb' 0 2 = 0 → ConnectedJtag s → t.fits s.params → u.fits s.params → t'.fits s.params →
    u'.fits s.params → q.fits s.params → ApReady ap addr s → sticky q.value = true →
      let x := fun (rnw : Bool) (w : Word) => (((jtagApX s.st.irCache rnw (regA addr) w prev d irB irA t u).andThen
        q.exchange).andThen pulse).andThen (jtagClearX s.params q.value prev' d' ir' out' junk' t' u')
      let fails := fun (i : Instr) (y : Exchange) => s.meets y → exec i s = .next (((s.after y).withBlock
        { s.st.cleared q.value with irCache := some (clearIr s.params) }).failed i s.st.selectCache
          (.accessFault .stickyObserved (some q.value) false))
      (∀ i ∈ [Instr.writeAp ap addr v, .apaccW (regA addr) v], fails i (x false v)) ∧
        ∀ i ∈ [Instr.readAp ap addr, .apaccR (regA addr)], fails i (x true 0)

/-- 42_dpap_commands.md R218, 60_exceptions.md R263, R264: POWER_UP over JTAG, its timeout when no poll of PWR_POLLS shows
both acknowledges, and a sticky bit in a poll, which ends it with the clear JTAG_STICKY_CLEAR chooses. -/
def Obligations.JtagPowerUp : Prop :=
  ∀ (s : State) (prev d prev' d' : Word) (ir ir' junk' : Wire) (out' : BitVec 35) (t u t' u' : JtagTry)
    (qs : List JtagPoll) (q : JtagPoll), ConnectedJtag s → t.fits s.params → u.fits s.params → t'.fits s.params →
    u'.fits s.params → q.fits s.params →
    (∀ r ∈ qs, sticky r.value = false ∧ powered r.value = false ∧ r.fits s.params) →
      let x := ((jtagWriteDpX s.st.irCache 1 0x50000000 prev d ir t u).andThen (jtagPollsX qs)).andThen q.exchange
      let y := (x.andThen pulse).andThen (jtagClearX s.params q.value prev' d' ir' out' junk' t' u')
      let block := { s.st.observed q.value with irCache := some 0xA }
      (sticky q.value = false → powered q.value = true → qs.length < s.params.pwrPolls → s.meets x →
        exec .powerUp s = .next (((s.after x).withBlock block).replied .powerUp (some q.value))) ∧
      (sticky q.value = false → powered q.value = false → qs.length + 1 = s.params.pwrPolls → s.meets x →
        exec .powerUp s = .next (((s.after x).withBlock block).failed .powerUp s.st.selectCache
          (.timeout .powerUp s.params.pwrPolls))) ∧
      (sticky q.value = true → qs.length < s.params.pwrPolls → s.meets y →
        exec .powerUp s = .next (((s.after y).withBlock
          { s.st.cleared q.value with irCache := some (clearIr s.params) }).failed .powerUp s.st.selectCache
            (.accessFault .stickyObserved (some q.value) false)))

/-- 42_dpap_commands.md R207, 41_jtag_tap.md R165, R172, R173, R181, 10_state.md R45: CONNECT over JTAG from any state but
Disconnected. -/
def Obligations.JtagConnect : Prop :=
  ∀ (s : State) (tdo irE junkE ir8 junk8 irA : Wire) (id prev d : Word) (out : BitVec 35) (t u : JtagTry),
    s.st.link ≠ .disconnected → s.params.caps.jtag = true → t.fits s.params → u.fits s.params →
      let x := (((pulse.andThen (tapResetX tdo)).andThen (jtagIdcodeX none id irE junkE)).andThen
        (jtagAbortX (some 0xE) 0x1E ir8 out junk8)).andThen (jtagWriteDpX (some 0x8) 2 0 prev d irA t u)
      s.meets x →
        exec .connectJtag s = .next (((s.after x).withBlock
          { link := .ready, proto := some .jtag, selectCache := some 0, irCache := some 0xA, tap := some .rti,
            dpPowered := false, clearPending := false, dpIdcode := some id, ctrlStatShadow := none }).replied
              .connectJtag (some id))

/-! ## Faults, timeouts and severe errors -/

/-- 60_exceptions.md R262, R264, R270: a FAULT on the first transaction of a command, a read or a write, of the DP or of an
AP, is not retried: the SCS polls, clears what it saw, and the command fails; so does a FAULT on the SELECT write of an AP
access in another bank (42_dpap_commands.md R205). That the requests of the SWD format fail as the commands of the same
transaction do, and what their error record names, is the model's choice (log 5, log 7, log 8). -/
def Obligations.SwdFaultRunsScs : Prop :=
  ∀ (s : State) (ap addr : Addr) (v p : Word) (t u w : SwdTry), addr.extractLsb' 0 2 = 0 → Connected .swd s →
    t.fits s.params → u.fits s.params → w.fits s.params →
      let fails := fun (i : Instr) (apndp rnw : Bool) (a : BitVec 2) =>
        let x := (swdFaultX s.params apndp rnw a t).andThen (swdScsX s.params p u w)
        s.meets x → exec i s = .next (((s.after x).withBlock (s.st.cleared p)).failed i s.st.selectCache
          (.accessFault .ackFault (some p) false))
      (∀ (i : Instr) (apndp rnw : Bool) (a a' : BitVec 2) (cs sel : Word), cs.getLsbD 0 = false →
        sel.extractLsb' 0 4 = 0 → (i, apndp, rnw, a') ∈ firstSwd a ap addr cs sel v ++ requestsSwd cs sel v →
        (apndp = true → ApReady ap addr s) → fails i apndp rnw a') ∧
      (s.st.dpPowered = true → s.st.selectCache ≠ some (requiredSelect ap addr) →
        ∀ i ∈ [Instr.readAp ap addr, .writeAp ap addr v], fails i false false 2)

/-- 20_memory.md R66, R67, 42_dpap_commands.md R216, R217, 60_exceptions.md R264: a FAULT on the RDBUFF read that ends an AP
access: an AP write the target rejects fails by it in the command that made it, and so does an AP read. That the AP requests of
the SWD format fail as READ_AP and WRITE_AP do, and what their error record names, is the model's choice (log 5, log 7, log 8).
-/
def Obligations.SwdApAccessFaultsOnRdbuff : Prop :=
  ∀ (ap addr : Addr) (s : State) (i : Instr) (val old v : Word) (t f u w : SwdTry), addr.extractLsb' 0 2 = 0 →
    Connected .swd s → t.fits s.params → f.fits s.params → u.fits s.params → w.fits s.params → ApReady ap addr s →
      let fails := fun access : Exchange =>
        let x := (access.andThen (swdFaultX s.params false true 3 f)).andThen (swdScsX s.params v u w)
        s.meets x → exec i s = .next (((s.after x).withBlock (s.st.cleared v)).failed i s.st.selectCache
          (.accessFault .ackFault (some v) false))
      ((i, regA addr) ∈ [(Instr.apR0, 0), (.apR1, 1), (.apR2, 2), (.apR3, 3), (.readAp ap addr, regA addr)] →
        fails (swdReadOkX s.params true (regA addr) old t)) ∧
      ((i, regA addr) ∈ [(Instr.apW0 val, 0), (.apW1 val, 1), (.apW2 val, 2), (.apW3 val, 3),
          (.writeAp ap addr val, regA addr)] → fails (swdWriteOkX s.params true (regA addr) val t))

/-- 40_swd_link.md R124, 42_dpap_commands.md R216, 60_exceptions.md R262, R270: a read whose data parity does not match
returns no data, is not retried, and is treated as a fault: a DP read, the posted read of an AP although its data is discarded,
and the RDBUFF read that ends an AP read or an AP write. That the requests of the SWD format fail as the commands of the same
transaction do, and what their error record names, is the model's choice (log 5, log 7, log 8). -/
def Obligations.SwdParityErrorRunsScs : Prop :=
  ∀ (s : State) (i : Instr) (ap addr : Addr) (data val old v : Word) (t f u w : SwdTry), addr.extractLsb' 0 2 = 0 →
    Connected .swd s → t.fits s.params → f.fits s.params → u.fits s.params → w.fits s.params →
      let bad : BitVec 33 := BitVec.ofBool (!parity data) ++ data
      let fails := fun read : Exchange =>
        let x := read.andThen (swdScsX s.params v u w)
        s.meets x → exec i s = .next (((s.after x).withBlock (s.st.cleared v)).failed i s.st.selectCache
          (.accessFault .parity (some v) false))
      (∀ (apndp : Bool) (a a' : BitVec 2), (i, apndp, true, a') ∈ firstSwd a ap addr 0 0 0 ++ requestsSwd 0 0 0 →
        (apndp = true → ApReady ap addr s) → fails (swdDataX s.params apndp a' bad t)) ∧
      (ApReady ap addr s →
        ((i, regA addr) ∈ [(Instr.apR0, 0), (.apR1, 1), (.apR2, 2), (.apR3, 3), (.readAp ap addr, regA addr)] →
          fails ((swdReadOkX s.params true (regA addr) old t).andThen (swdDataX s.params false 3 bad f))) ∧
        ((i, regA addr) ∈ [(Instr.apW0 val, 0), (.apW1 val, 1), (.apW2 val, 2), (.apW3 val, 3),
            (.writeAp ap addr val, regA addr)] →
          fails ((swdWriteOkX s.params true (regA addr) val t).andThen (swdDataX s.params false 3 bad f))))

/-- 60_exceptions.md R264, R265, R276, R284: what fails inside the SCS of a READ_DP starts no other SCS. A FAULT, a wrong
parity or a WAIT timeout, of the poll or of the clear write, makes the clear fail, and it is pending; an undecodable
acknowledge or a transport error at the first call ends the command in its own way instead. Over SWD after a FAULT; over JTAG
after a sticky bit in CTRL/STAT, with the clear JTAG_STICKY_CLEAR chooses (41_jtag_tap.md R172, R186). -/
def Obligations.ClearSequenceFailures : Prop :=
  ∀ (s : State) (a : BitVec 2) (addr : Addr) (v data : Word) (k : BitVec 3), addr = 0#4 ++ a ++ 0#2 →
    let i := Instr.readDp addr
    let pending := fun (x : Exchange) (b : Block) (cause : FaultCause) (polled : Option Word) => s.meets x →
      exec i s = .next (((s.after x).withBlock { b with selectCache := none, clearPending := true }).failed i
        s.st.selectCache (.accessFault cause polled true))
    let ends := fun (before : Exchange) (b : Block) (y : Severe) => s.meets (before.andThen y.exchange) →
      exec i s = .next (((s.after (before.andThen y.exchange)).withBlock (y.block b)).failed i s.st.selectCache y.error)
    (∀ (t u w : SwdTry) (js : List SwdJunk), Connected .swd s → t.fits s.params → u.fits s.params → w.fits s.params →
      js.length = s.params.waitRetries + 1 →
      let head := (swdFaultX s.params false true a t).andThen pulse
      let polled := head.andThen (swdReadOkX s.params false 1 v u)
      (∀ y ∈ swdPollFails s.params data w js, pending (head.andThen y) s.st .ackFault none) ∧
      (sticky v = true → ∀ y ∈ swdClearFails s.params w js, pending (polled.andThen y) (s.st.observed v) .ackFault (some v)) ∧
      (k ∈ [0b000, 0b011, 0b101, 0b110, 0b111] →
        (∀ y ∈ swdSevere s.params true 1 k w, ends head s.st y) ∧
        (sticky v = true → ∀ y ∈ swdSevere s.params false 0 k w, ends polled (s.st.observed v) y))) ∧
    ∀ (prev d : Word) (ir ir' : Wire) (t u w : JtagTry) (scans : List Capture), ConnectedJtag s → a = 1 →
      t.fits s.params → u.fits s.params → w.fits s.params → scans.length = s.params.waitRetries + 1 → sticky v = true →
      let polled := (jtagReadDpX s.st.irCache 1 prev v ir t u).andThen pulse
      let b := { s.st.observed v with irCache := some 0xA }
      (∀ y ∈ jtagClearFails s.params v scans, pending (polled.andThen y) b .stickyObserved (some v)) ∧
      (k ∈ [0b000, 0b011, 0b100, 0b101, 0b110, 0b111] → ∀ y ∈ jtagClearSevere s.params v d k ir' w, ends polled b y)

/-- 60_exceptions.md R266, R276, R284: while a clear is pending, a command first polls and clears what it saw, and then runs
as it does with nothing pending; over SWD, spelled out for READ_DP 0x0, READ_AP and WRITE_AP, the last two also where the poll
shows the DP not powered; over either link, for every host command the pending clear precedes. If the poll or the clear write
is answered FAULT, with a wrong parity, or WAIT to the end, the command fails and the clear stays pending, with no event; an
undecodable acknowledge or a transport error at the first call ends the command in its own way instead. That two SWD requests
end so too, and what their error record names, is the model's choice (log 5, log 8). -/
def Obligations.PendingClearRunsFirst : Prop :=
  ∀ (s : State) (ap addr : Addr) (v d data val : Word) (k : BitVec 3), s.st.link = .ready → s.st.clearPending = true →
    let runs := fun i : Instr => refusalOf s.st.proto i = none ∧ (i ∈ [.readDp addr, .writeDp addr val, .powerUp] ∨
      s.st.dpPowered = true ∧ i ∈ [.readAp ap addr, .writeAp ap addr val] ∨ s.st.proto = some .swd ∧ i ∈ [.dpR0, .dpRC])
    let goesOn := fun (x : Exchange) (ir : Option (BitVec 4)) =>
      let s' := (s.after x).withBlock { s.st.observed v with clearPending := false, irCache := ir }
      ∀ i, runs i → (powered v = true ∨ i ∉ [.readAp ap addr, .writeAp ap addr val]) → exec i s = exec i s'
    let fails := fun (x : Exchange) (b : Block) (cs : Option Word) => s.meets x → ∀ i, runs i →
      exec i s = .next (((s.after x).withBlock b).failed i s.st.selectCache (.accessFault .pendingClear cs true))
    let ends := fun (before : Exchange) (b : Block) (y : Severe) => s.meets (before.andThen y.exchange) → ∀ i, runs i →
      exec i s = .next (((s.after (before.andThen y.exchange)).withBlock (y.block b)).failed i s.st.selectCache y.error)
    (∀ (t u w : SwdTry) (js : List SwdJunk), s.st.proto = some .swd → t.fits s.params → u.fits s.params →
      w.fits s.params → js.length = s.params.waitRetries + 1 →
      let poll := swdReadOkX s.params false 1 v t
      let c := poll.andThen (swdClearX s.params v u)
      let x := c.andThen (swdReadOkX s.params false 0 d w)
      let block := { s.st.observed v with clearPending := false }
      (s.meets x → exec (.readDp 0x0) s = .next (((s.after x).withBlock block).replied (.readDp 0x0) (some d))) ∧
      (s.meets c → goesOn c s.st.irCache) ∧
      (∀ (old : Word) (w' u' : SwdTry), addr.extractLsb' 0 2 = 0 → s.st.selectCache = none →
        s.st.dpPowered = true → w'.fits s.params → u'.fits s.params →
          let sel := (c.andThen (swdWriteOkX s.params false 2 (requiredSelect ap addr) w)).andThen pulse
          let rd := (sel.andThen (swdReadOkX s.params true (regA addr) old w')).andThen (swdReadOkX s.params false 3 d u')
          let wr := (sel.andThen (swdWriteOkX s.params true (regA addr) val w')).andThen
            (swdReadOkX s.params false 3 d u')
          let block' := { block with selectCache := some (requiredSelect ap addr) }
          (s.meets rd → exec (.readAp ap addr) s =
              .next (((s.after rd).withBlock block').replied (.readAp ap addr) (some d))) ∧
            (s.meets wr → exec (.writeAp ap addr val) s =
              .next (((s.after wr).withBlock block').replied (.writeAp ap addr val) none))) ∧
      (∀ y ∈ swdPollFails s.params data w js, fails y s.st none) ∧
      (sticky v = true → ∀ y ∈ swdClearFails s.params w js, fails (poll.andThen y) (s.st.observed v) (some v)) ∧
      (k ∈ [0b000, 0b011, 0b101, 0b110, 0b111] →
        (∀ y ∈ swdSevere s.params true 1 k w, ends noExchange s.st y) ∧
        (sticky v = true → ∀ y ∈ swdSevere s.params false 0 k w, ends poll (s.st.observed v) y))) ∧
    ∀ (prev prev' d' : Word) (ir ir' junk' : Wire) (out' : BitVec 35) (t u t' u' : JtagTry) (scans : List Capture),
      s.st.proto = some .jtag → s.st.tap = some .rti → t.fits s.params → u.fits s.params → t'.fits s.params →
      u'.fits s.params → scans.length = s.params.waitRetries + 1 →
        let poll := jtagReadDpX s.st.irCache 1 prev v ir t u
        let c := poll.andThen (jtagMaybeClearX s.params v prev' d' ir' out' junk' t' u')
        let b := { s.st.observed v with irCache := some 0xA }
        (s.meets c → goesOn c (some (if sticky v then clearIr s.params else 0xA))) ∧
        (s.st.irCache = some 0xA → fails (xpaccWaitsX true 1 0 scans) s.st none) ∧
        (sticky v = true → ∀ y ∈ jtagClearFails s.params v scans, fails (poll.andThen y) b (some v)) ∧
        (k ∈ [0b000, 0b011, 0b100, 0b101, 0b110, 0b111] →
          (s.st.irCache = some 0xA → ∀ y ∈ jtagSevere true 1 0 d' k t', ends noExchange s.st y) ∧
          (sticky v = true → ∀ y ∈ jtagClearSevere s.params v d' k ir' t', ends poll b y))

/-- 40_swd_link.md R129, 41_jtag_tap.md R170, 60_exceptions.md R271: WAIT_RETRIES retries of a host command's first
transaction all answered WAIT, a read or a write, of the DP or of an AP: the SELECT cache is dropped, the event emitted, and
nothing else changes. -/
def Obligations.WaitTimeouts : Prop :=
  ∀ (s : State) (i : Instr) (rnw : Bool) (a a' : BitVec 2) (ap addr : Addr) (cs sel v : Word),
    addr.extractLsb' 0 2 = 0 → cs.getLsbD 0 = false → sel.extractLsb' 0 4 = 0 →
      let fails := fun x : Exchange => s.meets x → exec i s = .next (((s.after x).withBlock
        { s.st with selectCache := none }).failed i s.st.selectCache (.timeout .wait s.params.waitRetries))
      (∀ (apndp : Bool) (js : List SwdJunk), (i, apndp, rnw, a') ∈ firstSwd a ap addr cs sel v → Connected .swd s →
        (apndp = true → ApReady ap addr s) → js.length = s.params.waitRetries + 1 →
          fails ((swdWaitsX s.params apndp rnw a' js).andThen pulse)) ∧
        ∀ (ir : BitVec 4) (data : Word) (scans : List Capture), (i, ir, rnw, a', data) ∈ firstJtag a ap addr sel v →
          ConnectedJtag s → s.st.irCache = some ir → (ir = 0xB → ApReady ap addr s) →
          scans.length = s.params.waitRetries + 1 → fails ((xpaccWaitsX rnw a' data scans).andThen pulse)

/-- 30_encoding.md R84, R90, 40_swd_link.md R127, 60_exceptions.md R274: an undecodable acknowledge of a host command's
first transaction, a read or a write, of the DP or of an AP, desynchronises the link: nothing more is sent, and the TAP
stays known. -/
def Obligations.InvalidAckDesyncs : Prop :=
  ∀ (s : State) (i : Instr) (rnw : Bool) (a a' : BitVec 2) (ap addr : Addr) (cs sel v : Word) (k : BitVec 3),
    addr.extractLsb' 0 2 = 0 → cs.getLsbD 0 = false → sel.extractLsb' 0 4 = 0 →
      let fails := fun x : Exchange => s.meets x → exec i s = .next (((s.after x).withBlock s.st.desynced).failed i
        s.st.selectCache (.invalidAck k))
      (∀ (apndp : Bool) (t : SwdTry), (i, apndp, rnw, a') ∈ firstSwd a ap addr cs sel v → Connected .swd s →
        (apndp = true → ApReady ap addr s) → t.fits s.params → k ∈ [0b000, 0b011, 0b101, 0b110, 0b111] →
          fails ((swdInvalidX s.params apndp rnw a' k t).andThen pulse)) ∧
        ∀ (ir : BitVec 4) (data d : Word) (t : JtagTry), (i, ir, rnw, a', data) ∈ firstJtag a ap addr sel v →
          ConnectedJtag s → s.st.irCache = some ir → (ir = 0xB → ApReady ap addr s) → t.fits s.params →
          k ∈ [0b000, 0b011, 0b100, 0b101, 0b110, 0b111] →
            fails ((xpaccInvalidX rnw a' data d k t).andThen pulse)

/-- 00_scope.md R15, 60_exceptions.md R272, R273: a transport error at the first call of a DP read ends the command at
once, over either link. -/
def Obligations.TransportErrorsEndTheSession : Prop :=
  ∀ (s : State) (a : BitVec 2) (addr : Addr), addr = 0#4 ++ a ++ 0#2 →
    let ended := fun (lost : Answer) (x : Exchange) =>
      (lost = .disconnected → s.meets x → exec (.readDp addr) s = .next (((s.after x).withBlock s.st.lost).failed
        (.readDp addr) s.st.selectCache .disconnected)) ∧
      (lost = .unsupported → s.meets x → exec (.readDp addr) s = .next (((s.after (x.andThen pulse)).withBlock
        s.st.unsupported).failed (.readDp addr) s.st.selectCache .unsupported))
    (Connected .swd s → ∀ lost, ended lost (swdLostX false true a lost)) ∧
      (ConnectedJtag s → s.st.irCache = some 0xA → ∀ lost, ended lost (jtagLostX true a 0 lost))

/-- 42_dpap_commands.md R208, 00_scope.md R9: a CONNECT that fails runs no SCS, emits no second event, and keeps the
protocol asked for: on Disconnected the link is Disconnected, on every other result Unconnected, and never Desync. Over SWD
every result at the DPIDR read; over JTAG the four its SELECT write can have (41_jtag_tap.md R171); on a probe without the
protocol it makes one call (that the model asks its parameters for this, whatever the transport answers, is its choice,
log 3). The IR cache on an invalid acknowledge and on Disconnected is 20_memory.md R75's (log 14). -/
def Obligations.ConnectFailures : Prop :=
  ∀ (s : State) (a : Answer), s.st.link ≠ .disconnected →
    let opened := fun (p : Protocol) (l : Link) (tap : Option TapState) (ir : Option (BitVec 4)) =>
      ({ Block.reset with proto := some p, link := l, tap := tap, irCache := ir } : Block)
    let fails := fun (i : Instr) (x : Exchange) (b : Block) (e : Error) =>
      s.meets x → exec i s = .next (((s.after x).withBlock b).failed i s.st.selectCache e)
    (s.params.caps.swd = false → s.meets ⟨[a], []⟩ →
      exec .connectSwd s = .next (((s.after ⟨[a], [.apShadowInvalidate, .resetLine .unsupported]⟩).withBlock
        (opened .swd .unconnected none none)).failed .connectSwd s.st.selectCache .unsupported)) ∧
    (s.params.caps.jtag = false → s.meets ⟨[a], []⟩ →
      exec .connectJtag s = .next (((s.after ⟨[a], [.apShadowInvalidate, .jtagSeq 6 0x1F 0 .unsupported]⟩).withBlock
        (opened .jtag .unconnected none none)).failed .connectJtag s.st.selectCache .unsupported)) ∧
    (∀ (junk : Wire) (data : Word) (k : BitVec 3) (js : List SwdJunk) (t : SwdTry), s.params.caps.swd = true →
      t.fits s.params → js.length = s.params.waitRetries + 1 → k ∈ [0b000, 0b011, 0b101, 0b110, 0b111] →
        let at_ := fun x : Exchange => (pulse.andThen (lineResetX junk)).andThen x
        let closed := opened .swd .unconnected none none
        fails .connectSwd (at_ (swdFaultX s.params false true 0 t)) closed (.accessFault .ackFault none false) ∧
        fails .connectSwd (at_ (swdDataX s.params false 0 (BitVec.ofBool (!parity data) ++ data) t)) closed
          (.accessFault .parity none false) ∧
        fails .connectSwd (at_ (swdWaitsX s.params false true 0 js)) closed (.timeout .wait s.params.waitRetries) ∧
        fails .connectSwd (at_ (swdInvalidX s.params false true 0 k t)) closed (.invalidAck k) ∧
        fails .connectSwd (at_ (swdLostX false true 0 .disconnected)) (opened .swd .disconnected none none)
          .disconnected ∧
        fails .connectSwd (at_ (swdLostX false true 0 .unsupported)) closed .unsupported) ∧
    ∀ (tdo irE junkE ir8 junk8 irA : Wire) (id d : Word) (out : BitVec 35) (k : BitVec 3) (scans : List Capture)
      (t : JtagTry), s.params.caps.jtag = true → t.fits s.params → scans.length = s.params.waitRetries + 1 →
      k ∈ [0b000, 0b011, 0b100, 0b101, 0b110, 0b111] →
        let at_ := fun x : Exchange => ((((pulse.andThen (tapResetX tdo)).andThen (jtagIdcodeX none id irE junkE)).andThen
          (jtagAbortX (some 0xE) 0x1E ir8 out junk8)).andThen (irScanX 0xA irA)).andThen x
        fails .connectJtag (at_ (xpaccWaitsX false 2 0 scans)) (opened .jtag .unconnected (some .rti) (some 0xA))
          (.timeout .wait s.params.waitRetries) ∧
        fails .connectJtag (at_ (xpaccInvalidX false 2 0 d k t)) (opened .jtag .unconnected (some .rti) none)
          (.invalidAck k) ∧
        fails .connectJtag (at_ (jtagLostX false 2 0 .disconnected)) (opened .jtag .disconnected none none)
          .disconnected ∧
        fails .connectJtag (at_ (jtagLostX false 2 0 .unsupported)) (opened .jtag .unconnected none none) .unsupported

/-! ## Timing -/

/-- 70_reset_and_hazards.md R313: the clocks of the calls that commands add to the trace, for the commands of its table; each
WAIT adds one attempt. The line reset of CONNECT over SWD, whose clocks R313 leaves to the transport, is left out: the model
counts it as 0 clocks, which is its choice (log 24). -/
def Obligations.ClockCounts : Prop :=
  ∀ (s : State) (ap addr : Addr) (id v d old : Word),
    let takes := fun (i : Instr) (x : Exchange) (n : Nat) => s.meets x →
      ∃ (t : State) (l : List Obs), exec i s = .next t ∧ t.trace = s.trace ++ l ∧ clockCount l = n
    let select := requiredSelect ap addr
    let adopted := if s.st.selectCache = some v then noExchange else pulse
    addr.extractLsb' 0 2 = 0 →
    (∀ (junk : Wire) (k : BitVec 3) (t u w : SwdTry) (qs : List (Word × SwdTry)), t.fits s.params → u.fits s.params →
      w.fits s.params →
      let one := 46 + s.params.idleCycles
      let stopped := 13 + s.params.idleCycles
      let waits := fun t : SwdTry => t.waits.length * stopped
      let sel := (swdWriteOkX s.params false 2 select w).andThen pulse
      let rd := swdReadOkX s.params true (regA addr) old t
      let wr := swdWriteOkX s.params true (regA addr) v t
      let rdbuff := swdReadOkX s.params false 3 d u
      (Connected .swd s →
        takes (.readDp 0x0) (swdReadOkX s.params false 0 d t) (one + waits t) ∧
        takes (.writeDp 0x0 v) (swdWriteOkX s.params false 0 v t) (one + waits t) ∧
        (v.getLsbD 0 = false → takes (.writeDp 0x4 v) (swdWriteOkX s.params false 1 v t) (one + waits t)) ∧
        (v.extractLsb' 0 4 = 0 → takes (.writeDp 0x8 v) ((swdWriteOkX s.params false 2 v t).andThen adopted)
          (one + waits t)) ∧
        takes (.readDp 0x0) ((swdFaultX s.params false true 0 t).andThen (swdScsX s.params v u w))
          (stopped + waits t + (one + waits u) + if sticky v then one + waits w else 0) ∧
        (k ∈ [0b000, 0b011, 0b101, 0b110, 0b111] →
          takes (.readDp 0x0) ((swdInvalidX s.params false true 0 k t).andThen pulse) (12 + waits t)) ∧
        (sticky v = false → powered v = true → qs.length < s.params.pwrPolls →
          (∀ q ∈ qs, sticky q.1 = false ∧ powered q.1 = false ∧ SwdTry.fits q.2 s.params) →
          takes .powerUp (((swdWriteOkX s.params false 1 0x50000000 w).andThen (swdPollsX s.params qs)).andThen
            (swdReadOkX s.params false 1 v t)) ((qs.length + 2) * one + waits w + (qs.map fun q => waits q.2).sum + waits t)) ∧
        (ApReady ap addr s →
          takes (.readAp ap addr) (rd.andThen rdbuff) (2 * one + waits t + waits u) ∧
          takes (.writeAp ap addr v) (wr.andThen rdbuff) (2 * one + waits t + waits u)) ∧
        (s.st.dpPowered = true → s.st.selectCache ≠ some select →
          takes (.readAp ap addr) ((sel.andThen rd).andThen rdbuff) (3 * one + waits w + waits t + waits u) ∧
          takes (.writeAp ap addr v) ((sel.andThen wr).andThen rdbuff) (3 * one + waits w + waits t + waits u))) ∧
      (s.st.link ≠ .disconnected → s.params.caps.swd = true →
        takes .connectSwd ((((pulse.andThen (lineResetX junk)).andThen (swdReadOkX s.params false 0 id t)).andThen
          (swdWriteOkX s.params false 0 0x1E u)).andThen (swdWriteOkX s.params false 2 0 w))
          (3 * one + waits t + waits u + waits w))) ∧
    ∀ (ir ir' irA junk junk' : Wire) (out : BitVec 35) (t u w : JtagTry) (q : JtagPoll) (qs : List JtagPoll),
      t.fits s.params → u.fits s.params → w.fits s.params → q.fits s.params →
        let waits := 40 * (t.waits.length + u.waits.length)
        let polled := fun q : JtagPoll => 80 + 40 * (q.first.waits.length + q.last.waits.length)
        let scan := fun code : BitVec 4 => if s.st.irCache = some code then 0 else 10
        let sel := jtagEnsureSelectX s.st.irCache select old ir' w
        (ConnectedJtag s →
          takes (.readDp 0x0) (jtagReadDpX s.st.irCache 0 old d ir t u) (80 + scan 0xA + waits) ∧
          takes (.writeDp 0x4 v) (jtagWriteDpX s.st.irCache 1 v old d ir t u) (80 + scan 0xA + waits) ∧
          (v.extractLsb' 0 4 = 0 → takes (.writeDp 0x8 v) ((jtagWriteDpX s.st.irCache 2 v old d ir t u).andThen adopted)
            (80 + scan 0xA + waits)) ∧
          takes (.writeDp 0x0 v) (jtagAbortX s.st.irCache v ir out junk) (40 + scan 0x8) ∧
          (sticky q.value = false → powered q.value = true → qs.length < s.params.pwrPolls →
            (∀ r ∈ qs, sticky r.value = false ∧ powered r.value = false ∧ r.fits s.params) →
            takes .powerUp (((jtagWriteDpX s.st.irCache 1 0x50000000 old d ir t u).andThen (jtagPollsX qs)).andThen q.exchange)
              (80 + scan 0xA + waits + (qs.map polled).sum + polled q)) ∧
          (sticky q.value = false → ApReady ap addr s →
            takes (.readAp ap addr) ((jtagApX s.st.irCache true (regA addr) 0 old d ir irA t u).andThen q.exchange)
              (90 + scan 0xB + waits + polled q) ∧
            takes (.writeAp ap addr v) ((jtagApX s.st.irCache false (regA addr) v old d ir irA t u).andThen q.exchange)
              (90 + scan 0xB + waits + polled q)) ∧
          (sticky q.value = false → s.st.dpPowered = true → s.st.selectCache ≠ some select →
            takes (.readAp ap addr) ((sel.andThen (jtagApX (some 0xA) true (regA addr) 0 old d ir irA t u)).andThen q.exchange)
              (140 + scan 0xA + 40 * w.waits.length + waits + polled q) ∧
            takes (.writeAp ap addr v) ((sel.andThen (jtagApX (some 0xA) false (regA addr) v old d ir irA t u)).andThen
              q.exchange) (140 + scan 0xA + 40 * w.waits.length + waits + polled q))) ∧
        (s.st.link ≠ .disconnected → s.params.caps.jtag = true →
          takes .connectJtag ((((pulse.andThen (tapResetX junk)).andThen (jtagIdcodeX none id ir junk')).andThen
            (jtagAbortX (some 0xE) 0x1E ir' out junk)).andThen (jtagWriteDpX (some 0x8) 2 0 old d irA t u))
            (193 + waits))

end
end

