-- ==== Sys2Proof/Laws/State.lean ====
section
/-! SUPPORT. One lemma per field per update of the state, each true by rfl, so that no later proof unfolds an update. -/

namespace Sys2Proof.Machine

@[simp] theorem emit_st (o : Obs) (s : State) : (emit o s).st = s.st := rfl
@[simp] theorem emit_params (o : Obs) (s : State) : (emit o s).params = s.params := rfl
@[simp] theorem emit_port (o : Obs) (s : State) : (emit o s).port = s.port := rfl
@[simp] theorem emit_answers (o : Obs) (s : State) : (emit o s).answers = s.answers := rfl
@[simp] theorem emit_draws (o : Obs) (s : State) : (emit o s).draws = s.draws := rfl
@[simp] theorem emit_trace (o : Obs) (s : State) : (emit o s).trace = s.trace ++ [o] := rfl
@[simp] theorem emitInvalidate_st (s : State) : (emitInvalidate s).st = s.st := rfl
@[simp] theorem emitInvalidate_params (s : State) : (emitInvalidate s).params = s.params := rfl
@[simp] theorem emitInvalidate_port (s : State) : (emitInvalidate s).port = s.port := rfl
@[simp] theorem emitInvalidate_answers (s : State) : (emitInvalidate s).answers = s.answers := rfl
@[simp] theorem emitInvalidate_draws (s : State) : (emitInvalidate s).draws = s.draws := rfl
@[simp] theorem emitInvalidate_trace (s : State) : (emitInvalidate s).trace = s.trace ++ [.apShadowInvalidate] := rfl
@[simp] theorem setTap_st (x : Option TapState) (s : State) : (setTap x s).st = { s.st with tap := x } := rfl
@[simp] theorem setTap_params (x : Option TapState) (s : State) : (setTap x s).params = s.params := rfl
@[simp] theorem setTap_port (x : Option TapState) (s : State) : (setTap x s).port = s.port := rfl
@[simp] theorem setTap_answers (x : Option TapState) (s : State) : (setTap x s).answers = s.answers := rfl
@[simp] theorem setTap_draws (x : Option TapState) (s : State) : (setTap x s).draws = s.draws := rfl
@[simp] theorem setTap_trace (x : Option TapState) (s : State) : (setTap x s).trace = s.trace := rfl
@[simp] theorem setSelect_st (x : Option Word) (s : State) : (setSelect x s).st = { s.st with selectCache := x } := rfl
@[simp] theorem setSelect_params (x : Option Word) (s : State) : (setSelect x s).params = s.params := rfl
@[simp] theorem setSelect_port (x : Option Word) (s : State) : (setSelect x s).port = s.port := rfl
@[simp] theorem setSelect_answers (x : Option Word) (s : State) : (setSelect x s).answers = s.answers := rfl
@[simp] theorem setSelect_draws (x : Option Word) (s : State) : (setSelect x s).draws = s.draws := rfl
@[simp] theorem setSelect_trace (x : Option Word) (s : State) : (setSelect x s).trace = s.trace := rfl
@[simp] theorem setIr_st (x : Option (BitVec 4)) (s : State) : (setIr x s).st = { s.st with irCache := x } := rfl
@[simp] theorem setIr_params (x : Option (BitVec 4)) (s : State) : (setIr x s).params = s.params := rfl
@[simp] theorem setIr_port (x : Option (BitVec 4)) (s : State) : (setIr x s).port = s.port := rfl
@[simp] theorem setIr_answers (x : Option (BitVec 4)) (s : State) : (setIr x s).answers = s.answers := rfl
@[simp] theorem setIr_draws (x : Option (BitVec 4)) (s : State) : (setIr x s).draws = s.draws := rfl
@[simp] theorem setIr_trace (x : Option (BitVec 4)) (s : State) : (setIr x s).trace = s.trace := rfl
@[simp] theorem setLink_st (x : Link) (s : State) : (setLink x s).st = { s.st with link := x } := rfl
@[simp] theorem setLink_params (x : Link) (s : State) : (setLink x s).params = s.params := rfl
@[simp] theorem setLink_port (x : Link) (s : State) : (setLink x s).port = s.port := rfl
@[simp] theorem setLink_answers (x : Link) (s : State) : (setLink x s).answers = s.answers := rfl
@[simp] theorem setLink_draws (x : Link) (s : State) : (setLink x s).draws = s.draws := rfl
@[simp] theorem setLink_trace (x : Link) (s : State) : (setLink x s).trace = s.trace := rfl
@[simp] theorem setPending_st (x : Bool) (s : State) : (setPending x s).st = { s.st with clearPending := x } := rfl
@[simp] theorem setPending_params (x : Bool) (s : State) : (setPending x s).params = s.params := rfl
@[simp] theorem setPending_port (x : Bool) (s : State) : (setPending x s).port = s.port := rfl
@[simp] theorem setPending_answers (x : Bool) (s : State) : (setPending x s).answers = s.answers := rfl
@[simp] theorem setPending_draws (x : Bool) (s : State) : (setPending x s).draws = s.draws := rfl
@[simp] theorem setPending_trace (x : Bool) (s : State) : (setPending x s).trace = s.trace := rfl
@[simp] theorem setPowered_st (x : Bool) (s : State) : (setPowered x s).st = { s.st with dpPowered := x } := rfl
@[simp] theorem setPowered_params (x : Bool) (s : State) : (setPowered x s).params = s.params := rfl
@[simp] theorem setPowered_port (x : Bool) (s : State) : (setPowered x s).port = s.port := rfl
@[simp] theorem setPowered_answers (x : Bool) (s : State) : (setPowered x s).answers = s.answers := rfl
@[simp] theorem setPowered_draws (x : Bool) (s : State) : (setPowered x s).draws = s.draws := rfl
@[simp] theorem setPowered_trace (x : Bool) (s : State) : (setPowered x s).trace = s.trace := rfl
@[simp] theorem observeCtrlStat_st (x : Word) (s : State) : (observeCtrlStat x s).st = { s.st with ctrlStatShadow := some x, dpPowered := powered x } := rfl
@[simp] theorem observeCtrlStat_params (x : Word) (s : State) : (observeCtrlStat x s).params = s.params := rfl
@[simp] theorem observeCtrlStat_port (x : Word) (s : State) : (observeCtrlStat x s).port = s.port := rfl
@[simp] theorem observeCtrlStat_answers (x : Word) (s : State) : (observeCtrlStat x s).answers = s.answers := rfl
@[simp] theorem observeCtrlStat_draws (x : Word) (s : State) : (observeCtrlStat x s).draws = s.draws := rfl
@[simp] theorem observeCtrlStat_trace (x : Word) (s : State) : (observeCtrlStat x s).trace = s.trace := rfl
@[simp] theorem connectDone_st (x : Word) (s : State) : (connectDone x s).st = { s.st with link := .ready, selectCache := some 0, dpIdcode := some x } := rfl
@[simp] theorem connectDone_params (x : Word) (s : State) : (connectDone x s).params = s.params := rfl
@[simp] theorem connectDone_port (x : Word) (s : State) : (connectDone x s).port = s.port := rfl
@[simp] theorem connectDone_answers (x : Word) (s : State) : (connectDone x s).answers = s.answers := rfl
@[simp] theorem connectDone_draws (x : Word) (s : State) : (connectDone x s).draws = s.draws := rfl
@[simp] theorem connectDone_trace (x : Word) (s : State) : (connectDone x s).trace = s.trace := rfl

@[simp] theorem connectStart_st (p : Protocol) (s : State) :
    (connectStart p s).st = { Block.reset with proto := some p } := rfl
@[simp] theorem connectStart_params (p : Protocol) (s : State) : (connectStart p s).params = s.params := rfl
@[simp] theorem connectStart_port (p : Protocol) (s : State) : (connectStart p s).port = s.port := rfl
@[simp] theorem connectStart_answers (p : Protocol) (s : State) : (connectStart p s).answers = s.answers := rfl
@[simp] theorem connectStart_draws (p : Protocol) (s : State) : (connectStart p s).draws = s.draws := rfl
@[simp] theorem connectStart_trace (p : Protocol) (s : State) :
    (connectStart p s).trace = s.trace ++ [.apShadowInvalidate] := rfl

@[simp] theorem adoptSelect_st (v : Word) (s : State) : (adoptSelect v s).st = { s.st with selectCache := some v } := by
  unfold adoptSelect; split <;> rfl
@[simp] theorem adoptSelect_params (v : Word) (s : State) : (adoptSelect v s).params = s.params := by
  unfold adoptSelect; split <;> rfl
@[simp] theorem adoptSelect_port (v : Word) (s : State) : (adoptSelect v s).port = s.port := by
  unfold adoptSelect; split <;> rfl
@[simp] theorem adoptSelect_answers (v : Word) (s : State) : (adoptSelect v s).answers = s.answers := by
  unfold adoptSelect; split <;> rfl
@[simp] theorem adoptSelect_draws (v : Word) (s : State) : (adoptSelect v s).draws = s.draws := by
  unfold adoptSelect; split <;> rfl
theorem adoptSelect_trace (v : Word) (s : State) :
    (adoptSelect v s).trace = if s.st.selectCache = some v then s.trace else s.trace ++ [.apShadowInvalidate] := by
  unfold adoptSelect; split <;> rfl

/-! ## Runs -/

@[simp] theorem Run.bind_ok {ε α β : Type} (a : α) (s : State) (f : α → State → Run ε β) :
    (Run.ok a s).bind f = f a s := rfl
@[simp] theorem Run.bind_stop {ε α β : Type} (e : ε) (s : State) (f : α → State → Run ε β) :
    (Run.stop e s).bind f = .stop e s := rfl
@[simp] theorem Run.state_ok {ε α : Type} (a : α) (s : State) : (Run.ok a s : Run ε α).state = s := rfl
@[simp] theorem Run.state_stop {ε α : Type} (e : ε) (s : State) : (Run.stop e s : Run ε α).state = s := rfl

end Sys2Proof.Machine
end

