-- ==== Sys2Proof/Laws/Link.lean ====
section
/-! SUPPORT. What each link operation can do, said once: the calls it makes, and what it leaves of the block state. -/

namespace Sys2Proof.Machine

/-! ## The observations a command makes before its result -/

/-- A data phase and the request it follows: a SELECT write has bits [3:0] = 0 and a CTRL/STAT write over SWD has ORUNDETECT = 0
(30_encoding.md R94). -/
def PairOk (q : BitVec 33 × BitVec 33) : Prop :=
  (q.1 = 0xB1 → q.2.extractLsb' 0 4 = 0) ∧ (q.1 = 0xA9 → q.2.getLsbD 0 = false)

/-- A DPACC or APACC shift-in that writes A[3:2] = 2 has bits [3:0] of its data 0, or is the word `own`: what an AP write is
given to write (30_encoding.md R94). -/
def XpaccOk (own : Word) (rnw : Bool) (a : BitVec 2) (data : Word) : Prop :=
  rnw = false → a = 2 → data.extractLsb' 0 4 = 0 ∨ data = own

/-- As `XpaccOk`, of the 35 bits. -/
def ScanOk (own : Word) (din : BitVec 35) : Prop :=
  din.extractLsb' 0 3 = 0b100 → din.extractLsb' 3 4 = 0 ∨ din.extractLsb' 3 32 = own

/-- The calls and pulses a command's transactions consist of (30_encoding.md R83, R93, R94; `own`: the word the command is
given to write to an AP register, 0 if none). -/
def PlainObs (own : Word) : Obs → Prop
  | .sendBits n v _ =>
    (n = 8 ∧ ∃ apndp rnw a, v = (swdRequest apndp rnw a).setWidth 33 ∧ ¬(apndp = false ∧ rnw = false ∧ a = 3)) ∨
      (n = 33 ∧ ∃ d, v = swdData d) ∨ v = 0
  | .recvBits n _ => n = 1 ∨ n = 3 ∨ n = 33
  | .resetLine _ => True
  | .setClock _ _ => True
  | .jtagSeq n tms tdi _ =>
    (n = 6 ∧ tms = 0x1F ∧ tdi = 0) ∨
      (n = 10 ∧ tms = 0x183 ∧ ∃ ir : BitVec 4, tdi = ir.setWidth 40 <<< 4 ∧
        (ir = 0x8 ∨ ir = 0xA ∨ ir = 0xB ∨ ir = 0xE)) ∨
      (n = 40 ∧ tms = 0x6000000001 ∧ ∃ din : BitVec 35, tdi = din.setWidth 40 <<< 3 ∧ ScanOk own din) ∨
      (n = 37 ∧ tms = 0xC00000001 ∧ tdi = 0)
  | .apShadowInvalidate => True
  | .result _ _ => False

/-- A part of the trace that a command may make: plain observations, and SWD data phases that fit their requests. -/
structure Clean (own : Word) (l : List Obs) : Prop where
  plain : ∀ o ∈ l, PlainObs own o
  pairs : ∀ request, ∀ q ∈ dataWords request l, PairOk q

/-- What every computation of the block leaves alone, and how it adds to the trace: a clean part, with at most n calls. -/
structure Grows (own : Word) (n : Nat) (s t : State) : Prop where
  params : t.params = s.params
  port : t.port = s.port
  trace : ∃ l, t.trace = s.trace ++ l ∧ Clean own l ∧ callCount l ≤ n

theorem dataWords_append (l m : List Obs) :
    ∀ request, ∃ request', dataWords request (l ++ m) = dataWords request l ++ dataWords request' m := by
  induction l with
  | nil => exact fun request => ⟨request, rfl⟩
  | cons o l ih =>
    intro request
    cases o with
    | sendBits n v c =>
      simp only [List.cons_append, dataWords]
      split
      · exact ih v
      · obtain ⟨r, e⟩ := ih request
        split <;> exact ⟨r, by simp [e]⟩
    | _ => exact ih request

theorem Clean.nil (own : Word) : Clean own [] := ⟨by simp, by simp [dataWords]⟩

theorem Clean.append {own : Word} {l m : List Obs} (h : Clean own l) (k : Clean own m) : Clean own (l ++ m) := by
  refine ⟨fun o ho => (List.mem_append.mp ho).elim (h.plain o) (k.plain o), fun request q hq => ?_⟩
  obtain ⟨r, e⟩ := dataWords_append l m request
  rw [e] at hq
  exact (List.mem_append.mp hq).elim (h.pairs request q) (k.pairs r q)

/-- An observation that sends nothing. -/
theorem Clean.single {own : Word} {o : Obs} (h : PlainObs own o) (hq : ∀ request, dataWords request [o] = []) :
    Clean own [o] :=
  ⟨fun o' ho => by rw [List.mem_singleton.mp ho]; exact h, fun request q hm => by rw [hq] at hm; cases hm⟩

theorem Grows.refl (own : Word) (n : Nat) (s : State) : Grows own n s s :=
  ⟨rfl, rfl, [], by simp, .nil own, by simp [callCount]⟩

theorem callCount_append (l m : List Obs) : callCount (l ++ m) = callCount l + callCount m := by simp [callCount]

theorem Grows.trans {own : Word} {n m : Nat} {s t u : State} (h : Grows own n s t) (k : Grows own m t u) :
    Grows own (n + m) s u := by
  obtain ⟨hp, hq, l, hl, hP, hn⟩ := h
  obtain ⟨kp, kq, r, hr, kP, kn⟩ := k
  exact ⟨kp.trans hp, kq.trans hq, l ++ r, by rw [hr, hl, List.append_assoc], hP.append kP, by rw [callCount_append]; omega⟩

theorem Grows.le {own : Word} {n m : Nat} {s t : State} (h : Grows own n s t) (hn : n ≤ m) : Grows own m s t :=
  ⟨h.params, h.port, h.trace.imp fun _ hl => ⟨hl.1, hl.2.1, hl.2.2.trans hn⟩⟩

/-- A state that differs from t in its block state, answers or draws only grows as t does. -/
theorem Grows.of_eq {own : Word} {n : Nat} {s t u : State} (h : Grows own n s t) (hp : u.params = t.params)
    (hq : u.port = t.port) (ht : u.trace = t.trace) : Grows own n s u :=
  ⟨hp.trans h.params, hq.trans h.port, ht ▸ h.trace⟩

theorem Grows.emit {own : Word} {n : Nat} {s t : State} {o : Obs} (h : Grows own n s t) (ho : PlainObs own o)
    (hq : ∀ request, dataWords request [o] = []) : Grows own (n + 1) s (emit o t) :=
  h.trans ⟨rfl, rfl, [o], rfl, .single ho hq, List.length_filter_le _ _⟩

/-- The event is no call. -/
theorem Grows.emitInvalidate {own : Word} {n : Nat} {s t : State} (h : Grows own n s t) :
    Grows own n s (emitInvalidate t) :=
  h.trans (m := 0) ⟨rfl, rfl, [.apShadowInvalidate], rfl, .single trivial fun _ => rfl, by decide⟩

theorem ScanOk.mono {din : BitVec 35} (h : ScanOk 0 din) (own : Word) : ScanOk own din := fun hw => .inl (by
  rcases h hw with h | h
  · exact h
  · have e : din.extractLsb' 3 4 = (din.extractLsb' 3 32).extractLsb' 0 4 := by
      apply BitVec.eq_of_getLsbD_eq
      intro i hi
      simp only [BitVec.getLsbD_extractLsb', hi, decide_true, Bool.true_and, Nat.zero_add]
      simp [show i < 32 by omega]
    rw [e, h]; rfl)

theorem PlainObs.mono {o : Obs} (h : PlainObs 0 o) (own : Word) : PlainObs own o := by
  cases o with
  | jtagSeq n tms tdi a =>
    rcases h with h | h | ⟨hn, ht, din, hd, h⟩ | h
    · exact .inl h
    · exact .inr (.inl h)
    · exact .inr (.inr (.inl ⟨hn, ht, din, hd, h.mono own⟩))
    · exact .inr (.inr (.inr h))
  | _ => exact h

theorem Grows.mono {n : Nat} {s t : State} (h : Grows 0 n s t) (own : Word) : Grows own n s t :=
  ⟨h.params, h.port, h.trace.imp fun _ hl => ⟨hl.1, ⟨fun o ho => (hl.2.1.plain o ho).mono own, hl.2.1.pairs⟩, hl.2.2⟩⟩

/-! ## Transport calls -/

theorem nextAnswer_st (s : State) : (nextAnswer s).2.st = s.st := by unfold nextAnswer; split <;> rfl
theorem nextAnswer_grows (own : Word) (s : State) : Grows own 0 s (nextAnswer s).2 := by
  unfold nextAnswer; split <;> exact (Grows.refl own 0 s).of_eq rfl rfl rfl

/-- A transport call draws one answer and records one observation; it leaves the block state alone. -/
theorem transportCall_adds (c : Bool) (record : Answer → Obs) (s : State) :
    (transportCall c record s).state.params = s.params ∧ (transportCall c record s).state.port = s.port ∧
      (transportCall c record s).state.st = s.st ∧
      (∃ a, (transportCall c record s).state.trace = s.trace ++ [record a]) ∧
      ∀ e t, transportCall c record s = .stop e t → e = .disconnected ∨ e = .unsupported := by
  have h := nextAnswer_grows 0 s
  have ht : (nextAnswer s).2.trace = s.trace := by unfold nextAnswer; split <;> rfl
  unfold transportCall
  split <;> refine ⟨h.params, h.port, nextAnswer_st s, ⟨_, congrArg (· ++ [_]) ht⟩, ?_⟩ <;> intro e t h <;> cases h <;> simp

/-- A call that sends no SWD word. -/
theorem transportCall_ends (own : Word) (c : Bool) (record : Answer → Obs) (s : State)
    (hP : ∀ a, PlainObs own (record a)) (hq : ∀ a request, dataWords request [record a] = []) :
    Grows own 1 s (transportCall c record s).state ∧ (transportCall c record s).state.st = s.st ∧
      ∀ e t, transportCall c record s = .stop e t → e = .disconnected ∨ e = .unsupported := by
  obtain ⟨hp, ho, hs, ⟨a, ha⟩, he⟩ := transportCall_adds c record s
  exact ⟨⟨hp, ho, [record a], ha, .single (hP a) (hq a), List.length_filter_le _ _⟩, hs, he⟩

/-- How a link operation of at most n calls ends: its calls are plain, the block state changes in the TAP and IR fields
only, and a TAP in Run-Test/Idle is there again at the end, unless a transport error left it unknown. -/
structure LinkEnds {α : Type} (own : Word) (n : Nat) (s : State) (r : Run LinkFail α) : Prop where
  grows : Grows own n s r.state
  block : ∃ tap ir, r.state.st = { s.st with tap := tap, irCache := ir }
  idle : s.st.tap = some .rti →
    (∃ t, r = .stop .disconnected t) ∨ (∃ t, r = .stop .unsupported t) ∨ r.state.st.tap = some .rti

/-- A link operation of the SWD encoder leaves the whole block state alone. -/
structure SwdEnds {α : Type} (n : Nat) (s : State) (r : Run LinkFail α) : Prop where
  grows : Grows 0 n s r.state
  block : r.state.st = s.st

theorem SwdEnds.le {α : Type} {n m : Nat} {s : State} {r : Run LinkFail α} (h : SwdEnds n s r) (hn : n ≤ m) :
    SwdEnds m s r := ⟨h.grows.le hn, h.block⟩

theorem LinkEnds.le {α : Type} {own : Word} {n m : Nat} {s : State} {r : Run LinkFail α} (h : LinkEnds own n s r)
    (hn : n ≤ m) : LinkEnds own m s r := ⟨h.grows.le hn, h.block, h.idle⟩

theorem SwdEnds.bind {α β : Type} {n m : Nat} {s : State} {r : Run LinkFail α} {f : α → State → Run LinkFail β}
    (h : SwdEnds n s r) (k : ∀ a t, t.params = s.params → SwdEnds m t (f a t)) : SwdEnds (n + m) s (r.bind f) := by
  cases r with
  | ok a t =>
    have kt := k a t h.grows.params
    exact ⟨h.grows.trans kt.grows, kt.block.trans h.block⟩
  | stop e t => exact ⟨h.grows.le (Nat.le_add_right n m), h.block⟩

theorem SwdEnds.ok {α : Type} (a : α) (s : State) : SwdEnds 0 s (Run.ok a s) := ⟨Grows.refl _ _ s, rfl⟩
theorem SwdEnds.stop {α : Type} (e : LinkFail) (s : State) : SwdEnds 0 s (Run.stop e s : Run LinkFail α) :=
  ⟨Grows.refl _ _ s, rfl⟩

theorem LinkEnds.bind {α β : Type} {own : Word} {n m : Nat} {s : State} {r : Run LinkFail α}
    {f : α → State → Run LinkFail β} (h : LinkEnds own n s r)
    (k : ∀ a t, t.params = s.params → LinkEnds own m t (f a t)) : LinkEnds own (n + m) s (r.bind f) := by
  cases r with
  | stop e t => exact ⟨h.grows.le (Nat.le_add_right n m), h.block, fun hs => by simpa using h.idle hs⟩
  | ok a t =>
    obtain ⟨g, ⟨tap, ir, hb⟩, hi⟩ := h
    obtain ⟨g', ⟨tap', ir', hb'⟩, hi'⟩ := k a t g.params
    refine ⟨g.trans g', ⟨tap', ir', ?_⟩, fun hs => hi' ?_⟩
    · rw [Run.bind_ok, hb']; simp only [Run.state_ok] at hb; rw [hb]
    · simpa using hi hs

theorem LinkEnds.ok {α : Type} (own : Word) (a : α) (s : State) : LinkEnds own 0 s (Run.ok a s) :=
  ⟨Grows.refl _ _ s, ⟨s.st.tap, s.st.irCache, rfl⟩, fun h => .inr (.inr h)⟩
theorem LinkEnds.stop {α : Type} (own : Word) (e : LinkFail) (s : State) :
    LinkEnds own 0 s (Run.stop e s : Run LinkFail α) :=
  ⟨Grows.refl _ _ s, ⟨s.st.tap, s.st.irCache, rfl⟩, fun h => .inr (.inr h)⟩

theorem SwdEnds.link {α : Type} {n : Nat} {s : State} {r : Run LinkFail α} (h : SwdEnds n s r) (own : Word) :
    LinkEnds own n s r :=
  ⟨h.grows.mono own, ⟨s.st.tap, s.st.irCache, h.block⟩, fun hs => .inr (.inr (by rw [h.block]; exact hs))⟩

theorem resetLine_ends (s : State) : SwdEnds 1 s (resetLine s) :=
  have h := transportCall_ends 0 s.params.caps.swd (fun a => .resetLine (answerStatus a)) s (fun _ => trivial)
    fun _ _ => rfl
  SwdEnds.bind (m := 0) ⟨h.1, h.2.1⟩ fun _ t _ => .ok () t

theorem setClockCall_ends (hz : Word) (s : State) : SwdEnds 1 s (setClockCall hz s) :=
  have h := transportCall_ends 0 true (fun a => .setClock hz (answerStatus a)) s (fun _ => trivial) fun _ _ => rfl
  SwdEnds.bind (m := 0) ⟨h.1, h.2.1⟩ fun _ t _ => .ok () t

/-! ## SWD -/

/-- What is observed in an SWD attempt after its request: samples, the data phase of a write of v, idle cycles. -/
def PhaseObs (v : Word) : Obs → Prop
  | .sendBits n x _ => (n = 33 ∧ x = swdData v) ∨ x = 0
  | .recvBits n _ => n = 1 ∨ n = 3 ∨ n = 33
  | .resetLine _ | .setClock _ _ | .jtagSeq _ _ _ _ | .apShadowInvalidate | .result _ _ => False

/-- How a part of an SWD attempt after its request ends: at most n calls, and the block state left alone. -/
structure Phase {α : Type} (v : Word) (n : Nat) (s : State) (r : Run LinkFail α) : Prop where
  params : r.state.params = s.params
  port : r.state.port = s.port
  block : r.state.st = s.st
  trace : ∃ l, r.state.trace = s.trace ++ l ∧ (∀ o ∈ l, PhaseObs v o) ∧ l.length ≤ n

theorem Phase.ok {α : Type} (v : Word) (a : α) (s : State) : Phase v 0 s (Run.ok a s) :=
  ⟨rfl, rfl, rfl, [], by simp, by simp, by simp⟩
theorem Phase.stop {α : Type} (v : Word) (e : LinkFail) (s : State) : Phase v 0 s (Run.stop e s : Run LinkFail α) :=
  ⟨rfl, rfl, rfl, [], by simp, by simp, by simp⟩

theorem Phase.le {α : Type} {v : Word} {n m : Nat} {s : State} {r : Run LinkFail α} (h : Phase v n s r) (hn : n ≤ m) :
    Phase v m s r := ⟨h.params, h.port, h.block, h.trace.imp fun _ k => ⟨k.1, k.2.1, k.2.2.trans hn⟩⟩

theorem Phase.bind {α β : Type} {v : Word} {n m : Nat} {s : State} {r : Run LinkFail α} {f : α → State → Run LinkFail β}
    (h : Phase v n s r) (k : ∀ a t, Phase v m t (f a t)) : Phase v (n + m) s (r.bind f) := by
  cases r with
  | stop e t => exact ⟨h.params, h.port, h.block, h.trace.imp fun _ k => ⟨k.1, k.2.1, by omega⟩⟩
  | ok a t =>
    obtain ⟨hp, hq, hb, l, hl, hP, hn⟩ := h
    obtain ⟨kp, kq, kb, m', hm, kP, kn⟩ := k a t
    refine ⟨kp.trans hp, kq.trans hq, kb.trans hb, l ++ m', ?_, ?_, by rw [List.length_append]; omega⟩
    · rw [Run.bind_ok, hm, ← List.append_assoc]; exact congrArg (· ++ m') hl
    · exact fun o ho => (List.mem_append.mp ho).elim (hP o) (kP o)

theorem transportCall_phase (v : Word) (record : Answer → Obs) (s : State) (hP : ∀ a, PhaseObs v (record a)) :
    Phase v 1 s (transportCall true record s) := by
  obtain ⟨hp, ho, hs, ⟨a, ha⟩, -⟩ := transportCall_adds true record s
  exact ⟨hp, ho, hs, [record a], ha, fun o h => by rw [List.mem_singleton.mp h]; exact hP a, by simp⟩

theorem sendBits_phase {v : Word} {n : Nat} {x : BitVec 33} (s : State) (h : (n = 33 ∧ x = swdData v) ∨ x = 0) :
    Phase v 1 s (sendBits n x s) :=
  (transportCall_phase v (fun a => .sendBits n x (answerStatus a)) s fun _ => h).bind (m := 0) fun _ t => .ok v () t

theorem recvBits_phase (v : Word) {n : Nat} (s : State) (h : n = 1 ∨ n = 3 ∨ n = 33) : Phase v 1 s (recvBits n s) :=
  (transportCall_phase v (fun a => .recvBits n (answerCut n a)) s fun _ => h).bind (m := 0) fun _ t => .ok v _ t

theorem swdIdle_phase (v : Word) (s : State) : Phase v 1 s (swdIdle s) := by
  unfold swdIdle
  split
  · exact (Phase.ok v () s).le (by omega)
  · exact sendBits_phase s (.inr rfl)

theorem swdTurnIdle_phase (v : Word) (s : State) : Phase v 2 s (swdTurnIdle s) :=
  (recvBits_phase v s (.inl rfl)).bind fun _ t => swdIdle_phase v t

theorem swdReadPhase_phase (v : Word) (s : State) : Phase v 3 s (swdReadPhase s) :=
  (recvBits_phase v s (.inr (.inr rfl))).bind fun _ t => (swdTurnIdle_phase v t).bind (m := 0) fun _ u => by
    split
    · exact .ok v _ u
    · exact .stop v _ u

theorem swdWritePhase_phase (v : Word) (s : State) : Phase v 3 s (swdWritePhase v s) :=
  (recvBits_phase v s (.inl rfl)).bind fun _ t =>
    (sendBits_phase t (.inl ⟨rfl, rfl⟩)).bind fun _ u => (swdIdle_phase v u).bind (m := 0) fun _ x => .ok v 0 x

/-- A transaction is one the block may ask for: not the TARGETSEL write (40_swd_link.md R139), and a CTRL/STAT or SELECT
value of 30_encoding.md R94 only. -/
structure Issued (apndp rnw : Bool) (a : BitVec 2) (v : Word) : Prop where
  request : ¬(apndp = false ∧ rnw = false ∧ a = 3)
  value : rnw = false → PairOk ((swdRequest apndp rnw a).setWidth 33, swdData v)

theorem swdData_bit {v : Word} {i : Nat} (hi : i < 32) : (swdData v).getLsbD i = v.getLsbD i := by
  rw [swdData, BitVec.getLsbD_append]; simp [hi]

theorem swdData_zero : swdData 0 = 0 := rfl

theorem issued_read (apndp : Bool) (a : BitVec 2) (v : Word) : Issued apndp true a v := ⟨by simp, by simp⟩
theorem issued_ap (rnw : Bool) (a : BitVec 2) (v : Word) : Issued true rnw a v := by
  have key : ∀ (rnw : Bool) (a : BitVec 2), (swdRequest true rnw a).setWidth 33 ≠ 0xB1 ∧
      (swdRequest true rnw a).setWidth 33 ≠ 0xA9 := by decide
  exact ⟨by simp, fun _ => ⟨fun h => absurd h (key rnw a).1, fun h => absurd h (key rnw a).2⟩⟩
theorem issued_write {a : BitVec 2} {v : Word} (h : a ≠ 3) (h2 : a = 2 → v.extractLsb' 0 4 = 0)
    (h1 : a = 1 → v.getLsbD 0 = false) : Issued false false a v := by
  have key : ∀ a : BitVec 2, ((swdRequest false false a).setWidth 33 = 0xB1#33 → a = 2) ∧
      ((swdRequest false false a).setWidth 33 = 0xA9#33 → a = 1) := by decide
  refine ⟨by simpa using h, fun _ => ⟨fun e => ?_, fun e => ?_⟩⟩
  · have h0 := h2 ((key a).1 e)
    apply BitVec.eq_of_getLsbD_eq
    intro i hi
    have := congrArg (BitVec.getLsbD · i) h0
    simp only [BitVec.getLsbD_extractLsb', hi, decide_true, Bool.true_and, Nat.zero_add] at this ⊢
    rw [swdData_bit (by omega), this]
  · rw [swdData_bit (by omega)]; exact h1 ((key a).2 e)

/-- The data phases of an attempt fit its request. -/
theorem dataWords_phase {v : Word} {request : BitVec 33} (hv : PairOk (request, swdData v)) :
    ∀ {l : List Obs}, (∀ o ∈ l, PhaseObs v o) → ∀ q ∈ dataWords request l, PairOk q := by
  have h0 : ∀ r, PairOk (r, 0) := fun r => ⟨fun _ => rfl, fun _ => by simp⟩
  have hz : PairOk (0, swdData v) := ⟨fun h => absurd h (by decide : (0 : BitVec 33) ≠ 0xB1), fun h => absurd h (by decide : (0 : BitVec 33) ≠ 0xA9)⟩
  intro l
  suffices ∀ request, PairOk (request, swdData v) → (∀ o ∈ l, PhaseObs v o) → ∀ q ∈ dataWords request l, PairOk q from
    this request hv
  induction l with
  | nil => intro _ _ _ q hq; cases hq
  | cons o l ih =>
    intro r hr h q hq
    have ho := h o (by simp)
    have hl := fun o' h' => h o' (List.mem_cons_of_mem _ h')
    cases o with
    | sendBits n x c =>
      simp only [dataWords] at hq
      split at hq
      · rename_i h8
        rcases ho with ⟨h33, -⟩ | rfl
        · omega
        · exact ih 0 hz hl q hq
      · split at hq
        · rcases List.mem_cons.mp hq with rfl | hq
          · rcases ho with ⟨-, rfl⟩ | rfl
            · exact hr
            · exact h0 r
          · exact ih r hr hl q hq
        · exact ih r hr hl q hq
    | _ => exact ih r hr hl q hq

theorem inAttempt_state {α : Type} (r : Run LinkFail α) : (inAttempt r).state = r.state := by cases r <;> rfl
@[simp] theorem inAttempt_ok {α : Type} (a : α) (s : State) : inAttempt (.ok a s) = .ok a s := rfl
@[simp] theorem inAttempt_stop {α : Type} (f : LinkFail) (s : State) :
    inAttempt (.stop f s : Run LinkFail α) = .stop (.fail f) s := rfl

/-- The trace of an attempt: the request, and then the observations of its phases. -/
theorem Grows.attempt {apndp rnw : Bool} {a : BitVec 2} {v d : Word} (h : Issued apndp rnw a d)
    (hv : v = if rnw then 0 else d) {s t : State} {c : CallStatus} {l : List Obs} (hp : t.params = s.params)
    (hq : t.port = s.port) (ht : t.trace = s.trace ++ .sendBits 8 ((swdRequest apndp rnw a).setWidth 33) c :: l)
    (hl : ∀ o ∈ l, PhaseObs v o) (hn : l.length ≤ 5) : Grows 0 6 s t := by
  have hv' : PairOk ((swdRequest apndp rnw a).setWidth 33, swdData v) := by
    cases rnw with
    | true =>
      obtain rfl : v = 0 := hv
      rw [swdData_zero]
      exact ⟨fun _ => rfl, fun _ => by simp⟩
    | false => subst hv; exact h.value rfl
  refine ⟨hp, hq, _, ht, ⟨?_, ?_⟩, ?_⟩
  · intro o ho
    rcases List.mem_cons.mp ho with rfl | ho
    · exact .inl ⟨rfl, apndp, rnw, a, rfl, h.request⟩
    · have := hl o ho
      cases o with
      | sendBits n x c => exact .inr (this.imp_left fun k => ⟨k.1, v, k.2⟩)
      | recvBits n x => exact this
      | _ => exact this.elim
  · intro r q hm
    simp only [dataWords, if_true] at hm
    exact dataWords_phase hv' hl q hm
  · have := List.length_filter_le isCall (Obs.sendBits 8 ((swdRequest apndp rnw a).setWidth 33) c :: l)
    simp only [callCount, List.length_cons] at *
    omega

theorem swdAttempt_ends {apndp rnw : Bool} {a : BitVec 2} {d : Word} (h : Issued apndp rnw a d) (s : State) :
    Grows 0 6 s (swdAttempt apndp rnw a d s).state ∧ (swdAttempt apndp rnw a d s).state.st = s.st := by
  obtain ⟨v, hv⟩ : ∃ v : Word, v = if rnw then 0 else d := ⟨_, rfl⟩
  obtain ⟨sp, sq, sb, ⟨x, sx⟩, -⟩ := transportCall_adds true
    (fun x => .sendBits 8 ((swdRequest apndp rnw a).setWidth 33) (answerStatus x)) s
  have done {t : State} {l : List Obs} (hp : t.params = s.params) (hq : t.port = s.port) (hb : t.st = s.st)
      (ht : t.trace = s.trace ++ .sendBits 8 ((swdRequest apndp rnw a).setWidth 33) (answerStatus x) :: l)
      (hl : ∀ o ∈ l, PhaseObs v o) (hn : l.length ≤ 5) : Grows 0 6 s t ∧ t.st = s.st :=
    ⟨.attempt h hv hp hq ht hl hn, hb⟩
  unfold swdAttempt swdRequestPhase sendBits
  cases hs : transportCall true
      (fun x => .sendBits 8 ((swdRequest apndp rnw a).setWidth 33) (answerStatus x)) s with
  | stop e t => rw [hs] at sp sq sb sx; exact done (l := []) sp sq sb sx (by simp) (by simp)
  | ok y t =>
    rw [hs] at sp sq sb sx
    have later {α : Type} {n : Nat} (hn : n ≤ 5) {r : Run LinkFail α} (k : Phase v n t r) :
        Grows 0 6 s r.state ∧ r.state.st = s.st := by
      obtain ⟨kp, kq, kb, l, kl, kP, kn⟩ := k
      refine done (l := l) (kp.trans sp) (kq.trans sq) (kb.trans sb) ?_ kP (by omega)
      rw [kl, show t.trace = _ from sx]; simp
    have k1 : Phase v 2 t ((recvBits trn t).bind fun _ u => recvBits 3 u) :=
      (recvBits_phase v t (.inl rfl)).bind fun _ u => recvBits_phase v u (.inr (.inl rfl))
    simp only [Run.bind_ok]
    cases hr : (recvBits trn t).bind fun _ u => recvBits 3 u with
    | stop e u => have := later (by omega) k1; rw [hr] at this; exact this
    | ok ack u =>
      rw [inAttempt_ok, Run.bind_ok]
      have go {β : Type} {n : Nat} {f : State → Run LinkFail β} (hn : n ≤ 3) (k : Phase v n u (f u)) :
          Grows 0 6 s (f u).state ∧ (f u).state.st = s.st := by
        obtain ⟨kp, kq, kb, l, kl, kP, kn⟩ := k
        obtain ⟨jp, jq, jb, m, jl, jP, jn⟩ := hr ▸ k1
        refine done (l := m ++ l) (kp.trans (jp.trans sp)) (kq.trans (jq.trans sq)) (kb.trans (jb.trans sb)) ?_
          (fun o ho => (List.mem_append.mp ho).elim (jP o) (kP o)) (by rw [List.length_append]; omega)
        rw [kl, show u.trace = _ from jl, show t.trace = _ from sx]; simp
      have turned := go (f := swdTurnIdle) (by omega) (swdTurnIdle_phase v u)
      cases swdAck ack with
      | ok =>
        simp only [inAttempt_state]
        cases rnw with
        | true => exact go (by omega) (swdReadPhase_phase v u)
        | false =>
          obtain rfl : v = d := hv
          exact go (f := swdWritePhase v) (by omega) (swdWritePhase_phase v u)
      | wait => cases hx : swdTurnIdle u <;> rw [hx] at turned <;> exact turned
      | fault => cases hx : swdTurnIdle u <;> rw [hx] at turned <;> exact turned
      | invalid k => have := later (by omega) k1; rw [hr] at this; exact this

/-- How the retry loop goes on after one attempt. -/
theorem swdRetry_eq (total : Nat) (apndp rnw : Bool) (a : BitVec 2) (v : Word) (left : Nat) (s : State) :
    swdRetry total apndp rnw a v left s =
      match swdAttempt apndp rnw a v s with
      | .ok d t => .ok d t
      | .stop (.fail f) t => .stop f t
      | .stop .wait t =>
        match left with
        | 0 => .stop (.timeout total) t
        | n + 1 => swdRetry total apndp rnw a v n t := by
  rw [swdRetry.eq_def]
  rcases hx : swdAttempt apndp rnw a v s with _ | ⟨_ | _, _⟩ <;> cases left <;> simp only [hx]

theorem swdRetry_ends {apndp rnw : Bool} {a : BitVec 2} {v : Word} (h : Issued apndp rnw a v) (total : Nat)
    (left : Nat) : ∀ s, SwdEnds (6 * (left + 1)) s (swdRetry total apndp rnw a v left s) := by
  induction left with
  | zero =>
    intro s
    have hx := swdAttempt_ends h s
    rw [swdRetry_eq]
    rcases hq : swdAttempt apndp rnw a v s with _ | ⟨_ | _, _⟩ <;> rw [hq] at hx <;> exact ⟨hx.1, hx.2⟩
  | succ n ih =>
    intro s
    have hx := swdAttempt_ends h s
    rw [swdRetry_eq]
    rcases hq : swdAttempt apndp rnw a v s with _ | ⟨_ | _, t⟩ <;> rw [hq] at hx
    · exact ⟨hx.1.le (by omega), hx.2⟩
    · exact ⟨(hx.1.trans (ih t).grows).le (by omega), (ih t).block.trans hx.2⟩
    · exact ⟨hx.1.le (by omega), hx.2⟩

/-- The bound on the calls of one transaction (40_swd_link.md R129, 70_reset_and_hazards.md R314). -/
def xferCalls (p : Params) : Nat := 6 * (p.waitRetries + 1)

/-- An SWD transaction makes plain calls and leaves the block state alone (40_swd_link.md R129). -/
theorem swdXfer_ends {apndp rnw : Bool} {a : BitVec 2} {v : Word} (h : Issued apndp rnw a v) (s : State) :
    SwdEnds (xferCalls s.params) s (swdXfer apndp rnw a v s) :=
  swdRetry_ends h _ _ s

end Sys2Proof.Machine
end

