-- ==== Sys2Proof/Laws/Jtag.lean ====
section
/-! SUPPORT. What each operation of the TAP controller can do, said once (41_jtag_tap.md sections 2, 4 and 6). -/

namespace Sys2Proof.Machine

/-- A TAP sequence that returns Run-Test/Idle to itself keeps a known idle TAP idle, unless a transport error ends it. -/
theorem jtagSeq_ends {own : Word} (c : Bool) (n : Nat) (tms tdi : Wire) (s : State)
    (hP : ∀ a, PlainObs own (.jtagSeq n tms tdi a)) (hi : tapRun .rti (tmsBits n tms) = .rti) :
    LinkEnds own 1 s (jtagSeq c n tms tdi s) := by
  obtain ⟨hg, hb, he⟩ := transportCall_ends own c (fun a => .jtagSeq n tms tdi (answerCut n a)) s (fun _ => hP _)
    fun _ _ => rfl
  unfold jtagSeq
  cases hx : transportCall c (fun a => .jtagSeq n tms tdi (answerCut n a)) s with
  | ok tdo t =>
    rw [hx] at hg hb
    simp only [Run.state_ok] at hg hb
    refine ⟨hg.of_eq rfl rfl rfl, ⟨trackTap t.st.tap (tmsBits n tms), s.st.irCache, ?_⟩, fun h => .inr (.inr ?_)⟩
    · simp [hb]
    · simp [hb, h, trackTap, hi]
  | stop e t =>
    rw [hx] at hg hb
    simp only [Run.state_stop] at hg hb
    refine ⟨hg.of_eq rfl rfl rfl, ⟨none, s.st.irCache, by simp [hb]⟩, fun _ => ?_⟩
    rcases he e t hx with rfl | rfl
    · exact .inl ⟨_, rfl⟩
    · exact .inr (.inl ⟨_, rfl⟩)

/-- Writing the IR cache after a link operation is within what a link operation may do. -/
theorem LinkEnds.setIr {α : Type} {own : Word} {n : Nat} {s : State} {r : Run LinkFail α} (h : LinkEnds own n s r)
    (v : Option (BitVec 4)) : LinkEnds own n s (r.bind fun _ t => .ok () (setIr v t)) := by
  cases r with
  | stop e t => exact ⟨h.grows, h.block, fun hs => by simpa using h.idle hs⟩
  | ok a t =>
    obtain ⟨g, ⟨tap, ir, hb⟩, hi⟩ := h
    simp only [Run.state_ok] at hb
    refine ⟨g.of_eq rfl rfl rfl, ⟨tap, v, by simp [hb]⟩, fun hs => .inr (.inr ?_)⟩
    simpa using hi hs

theorem tapReset_ends (s : State) : LinkEnds 0 1 s (tapReset s) :=
  (jtagSeq_ends _ _ _ _ s (fun _ => .inl ⟨rfl, rfl, rfl⟩) (by decide)).setIr none

/-- After TapReset the TAP is in Run-Test/Idle, whatever was known of it before (41_jtag_tap.md R165). -/
theorem tapReset_idle {s t : State} {u : Unit} (h : tapReset s = .ok u t) : t.st.tap = some .rti ∧ t.st.irCache = none := by
  unfold tapReset jtagSeq at h
  cases hx : transportCall s.params.caps.jtag
      (fun a => .jtagSeq tapResetLen tapResetTms 0 (answerCut tapResetLen a)) s with
  | stop e t => rw [hx] at h; cases h
  | ok tdo w =>
    rw [hx] at h
    injection h with _ h
    subst h
    refine ⟨?_, rfl⟩
    have key : ∀ x : Option TapState, trackTap x (tmsBits tapResetLen tapResetTms) = some .rti := by
      intro x; rcases x with _ | x
      · decide
      · cases x <;> decide
    exact key _

/-- An IR code a scan of the block may shift in (30_encoding.md R87, R88, R94). -/
def ShiftedIr (ir : BitVec 4) : Prop := ir = 0x8 ∨ ir = 0xA ∨ ir = 0xB ∨ ir = 0xE

theorem irScan_ends (own : Word) {ir : BitVec 4} (h : ShiftedIr ir) (s : State) : LinkEnds own 1 s (irScan ir s) :=
  (jtagSeq_ends _ _ _ _ s (fun _ => .inr (.inl ⟨rfl, rfl, ir, rfl, h⟩)) (by decide)).setIr _

theorem ensureIr_ends (own : Word) {ir : BitVec 4} (h : ShiftedIr ir) (s : State) : LinkEnds own 1 s (ensureIr ir s) := by
  unfold ensureIr
  split
  · exact (LinkEnds.ok own () s).le (by omega)
  · exact irScan_ends own h s

theorem drScan35_ends {own : Word} {din : BitVec 35} (h : ScanOk own din) (s : State) : LinkEnds own 1 s (drScan din s) :=
  (jtagSeq_ends true (drScanLen 35) (drScanTms 35) _ s
    (fun _ => .inr (.inr (.inl ⟨rfl, by decide, din, rfl, h⟩))) (by decide)).bind fun _ t _ => .ok own _ t

theorem drScan32_ends (own : Word) (s : State) : LinkEnds own 1 s (drScan (0 : BitVec 32) s) :=
  (jtagSeq_ends true (drScanLen 32) (drScanTms 32) _ s
    (fun _ => .inr (.inr (.inr ⟨rfl, by decide, by decide⟩))) (by decide)).bind fun _ t _ => .ok own _ t

/-- The shift-in of a DPACC or APACC scan, from its fields (30_encoding.md R89). -/
theorem xpaccIn_ok {own : Word} {rnw : Bool} {a : BitVec 2} {data : Word} (h : XpaccOk own rnw a data) :
    ScanOk own (xpaccIn rnw a data) := by
  have e : ∀ n, n ≤ 32 → (xpaccIn rnw a data).extractLsb' 3 n = data.extractLsb' 0 n := by
    intro n hn
    apply BitVec.eq_of_getLsbD_eq
    intro i hi
    simp only [xpaccIn, BitVec.getLsbD_extractLsb', BitVec.getLsbD_append, hi, decide_true, Bool.true_and]
    rw [if_neg (by omega)]
    rw [if_neg (by omega)]
    simp
  intro h3
  have hl : (xpaccIn rnw a data).extractLsb' 0 3 = a ++ BitVec.ofBool rnw := by
    apply BitVec.eq_of_getLsbD_eq
    intro i hi
    simp only [xpaccIn, BitVec.getLsbD_extractLsb', BitVec.getLsbD_append, hi, decide_true, Bool.true_and, Nat.zero_add]
    split
    · rfl
    · simp [show i - 1 < 2 by omega]
  rw [hl] at h3
  have key : ∀ (a : BitVec 2) (r : Bool), a ++ BitVec.ofBool r = 0b100#3 → r = false ∧ a = 2 := by decide
  obtain ⟨hr, ha⟩ := key a rnw h3
  rw [e 4 (by omega), e 32 (by omega)]
  simpa using h hr ha

/-- An ABORT scan names no register (30_encoding.md R91). -/
theorem abortIn_ok (own v : Word) : ScanOk own (abortIn v) := by
  intro h
  have hl : (abortIn v).extractLsb' 0 3 = 0 := by
    apply BitVec.eq_of_getLsbD_eq
    intro i hi
    simp only [abortIn, BitVec.getLsbD_extractLsb', BitVec.getLsbD_append, hi, decide_true, Bool.true_and, Nat.zero_add]
    simp [hi]
  rw [hl] at h
  exact absurd h (by decide)

theorem xpaccOk_read (own : Word) (a : BitVec 2) (data : Word) : XpaccOk own true a data := fun h => by cases h
theorem xpaccOk_dp (own : Word) {a : BitVec 2} {v : Word} (h : a = 2 → v.extractLsb' 0 4 = 0) (rnw : Bool) :
    XpaccOk own rnw a v := fun _ ha => .inl (h ha)

/-- How the retry loop of JtagXpacc goes on after one scan (41_jtag_tap.md R170). -/
theorem xpaccRetry_eq (total : Nat) (rnw : Bool) (a : BitVec 2) (data : Word) (left : Nat) (s : State) :
    xpaccRetry total rnw a data left s =
      (drScan (xpaccIn rnw a data) s).bind fun dout t =>
        match jtagAck (xpaccAck dout) with
        | .ok => .ok (xpaccData dout) t
        | .wait =>
          match left with
          | 0 => .stop (.timeout total) t
          | n + 1 => xpaccRetry total rnw a data n t
        | .fault => .stop .fault t
        | .invalid k => .stop (.invalidAck k) t := by
  rw [xpaccRetry.eq_def]
  rcases hx : drScan (xpaccIn rnw a data) s with ⟨dout, t⟩ | ⟨e, t⟩
  · simp only [hx, Run.bind_ok]
    cases jtagAck (xpaccAck dout) <;> cases left <;> simp only
  · simp only [hx, Run.bind_stop]

theorem xpaccRetry_ends {own : Word} {rnw : Bool} {a : BitVec 2} {data : Word} (h : XpaccOk own rnw a data) (total : Nat)
    (left : Nat) : ∀ s, LinkEnds own (left + 1) s (xpaccRetry total rnw a data left s) := by
  induction left with
  | zero =>
    intro s
    rw [xpaccRetry_eq]
    refine ((drScan35_ends (xpaccIn_ok h) s).bind (m := 0) fun dout t _ => ?_).le (by omega)
    cases jtagAck (xpaccAck dout) <;> first | exact .ok own _ t | exact .stop own _ t
  | succ n ih =>
    intro s
    rw [xpaccRetry_eq]
    refine ((drScan35_ends (xpaccIn_ok h) s).bind (m := n + 1) fun dout t _ => ?_).le (by omega)
    cases jtagAck (xpaccAck dout) <;>
      first | exact ih t | exact (LinkEnds.ok own _ t).le (by omega) | exact (LinkEnds.stop own _ t).le (by omega)

theorem jtagXpacc_ends {own : Word} {rnw : Bool} {a : BitVec 2} {data : Word} (h : XpaccOk own rnw a data) (s : State) :
    LinkEnds own (s.params.waitRetries + 1) s (jtagXpacc rnw a data s) :=
  xpaccRetry_ends h _ _ s

/-- As `jtagXpacc_ends`, with the bound said of an earlier state of the same instance. -/
theorem jtagXpacc_ends' {own : Word} {rnw : Bool} {a : BitVec 2} {data : Word} (k : XpaccOk own rnw a data) {s t : State}
    (h : t.params = s.params) :
    LinkEnds own (s.params.waitRetries + 1) t (jtagXpacc rnw a data t) :=
  h ▸ jtagXpacc_ends k t

theorem jtagAbort_ends (own : Word) (v : Word) (s : State) : LinkEnds own (xferCalls s.params) s (jtagAbort v s) :=
  ((ensureIr_ends own (.inl rfl) s).bind fun _ t _ =>
    (drScan35_ends (abortIn_ok own v) t).bind fun _ u _ => .ok own 0 u).le (by unfold xferCalls; omega)

theorem jtagIdcode_ends (own : Word) (s : State) : LinkEnds own (xferCalls s.params) s (jtagIdcode s) :=
  ((ensureIr_ends own (.inr (.inr (.inr rfl))) s).bind fun _ t _ => drScan32_ends own t).le
    (by unfold xferCalls; omega)

theorem jtagReadDp_ends (own : Word) (a : BitVec 2) (s : State) :
    LinkEnds own (xferCalls s.params) s (jtagReadDp a s) :=
  ((ensureIr_ends own (.inr (.inl rfl)) s).bind fun _ t ht => (jtagXpacc_ends' (xpaccOk_read own a 0) ht).bind fun _ u hu =>
    jtagXpacc_ends' (xpaccOk_read own _ 0) (hu.trans ht)).le (by unfold xferCalls; omega)

theorem jtagWriteDp_ends (own : Word) {a : BitVec 2} {v : Word} (h : a = 2 → v.extractLsb' 0 4 = 0) (s : State) :
    LinkEnds own (xferCalls s.params) s (jtagWriteDp a v s) :=
  ((ensureIr_ends own (.inr (.inl rfl)) s).bind fun _ t ht =>
    (jtagXpacc_ends' (xpaccOk_dp own h false) ht).bind fun _ u hu =>
      (jtagXpacc_ends' (xpaccOk_read own _ 0) (hu.trans ht)).bind fun _ x _ => .ok own 0 x).le
        (by unfold xferCalls; omega)

theorem jtagApScans_ends {own : Word} {rnw : Bool} {a : BitVec 2} {v : Word} (h : XpaccOk own rnw a v) (s : State) :
    LinkEnds own (xferCalls s.params) s (jtagApScans rnw a v s) :=
  ((ensureIr_ends own (.inr (.inr (.inl rfl))) s).bind fun _ t ht =>
    (jtagXpacc_ends' h ht).bind fun _ u hu =>
      (ensureIr_ends own (.inr (.inl rfl)) u).bind fun _ x hx =>
        jtagXpacc_ends' (xpaccOk_read own _ 0) (hx.trans (hu.trans ht))).le (by unfold xferCalls; omega)

theorem jtagSelect_ends (own : Word) {sel : Word} (h : sel.extractLsb' 0 4 = 0) (s : State) :
    LinkEnds own (xferCalls s.params) s (jtagSelect sel s) :=
  ((ensureIr_ends own (.inr (.inl rfl)) s).bind fun _ _ ht =>
    jtagXpacc_ends' (xpaccOk_dp own (fun _ => h) false) ht).le (by unfold xferCalls; omega)

/-! ## Dispatch over the link (42_dpap_commands.md R203) -/

theorem dpRead_ends (own : Word) (a : BitVec 2) (s : State) : LinkEnds own (xferCalls s.params) s (dpRead a s) := by
  unfold dpRead
  split
  · exact (swdXfer_ends (issued_read false a 0) s).link own
  · exact jtagReadDp_ends own a s

theorem dpWrite_ends (own : Word) {a : BitVec 2} {v : Word} (h : a ≠ 3) (h2 : a = 2 → v.extractLsb' 0 4 = 0) (s : State)
    (h1 : a = 1 → s.st.proto = some .swd → v.getLsbD 0 = false) :
    LinkEnds own (xferCalls s.params) s (dpWrite a v s) := by
  unfold dpWrite
  split
  · rename_i hp
    exact (swdXfer_ends (issued_write h h2 fun k => h1 k hp) s).link own
  · split
    · exact jtagAbort_ends own v s
    · exact jtagWriteDp_ends own h2 s

theorem writeClear_ends (own : Word) (v : Word) (s : State) :
    LinkEnds own (xferCalls s.params) s (writeClear v s) := by
  unfold writeClear
  split
  · exact (swdXfer_ends (issued_write (by decide) (fun h => absurd h (by decide)) fun h => absurd h (by decide)) s).link own
  · split
    · exact jtagAbort_ends own _ s
    · exact jtagWriteDp_ends own (fun h => absurd h (by decide)) s

theorem selectWrite_ends (own : Word) {v : Word} (h : v.extractLsb' 0 4 = 0) (s : State) :
    LinkEnds own (xferCalls s.params) s (selectWrite v s) := by
  unfold selectWrite
  split
  · exact (swdXfer_ends (issued_write (by decide) (fun _ => h) fun k => absurd k (by decide)) s).link own
  · exact jtagSelect_ends own h s

end Sys2Proof.Machine
end

