-- ==== Sys2Proof/Laws/Exchange.lean ====
section
/-! SUPPORT. What the link operations do when the transport answers as an exchange of Sys2Proof/Safety.lean says. -/

namespace Sys2Proof.Machine

/-! ## States after exchanges -/

theorem nextAnswer_params (s : State) : (nextAnswer s).2.params = s.params := by unfold nextAnswer; split <;> rfl
theorem nextAnswer_port (s : State) : (nextAnswer s).2.port = s.port := by unfold nextAnswer; split <;> rfl
theorem nextAnswer_trace (s : State) : (nextAnswer s).2.trace = s.trace := by unfold nextAnswer; split <;> rfl

/-- Drawing looks at the answers and the draws only. -/
theorem nextAnswer_with (s : State) (b : Block) (l : List Obs) :
    nextAnswer { s with st := b, trace := l } =
      ((nextAnswer s).1, { (nextAnswer s).2 with st := b, trace := l }) := by
  unfold nextAnswer; cases s.answers <;> simp

theorem upcoming_with (n : Nat) :
    ∀ (s : State) (b : Block) (l : List Obs), upcoming n { s with st := b, trace := l } = upcoming n s := by
  induction n with
  | zero => intros; rfl
  | succ n ih => intro s b l; simp only [upcoming, nextAnswer_with, ih]

theorem skipped_with (n : Nat) :
    ∀ (s : State) (b : Block) (l : List Obs),
      skipped n { s with st := b, trace := l } = { skipped n s with st := b, trace := l } := by
  induction n with
  | zero => intros; rfl
  | succ n ih => intro s b l; rw [skipped, nextAnswer_with]; exact ih _ b l

@[simp] theorem skipped_st (n : Nat) : ∀ s, (skipped n s).st = s.st := by
  induction n with
  | zero => intro s; rfl
  | succ n ih => intro s; rw [skipped, ih, nextAnswer_st]

@[simp] theorem skipped_params (n : Nat) : ∀ s, (skipped n s).params = s.params := by
  induction n with
  | zero => intro s; rfl
  | succ n ih => intro s; rw [skipped, ih, nextAnswer_params]

@[simp] theorem skipped_port (n : Nat) : ∀ s, (skipped n s).port = s.port := by
  induction n with
  | zero => intro s; rfl
  | succ n ih => intro s; rw [skipped, ih, nextAnswer_port]

@[simp] theorem skipped_trace (n : Nat) : ∀ s, (skipped n s).trace = s.trace := by
  induction n with
  | zero => intro s; rfl
  | succ n ih => intro s; rw [skipped, ih, nextAnswer_trace]

theorem upcoming_length (n : Nat) : ∀ s, (upcoming n s).length = n := by
  induction n with
  | zero => intro s; rfl
  | succ n ih => intro s; rw [upcoming, List.length_cons, ih]

theorem upcoming_add (n m : Nat) : ∀ s, upcoming (n + m) s = upcoming n s ++ upcoming m (skipped n s) := by
  induction n with
  | zero => intro s; simp [upcoming, skipped]
  | succ n ih =>
    intro s
    rw [Nat.add_right_comm, upcoming, ih]
    rfl

theorem skipped_add (n m : Nat) : ∀ s, skipped (n + m) s = skipped m (skipped n s) := by
  induction n with
  | zero => intro s; simp [skipped]
  | succ n ih => intro s; rw [Nat.add_right_comm, skipped, ih]; rfl

/-- Answers written down are the next ones. -/
theorem upcoming_written (l : List Answer) :
    ∀ (s : State) (rest : List Answer), s.answers = l ++ rest → upcoming l.length s = l := by
  induction l with
  | nil => intros; rfl
  | cons a l ih =>
    intro s rest h
    rw [List.length_cons, upcoming, show nextAnswer s = (a, { s with answers := l ++ rest }) by
      simp [nextAnswer, h], ih _ rest rfl]

theorem meets_written {s : State} {x : Exchange} (rest : List Answer) (h : s.answers = x.answers ++ rest) : s.meets x :=
  upcoming_written x.answers s rest h

@[simp] theorem after_st (s : State) (x : Exchange) : (s.after x).st = s.st := skipped_st _ s
@[simp] theorem after_params (s : State) (x : Exchange) : (s.after x).params = s.params := skipped_params _ s
@[simp] theorem after_port (s : State) (x : Exchange) : (s.after x).port = s.port := skipped_port _ s
@[simp] theorem after_trace (s : State) (x : Exchange) : (s.after x).trace = s.trace ++ x.obs := rfl
@[simp] theorem withBlock_st (s : State) (b : Block) : (s.withBlock b).st = b := rfl
@[simp] theorem withBlock_params (s : State) (b : Block) : (s.withBlock b).params = s.params := rfl
@[simp] theorem withBlock_port (s : State) (b : Block) : (s.withBlock b).port = s.port := rfl
@[simp] theorem withBlock_answers (s : State) (b : Block) : (s.withBlock b).answers = s.answers := rfl
@[simp] theorem withBlock_draws (s : State) (b : Block) : (s.withBlock b).draws = s.draws := rfl
@[simp] theorem withBlock_trace (s : State) (b : Block) : (s.withBlock b).trace = s.trace := rfl
@[simp] theorem withBlock_same (s : State) : s.withBlock s.st = s := rfl
@[simp] theorem withBlock_twice (s : State) (b c : Block) : (s.withBlock b).withBlock c = s.withBlock c := rfl
@[simp] theorem andThen_answers (x y : Exchange) : (x.andThen y).answers = x.answers ++ y.answers := rfl
@[simp] theorem andThen_obs (x y : Exchange) : (x.andThen y).obs = x.obs ++ y.obs := rfl
@[simp] theorem noExchange_answers : noExchange.answers = [] := rfl
@[simp] theorem noExchange_obs : noExchange.obs = [] := rfl
@[simp] theorem pulse_answers : pulse.answers = [] := rfl
@[simp] theorem pulse_obs : pulse.obs = [.apShadowInvalidate] := rfl
@[simp] theorem andThen_none (x : Exchange) : x.andThen noExchange = x := by simp [Exchange.andThen]
@[simp] theorem none_andThen (x : Exchange) : noExchange.andThen x = x := by simp [Exchange.andThen]
theorem andThen_assoc (x y z : Exchange) : (x.andThen y).andThen z = x.andThen (y.andThen z) := by
  simp [Exchange.andThen]

@[simp] theorem withBlock_after (s : State) (b : Block) (x : Exchange) :
    (s.withBlock b).after x = (s.after x).withBlock b := by
  have h := skipped_with x.answers.length s b s.trace
  simp only [State.after, State.withBlock]
  rw [h]

@[simp] theorem withBlock_meets (s : State) (b : Block) (x : Exchange) : (s.withBlock b).meets x = s.meets x := by
  have h := upcoming_with x.answers.length s b s.trace
  simp only [State.meets, State.withBlock]
  rw [h]

/-- One exchange after another is their sequence. -/
@[simp] theorem after_after (s : State) (x y : Exchange) : (s.after x).after y = s.after (x.andThen y) := by
  have h := skipped_with y.answers.length (skipped x.answers.length s) s.st (s.trace ++ x.obs)
  simp only [State.after, andThen_answers, List.length_append, skipped_add, andThen_obs, List.append_assoc]
  rw [show ({ skipped x.answers.length s with trace := s.trace ++ x.obs } : State) =
    { skipped x.answers.length s with st := s.st, trace := s.trace ++ x.obs } by simp, h]
  simp

/-- The answers of a sequence are those of its parts, one after the other. -/
theorem meets_andThen {s : State} {x y : Exchange} : s.meets (x.andThen y) ↔ s.meets x ∧ (s.after x).meets y := by
  have h := upcoming_with y.answers.length (skipped x.answers.length s) s.st (s.trace ++ x.obs)
  simp only [State.meets, State.after, andThen_answers, List.length_append, upcoming_add]
  rw [show ({ skipped x.answers.length s with trace := s.trace ++ x.obs } : State) =
    { skipped x.answers.length s with st := s.st, trace := s.trace ++ x.obs } by simp, h]
  constructor
  · intro e
    exact List.append_inj e (upcoming_length _ _)
  · rintro ⟨e, k⟩
    rw [e, k]

@[simp] theorem after_none (s : State) : s.after noExchange = s := by simp [State.after, skipped]
@[simp] theorem meets_none (s : State) : s.meets noExchange := rfl
@[simp] theorem meets_pulse (s : State) : s.meets pulse := rfl

/-- Updates of the block state are blocks put in place. -/
theorem setTap_eq (v : Option TapState) (s : State) : setTap v s = s.withBlock { s.st with tap := v } := rfl
theorem setIr_eq (v : Option (BitVec 4)) (s : State) : setIr v s = s.withBlock { s.st with irCache := v } := rfl
theorem setSelect_eq (v : Option Word) (s : State) : setSelect v s = s.withBlock { s.st with selectCache := v } := rfl
theorem setLink_eq (v : Link) (s : State) : setLink v s = s.withBlock { s.st with link := v } := rfl
theorem setPending_eq (v : Bool) (s : State) : setPending v s = s.withBlock { s.st with clearPending := v } := rfl
theorem setPowered_eq (v : Bool) (s : State) : setPowered v s = s.withBlock { s.st with dpPowered := v } := rfl
theorem observeCtrlStat_eq (v : Word) (s : State) :
    observeCtrlStat v s = s.withBlock { s.st with ctrlStatShadow := some v, dpPowered := powered v } := rfl
theorem emitInvalidate_eq (s : State) : emitInvalidate s = s.after pulse := rfl

theorem setTap_same {s : State} {v : Option TapState} (h : s.st.tap = v) : setTap v s = s := by
  subst h; rfl

/-! ## Single calls -/

/-- A call whose answer is Ok goes on after its one-call exchange. -/
theorem transportCall_ok {s : State} {bits : Wire} {o : Obs} (record : Answer → Obs) (h : s.meets ⟨[.ok bits], [o]⟩)
    (ho : record (.ok bits) = o) : transportCall true record s = .ok bits (s.after ⟨[.ok bits], [o]⟩) := by
  have h1 : (nextAnswer s).1 = .ok bits := by simpa [State.meets, upcoming] using h
  simp [transportCall, capAnswer, h1, emit, State.after, skipped, ho, nextAnswer_trace]

/-- The link result of a call that failed. -/
def lostAs : Answer → LinkFail
  | .unsupported => .unsupported
  | .ok _ | .disconnected => .disconnected

/-- A call that the transport fails stops after its one-call exchange (00_scope.md R15). -/
theorem transportCall_lost {s : State} {lost : Answer} {o : Obs} (record : Answer → Obs) (hn : ∀ bits, lost ≠ .ok bits)
    (h : s.meets ⟨[lost], [o]⟩) (ho : record lost = o) :
    transportCall true record s = .stop (lostAs lost) (s.after ⟨[lost], [o]⟩) := by
  have h1 : (nextAnswer s).1 = lost := by simpa [State.meets, upcoming] using h
  cases lost with
  | ok bits => exact absurd rfl (hn bits)
  | disconnected | unsupported =>
    simp [transportCall, capAnswer, h1, emit, State.after, skipped, ho, nextAnswer_trace, lostAs]

theorem sendBits_sent {s : State} {n : Nat} {v : BitVec 33} {junk : Wire} (h : s.meets (sent n v junk)) :
    sendBits n v s = .ok () (s.after (sent n v junk)) := by
  rw [sendBits, transportCall_ok _ h rfl]; rfl

/-- The line reset that CONNECT begins with, on a probe with SWD (00_scope.md R14; log 3). -/
theorem resetLine_X {s : State} {junk : Wire} (hc : s.params.caps.swd = true) (h : s.meets (lineResetX junk)) :
    resetLine s = .ok () (s.after (lineResetX junk)) := by
  rw [resetLine, hc, transportCall_ok _ h rfl]; rfl

theorem setWidth_back {n : Nat} (hn : n ≤ 40) (v : BitVec n) : (v.setWidth 40).setWidth n = v := by
  apply BitVec.eq_of_toNat_eq
  have := v.isLt
  have h40 : 2 ^ n ≤ 2 ^ 40 := Nat.pow_le_pow_right (by decide) hn
  simp only [BitVec.toNat_setWidth]
  rw [Nat.mod_eq_of_lt (Nat.lt_of_lt_of_le this h40), Nat.mod_eq_of_lt this]

theorem recvBits_received {s : State} {n : Nat} {v : BitVec n} (hn : n ≤ 40) (h : s.meets (received n v)) :
    recvBits n s = .ok v (s.after (received n v)) := by
  rw [recvBits, transportCall_ok _ h (by simp [answerCut, setWidth_back hn]), Run.bind_ok, setWidth_back hn]; rfl

theorem jtagSeq_jtagX {s : State} {n : Nat} {tms tdi tdo : Wire} (h : s.meets (jtagX n tms tdi tdo))
    (ht : s.st.tap = some .rti) (hi : tapRun .rti (tmsBits n tms) = .rti) :
    jtagSeq true n tms tdi s = .ok tdo (s.after (jtagX n tms tdi tdo)) := by
  rw [jtagSeq, transportCall_ok _ h rfl]
  simp only
  rw [setTap_same]
  · rfl
  · simp [ht, trackTap, hi]

/-! ## SWD -/

theorem swdIdle_idleX {p : Params} {s : State} {j : SwdJunk} (hp : s.params = p) (h : s.meets (idleX p j)) :
    swdIdle s = .ok () (s.after (idleX p j)) := by
  subst hp
  unfold swdIdle idleX at *
  split at h
  · rename_i hz
    rw [if_pos hz, if_pos hz, after_none]
  · rename_i hz
    rw [if_neg hz, if_neg hz, sendBits_sent h]

theorem swdTurnIdle_X {p : Params} {s : State} {j : SwdJunk} (hp : s.params = p)
    (h : s.meets ((received 1 j.turn2).andThen (idleX p j))) :
    swdTurnIdle s = .ok () (s.after ((received 1 j.turn2).andThen (idleX p j))) := by
  obtain ⟨h1, h2⟩ := meets_andThen.mp h
  rw [swdTurnIdle, trn, recvBits_received (by decide) h1, Run.bind_ok, swdIdle_idleX (by simpa using hp) h2, after_after]

theorem swdRequestPhase_headX {s : State} {apndp rnw : Bool} {a : BitVec 2} {ack : BitVec 3} {j : SwdJunk}
    (h : s.meets (swdHeadX apndp rnw a ack j)) :
    swdRequestPhase apndp rnw a s = .ok ack (s.after (swdHeadX apndp rnw a ack j)) := by
  obtain ⟨h12, h3⟩ := meets_andThen.mp h
  obtain ⟨h1, h2⟩ := meets_andThen.mp h12
  rw [swdRequestPhase, sendBits_sent h1, Run.bind_ok, trn, recvBits_received (by decide) h2, Run.bind_ok, after_after,
    recvBits_received (by decide) h3, after_after]
  rfl

theorem swdData_low (d : Word) : (swdData d).extractLsb' 0 32 = d := by
  apply BitVec.eq_of_getLsbD_eq
  intro i hi
  rw [swdData, BitVec.getLsbD_extractLsb', BitVec.getLsbD_append]
  simp [hi]

theorem swdData_ok (d : Word) : swdDataOk (swdData d) = true := by
  unfold swdDataOk
  rw [swdData_low, swdData, BitVec.getLsbD_append]
  simp

theorem swdData_bad (d : Word) : swdDataOk (BitVec.ofBool (!parity d) ++ d) = false := by
  have e : (BitVec.ofBool (!parity d) ++ d).extractLsb' 0 32 = d := by
    apply BitVec.eq_of_getLsbD_eq
    intro i hi
    rw [BitVec.getLsbD_extractLsb', BitVec.getLsbD_append]
    simp [hi]
  rw [swdDataOk, e, BitVec.getLsbD_append]
  simp

/-- The word received is what its parity test lets through, or a parity error (40_swd_link.md R124). -/
theorem swdAttempt_readX {p : Params} {s : State} {apndp : Bool} {a : BitVec 2} {v : Word} {w : BitVec 33} {j : SwdJunk}
    (hp : s.params = p) (h : s.meets (swdReadX p apndp a w j)) :
    swdAttempt apndp true a v s =
      if swdDataOk w then .ok (w.extractLsb' 0 32) (s.after (swdReadX p apndp a w j))
      else .stop (.fail .parityError) (s.after (swdReadX p apndp a w j)) := by
  rw [swdReadX, andThen_assoc] at h
  obtain ⟨h12, h3⟩ := meets_andThen.mp h
  obtain ⟨h1, h2⟩ := meets_andThen.mp h12
  rw [swdAttempt, swdRequestPhase_headX h1, inAttempt_ok, Run.bind_ok]
  simp only [show swdAck 0b001 = .ok from rfl, if_true]
  rw [swdReadPhase, recvBits_received (by decide) h2, Run.bind_ok, after_after,
    swdTurnIdle_X (by simpa using hp) h3, Run.bind_ok, after_after]
  rw [swdReadX, andThen_assoc]
  split <;> rfl

theorem swdAttempt_writeX {p : Params} {s : State} {apndp : Bool} {a : BitVec 2} {v : Word} {j : SwdJunk}
    (hp : s.params = p) (h : s.meets (swdWriteX p apndp a v j)) :
    swdAttempt apndp false a v s = .ok 0 (s.after (swdWriteX p apndp a v j)) := by
  obtain ⟨h123, h4⟩ := meets_andThen.mp h
  obtain ⟨h12, h3⟩ := meets_andThen.mp h123
  obtain ⟨h1, h2⟩ := meets_andThen.mp h12
  rw [swdAttempt, swdRequestPhase_headX h1, inAttempt_ok, Run.bind_ok]
  simp only [show swdAck 0b001 = .ok from rfl, Bool.false_eq_true, if_false]
  rw [swdWritePhase, trn, recvBits_received (by decide) h2, Run.bind_ok, after_after, sendBits_sent h3, Run.bind_ok,
    after_after, swdIdle_idleX (by simpa using hp) h4, Run.bind_ok, after_after]
  rfl

/-- An attempt answered WAIT or FAULT (40_swd_link.md R126). -/
theorem swdAttempt_waitX {p : Params} {s : State} {apndp rnw : Bool} {a : BitVec 2} {v : Word} {j : SwdJunk}
    (hp : s.params = p) (h : s.meets (swdStopX p apndp rnw a 0b010 j)) :
    swdAttempt apndp rnw a v s = .stop .wait (s.after (swdStopX p apndp rnw a 0b010 j)) := by
  rw [swdStopX, andThen_assoc] at h ⊢
  obtain ⟨h1, h2⟩ := meets_andThen.mp h
  rw [swdAttempt, swdRequestPhase_headX h1, inAttempt_ok, Run.bind_ok]
  simp only [show swdAck 0b010 = .wait from rfl]
  rw [swdTurnIdle_X (by simpa using hp) h2, inAttempt_ok, Run.bind_ok, after_after]

theorem swdAttempt_faultX {p : Params} {s : State} {apndp rnw : Bool} {a : BitVec 2} {v : Word} {j : SwdJunk}
    (hp : s.params = p) (h : s.meets (swdStopX p apndp rnw a 0b100 j)) :
    swdAttempt apndp rnw a v s = .stop (.fail .fault) (s.after (swdStopX p apndp rnw a 0b100 j)) := by
  rw [swdStopX, andThen_assoc] at h ⊢
  obtain ⟨h1, h2⟩ := meets_andThen.mp h
  rw [swdAttempt, swdRequestPhase_headX h1, inAttempt_ok, Run.bind_ok]
  simp only [show swdAck 0b100 = .fault from rfl]
  rw [swdTurnIdle_X (by simpa using hp) h2, inAttempt_ok, Run.bind_ok, after_after]

/-- An attempt answered with no defined acknowledge stops after it (40_swd_link.md R127). -/
theorem swdAttempt_invalidX {s : State} {apndp rnw : Bool} {a : BitVec 2} {v : Word} {k : BitVec 3} {j : SwdJunk}
    (hk : swdAck k = .invalid k) (h : s.meets (swdHeadX apndp rnw a k j)) :
    swdAttempt apndp rnw a v s = .stop (.fail (.invalidAck k)) (s.after (swdHeadX apndp rnw a k j)) := by
  rw [swdAttempt, swdRequestPhase_headX h, inAttempt_ok, Run.bind_ok]
  simp only [hk]

/-- WAIT attempts within the bound leave the loop with so many retries fewer (40_swd_link.md R129). -/
theorem swdRetry_waitsX {p : Params} {apndp rnw : Bool} {a : BitVec 2} {v : Word} (total : Nat) (js : List SwdJunk) :
    ∀ {s : State} {left : Nat}, s.params = p → js.length ≤ left → s.meets (swdWaitsX p apndp rnw a js) →
      swdRetry total apndp rnw a v left s =
        swdRetry total apndp rnw a v (left - js.length) (s.after (swdWaitsX p apndp rnw a js)) := by
  induction js with
  | nil =>
    intro s left _ _ h
    rw [swdWaitsX, after_none]
    rfl
  | cons j js ih =>
    intro s left hp hl h
    obtain ⟨n, rfl⟩ : ∃ n, left = n + 1 := ⟨left - 1, by simp at hl; omega⟩
    obtain ⟨h1, h2⟩ := meets_andThen.mp h
    rw [swdRetry_eq, swdAttempt_waitX hp h1]
    simp only [List.length_cons, swdWaitsX]
    rw [ih (left := n) (by simpa using hp) (by simpa using hl) h2, Nat.add_sub_add_right, after_after]

/-- A read transaction that ends with OK returns its data (40_swd_link.md R124, R129). -/
theorem swdXfer_readOk {p : Params} {s : State} {apndp : Bool} {a : BitVec 2} {v d : Word} {t : SwdTry}
    (hp : s.params = p) (hf : t.fits p) (h : s.meets (swdReadOkX p apndp a d t)) :
    swdXfer apndp true a v s = .ok d (s.after (swdReadOkX p apndp a d t)) := by
  obtain ⟨h1, h2⟩ := meets_andThen.mp h
  rw [swdXfer, swdRetry_waitsX _ t.waits hp (by rw [hp]; exact hf) h1, swdRetry_eq,
    swdAttempt_readX (by simpa using hp) h2, if_pos (swdData_ok d), swdData_low, after_after]
  rfl

/-- A write transaction that ends with OK (40_swd_link.md R125, R129). -/
theorem swdXfer_writeOk {p : Params} {s : State} {apndp : Bool} {a : BitVec 2} {v : Word} {t : SwdTry}
    (hp : s.params = p) (hf : t.fits p) (h : s.meets (swdWriteOkX p apndp a v t)) :
    swdXfer apndp false a v s = .ok 0 (s.after (swdWriteOkX p apndp a v t)) := by
  obtain ⟨h1, h2⟩ := meets_andThen.mp h
  rw [swdXfer, swdRetry_waitsX _ t.waits hp (by rw [hp]; exact hf) h1, swdRetry_eq,
    swdAttempt_writeX (by simpa using hp) h2, after_after]
  rfl

/-- A transaction that ends with FAULT (40_swd_link.md R126, R129). -/
theorem swdXfer_fault {p : Params} {s : State} {apndp rnw : Bool} {a : BitVec 2} {v : Word} {t : SwdTry}
    (hp : s.params = p) (hf : t.fits p) (h : s.meets (swdFaultX p apndp rnw a t)) :
    swdXfer apndp rnw a v s = .stop .fault (s.after (swdFaultX p apndp rnw a t)) := by
  obtain ⟨h1, h2⟩ := meets_andThen.mp h
  rw [swdXfer, swdRetry_waitsX _ t.waits hp (by rw [hp]; exact hf) h1, swdRetry_eq,
    swdAttempt_faultX (by simpa using hp) h2, after_after]
  rfl

/-- A read transaction whose data phase has the wrong parity: all of it clocked, nothing returned (40_swd_link.md R124). -/
theorem swdXfer_parity {p : Params} {s : State} {apndp : Bool} {a : BitVec 2} {v : Word} {w : BitVec 33} {t : SwdTry}
    (hp : s.params = p) (hf : t.fits p) (hw : swdDataOk w = false) (h : s.meets (swdDataX p apndp a w t)) :
    swdXfer apndp true a v s = .stop .parityError (s.after (swdDataX p apndp a w t)) := by
  obtain ⟨h1, h2⟩ := meets_andThen.mp h
  rw [swdXfer, swdRetry_waitsX _ t.waits hp (by rw [hp]; exact hf) h1, swdRetry_eq,
    swdAttempt_readX (by simpa using hp) h2, if_neg (by simp [hw]), after_after]
  rfl

/-- A transaction answered with no defined acknowledge (40_swd_link.md R127). -/
theorem swdXfer_invalid {p : Params} {s : State} {apndp rnw : Bool} {a : BitVec 2} {v : Word} {k : BitVec 3}
    {t : SwdTry} (hp : s.params = p) (hf : t.fits p) (hk : swdAck k = .invalid k)
    (h : s.meets (swdInvalidX p apndp rnw a k t)) :
    swdXfer apndp rnw a v s = .stop (.invalidAck k) (s.after (swdInvalidX p apndp rnw a k t)) := by
  obtain ⟨h1, h2⟩ := meets_andThen.mp h
  rw [swdXfer, swdRetry_waitsX _ t.waits hp (by rw [hp]; exact hf) h1, swdRetry_eq, swdAttempt_invalidX hk h2,
    after_after]
  rfl

/-- A transaction whose every attempt is answered WAIT ends with Timeout(WAIT_RETRIES) (40_swd_link.md R129). -/
theorem swdXfer_timeout {p : Params} {s : State} {apndp rnw : Bool} {a : BitVec 2} {v : Word} {js : List SwdJunk}
    (hp : s.params = p) (hl : js.length = p.waitRetries + 1) (h : s.meets (swdWaitsX p apndp rnw a js)) :
    swdXfer apndp rnw a v s = .stop (.timeout p.waitRetries) (s.after (swdWaitsX p apndp rnw a js)) := by
  rw [swdXfer, hp]
  generalize p.waitRetries = total at hl ⊢
  suffices ∀ (js : List SwdJunk) (s : State) (left : Nat), s.params = p → js.length = left + 1 →
      s.meets (swdWaitsX p apndp rnw a js) →
      swdRetry total apndp rnw a v left s =
        .stop (.timeout total) (s.after (swdWaitsX p apndp rnw a js)) from this js s total hp hl h
  intro js
  induction js with
  | nil => intro s left _ hl; simp at hl
  | cons j js ih =>
    intro s left hp hl h
    obtain ⟨h1, h2⟩ := meets_andThen.mp h
    rw [swdRetry_eq, swdAttempt_waitX hp h1]
    cases left with
    | zero =>
      have : js = [] := by simpa using hl
      subst this
      simp [swdWaitsX]
    | succ n =>
      simp only [swdWaitsX]
      rw [ih _ n (by simpa using hp) (by simpa using hl) h2, after_after]

/-- A transaction whose first call the transport fails (00_scope.md R15, 40_swd_link.md R120). -/
theorem swdXfer_lost {s : State} {apndp rnw : Bool} {a : BitVec 2} {v : Word} {lost : Answer}
    (hn : ∀ bits, lost ≠ .ok bits) (h : s.meets (swdLostX apndp rnw a lost)) :
    swdXfer apndp rnw a v s = .stop (lostAs lost) (s.after (swdLostX apndp rnw a lost)) := by
  rw [swdXfer, swdRetry_eq, swdAttempt, swdRequestPhase, sendBits, transportCall_lost _ hn h rfl]
  rfl

/-! ## JTAG -/

theorem irScan_X {s : State} {ir : BitVec 4} {tdo : Wire} (h : s.meets (irScanX ir tdo)) (ht : s.st.tap = some .rti) :
    irScan ir s = .ok () ((s.after (irScanX ir tdo)).withBlock { s.st with irCache := some ir }) := by
  unfold irScan
  rw [show jtagSeq true irScanLen irScanTms (irScanTdi ir) s = .ok tdo (s.after (irScanX ir tdo)) from
    jtagSeq_jtagX (n := 10) h ht (by decide), Run.bind_ok, setIr_eq, after_st]

theorem ensureIr_X {c : Option (BitVec 4)} {s : State} {ir : BitVec 4} {tdo : Wire} (hc : s.st.irCache = c)
    (h : s.meets (ensureIrX c ir tdo)) (ht : s.st.tap = some .rti) :
    ensureIr ir s = .ok () ((s.after (ensureIrX c ir tdo)).withBlock { s.st with irCache := some ir }) := by
  subst hc
  unfold ensureIr ensureIrX at *
  split at h
  · rename_i hc
    rw [if_pos hc, if_pos hc, after_none, ← hc]
    rfl
  · rename_i hc
    rw [if_neg hc, if_neg hc, irScan_X h ht]

/-- No scan where the code is held (41_jtag_tap.md R169). -/
theorem ensureIr_held {s : State} {ir : BitVec 4} (h : s.st.irCache = some ir) : ensureIr ir s = .ok () s := if_pos h

theorem ensureIr_other {s : State} {ir : BitVec 4} (h : s.st.irCache ≠ some ir) : ensureIr ir s = irScan ir s := if_neg h

theorem drScanOut_tdo35 (out : BitVec 35) (junk : Wire) : drScanOut 35 (tdo35 out junk) = out := by
  apply BitVec.eq_of_getLsbD_eq
  intro i hi
  have h3 : ¬ 3 + i < 3 := by omega
  rw [drScanOut, tdo35, BitVec.getLsbD_setWidth, BitVec.getLsbD_ushiftRight, BitVec.getLsbD_append,
    BitVec.getLsbD_append]
  simp [hi]

theorem drScan_dr35X {s : State} {din out : BitVec 35} {junk : Wire} (h : s.meets (dr35X din out junk))
    (ht : s.st.tap = some .rti) : drScan din s = .ok out (s.after (dr35X din out junk)) := by
  unfold drScan
  rw [show jtagSeq true (drScanLen 35) (drScanTms 35) (drScanTdi din) s =
      .ok (tdo35 out junk) (s.after (dr35X din out junk)) from
    jtagSeq_jtagX (n := 40) (tms := 0x6000000001) h ht (by decide), Run.bind_ok, drScanOut_tdo35]

theorem drScanOut_tdo32 (out : Word) (junk : Wire) : drScanOut 32 (tdo32 out junk) = out := by
  apply BitVec.eq_of_getLsbD_eq
  intro i hi
  have h3 : ¬ 3 + i < 3 := by omega
  rw [drScanOut, tdo32, BitVec.getLsbD_setWidth, BitVec.getLsbD_ushiftRight, BitVec.getLsbD_append,
    BitVec.getLsbD_append]
  simp [hi]

theorem drScan_dr32X {s : State} {out : Word} {junk : Wire} (h : s.meets (dr32X out junk))
    (ht : s.st.tap = some .rti) : drScan (0 : BitVec 32) s = .ok out (s.after (dr32X out junk)) := by
  unfold drScan
  rw [show jtagSeq true (drScanLen 32) (drScanTms 32) (drScanTdi (0 : BitVec 32)) s =
      .ok (tdo32 out junk) (s.after (dr32X out junk)) from
    jtagSeq_jtagX (n := 37) (tms := 0xC00000001) (tdi := 0) h ht (by decide), Run.bind_ok, drScanOut_tdo32]

theorem xpaccAck_capture (d : Word) (k : BitVec 3) : xpaccAck (d ++ k) = k := by
  apply BitVec.eq_of_getLsbD_eq
  intro i hi
  rw [xpaccAck, BitVec.getLsbD_extractLsb', BitVec.getLsbD_append]
  simp [hi]

theorem xpaccData_capture (d : Word) (k : BitVec 3) : xpaccData (d ++ k) = d := by
  apply BitVec.eq_of_getLsbD_eq
  intro i hi
  rw [xpaccData, BitVec.getLsbD_extractLsb', BitVec.getLsbD_append]
  simp [hi]

theorem xpaccRetry_waitsX {rnw : Bool} {a : BitVec 2} {data : Word} (total : Nat) (cs : List Capture) :
    ∀ {s : State} {left : Nat}, cs.length ≤ left → s.st.tap = some .rti → s.meets (xpaccWaitsX rnw a data cs) →
      xpaccRetry total rnw a data left s =
        xpaccRetry total rnw a data (left - cs.length) (s.after (xpaccWaitsX rnw a data cs)) := by
  induction cs with
  | nil =>
    intro s left _ _ h
    rw [xpaccWaitsX, after_none]
    rfl
  | cons c cs ih =>
    intro s left hl ht h
    obtain ⟨n, rfl⟩ : ∃ n, left = n + 1 := ⟨left - 1, by simp at hl; omega⟩
    obtain ⟨h1, h2⟩ := meets_andThen.mp h
    rw [xpaccRetry_eq, drScan_dr35X h1 ht, Run.bind_ok, xpaccAck_capture]
    simp only [show jtagAck 0b001#3 = .wait from rfl, List.length_cons, xpaccWaitsX]
    rw [ih (left := n) (by simpa using hl) (by simpa using ht) h2, Nat.add_sub_add_right, after_after]

/-- A DPACC or APACC transaction that ends with OK/FAULT returns what it captured (41_jtag_tap.md R170). -/
theorem jtagXpacc_ok {s : State} {rnw : Bool} {a : BitVec 2} {data d : Word} {t : JtagTry} (hf : t.fits s.params)
    (ht : s.st.tap = some .rti) (h : s.meets (xpaccOkX rnw a data d t)) :
    jtagXpacc rnw a data s = .ok d (s.after (xpaccOkX rnw a data d t)) := by
  obtain ⟨h1, h2⟩ := meets_andThen.mp h
  rw [jtagXpacc, xpaccRetry_waitsX _ t.waits hf ht h1, xpaccRetry_eq, drScan_dr35X h2 (by simpa using ht), Run.bind_ok,
    xpaccAck_capture, xpaccData_capture, after_after]
  rfl

/-- A DPACC or APACC transaction whose every scan captures WAIT (41_jtag_tap.md R170). -/
theorem jtagXpacc_timeout {s : State} {rnw : Bool} {a : BitVec 2} {data : Word} {cs : List Capture}
    (hl : cs.length = s.params.waitRetries + 1) (ht : s.st.tap = some .rti) (h : s.meets (xpaccWaitsX rnw a data cs)) :
    jtagXpacc rnw a data s = .stop (.timeout s.params.waitRetries) (s.after (xpaccWaitsX rnw a data cs)) := by
  unfold jtagXpacc
  generalize s.params.waitRetries = total at hl ⊢
  suffices ∀ (cs : List Capture) (s : State) (left : Nat), cs.length = left + 1 → s.st.tap = some .rti →
      s.meets (xpaccWaitsX rnw a data cs) →
      xpaccRetry total rnw a data left s =
        .stop (.timeout total) (s.after (xpaccWaitsX rnw a data cs)) from this cs s total hl ht h
  intro cs
  induction cs with
  | nil => intro s left hl; simp at hl
  | cons c cs ih =>
    intro s left hl ht h
    obtain ⟨h1, h2⟩ := meets_andThen.mp h
    rw [xpaccRetry_eq, drScan_dr35X h1 ht, Run.bind_ok, xpaccAck_capture]
    simp only [show jtagAck 0b001#3 = .wait from rfl]
    cases left with
    | zero =>
      have : cs = [] := by simpa using hl
      subst this
      simp [xpaccWaitsX]
    | succ n =>
      simp only [xpaccWaitsX]
      rw [ih _ n (by simpa using hl) (by simpa using ht) h2, after_after]

/-- A DPACC or APACC transaction whose last scan captures no defined acknowledge (41_jtag_tap.md R170). -/
theorem jtagXpacc_invalid {s : State} {rnw : Bool} {a : BitVec 2} {data d : Word} {k : BitVec 3} {t : JtagTry}
    (hf : t.fits s.params) (ht : s.st.tap = some .rti) (hk : jtagAck k = .invalid k)
    (h : s.meets (xpaccInvalidX rnw a data d k t)) :
    jtagXpacc rnw a data s = .stop (.invalidAck k) (s.after (xpaccInvalidX rnw a data d k t)) := by
  obtain ⟨h1, h2⟩ := meets_andThen.mp h
  rw [jtagXpacc, xpaccRetry_waitsX _ t.waits hf ht h1, xpaccRetry_eq, drScan_dr35X h2 (by simpa using ht), Run.bind_ok,
    xpaccAck_capture, after_after]
  simp only [hk]
  rfl

/-- An IR scan that the transport fails: the cache keeps its code until the error is taken (00_scope.md R15). -/
theorem irScan_lost {s : State} {ir : BitVec 4} {lost : Answer} (hn : ∀ bits, lost ≠ .ok bits)
    (h : s.meets (irLostX ir lost)) :
    irScan ir s = .stop (lostAs lost) ((s.after (irLostX ir lost)).withBlock { s.st with tap := none }) := by
  rw [irScan, jtagSeq, transportCall_lost _ hn h
    (by cases lost with | ok b => exact absurd rfl (hn b) | disconnected | unsupported => rfl)]
  simp only [Run.bind_stop, setTap_eq, after_st]
  rfl

/-- An ABORT scan that the transport fails (00_scope.md R15). -/
theorem abortScan_lost {s : State} {v : Word} {lost : Answer} (hn : ∀ bits, lost ≠ .ok bits)
    (h : s.meets (abortLostX v lost)) :
    drScan (abortIn v) s = .stop (lostAs lost) ((s.after (abortLostX v lost)).withBlock { s.st with tap := none }) := by
  rw [drScan, jtagSeq, transportCall_lost _ hn h
    (by cases lost with | ok b => exact absurd rfl (hn b) | disconnected | unsupported => rfl)]
  simp only [Run.bind_stop, setTap_eq, after_st]
  rfl

/-- A DPACC or APACC transaction whose first scan the transport fails (00_scope.md R15, 41_jtag_tap.md R163). -/
theorem jtagXpacc_lost {s : State} {rnw : Bool} {a : BitVec 2} {data : Word} {lost : Answer}
    (hn : ∀ bits, lost ≠ .ok bits) (h : s.meets (jtagLostX rnw a data lost)) :
    jtagXpacc rnw a data s = .stop (lostAs lost)
      ((s.after (jtagLostX rnw a data lost)).withBlock { s.st with tap := none }) := by
  rw [jtagXpacc, xpaccRetry_eq, drScan, jtagSeq, transportCall_lost _ hn h
    (by cases lost with | ok b => exact absurd rfl (hn b) | disconnected | unsupported => rfl)]
  simp only [Run.bind_stop, setTap_eq, after_st]
  rfl

/-- `JtagReadDp(a)` returns what its RDBUFF scan captured (41_jtag_tap.md R180). -/
theorem jtagReadDp_X {c : Option (BitVec 4)} {s : State} {a : BitVec 2} {prev d : Word} {ir : Wire} {t u : JtagTry}
    (hc : s.st.irCache = c) (ht : t.fits s.params) (hu : u.fits s.params) (hr : s.st.tap = some .rti)
    (h : s.meets (jtagReadDpX c a prev d ir t u)) :
    jtagReadDp a s = .ok d ((s.after (jtagReadDpX c a prev d ir t u)).withBlock { s.st with irCache := some 0xA }) := by
  obtain ⟨h12, h3⟩ := meets_andThen.mp h
  obtain ⟨h1, h2⟩ := meets_andThen.mp h12
  unfold jtagReadDp irCodeDpacc jtagRdbuff aRdbuff
  rw [ensureIr_X hc h1 hr, Run.bind_ok, jtagXpacc_ok (by simpa using ht) (by exact hr) (by simpa using h2), Run.bind_ok,
    withBlock_after, after_after, jtagXpacc_ok (by simpa using hu) (by exact hr) (by simpa using h3), withBlock_after,
    after_after]
  rfl

/-- `JtagWriteDp(a, v)` (41_jtag_tap.md R181). -/
theorem jtagWriteDp_X {c : Option (BitVec 4)} {s : State} {a : BitVec 2} {v prev d : Word} {ir : Wire} {t u : JtagTry}
    (hc : s.st.irCache = c) (ht : t.fits s.params) (hu : u.fits s.params) (hr : s.st.tap = some .rti)
    (h : s.meets (jtagWriteDpX c a v prev d ir t u)) :
    jtagWriteDp a v s = .ok 0
      ((s.after (jtagWriteDpX c a v prev d ir t u)).withBlock { s.st with irCache := some 0xA }) := by
  obtain ⟨h12, h3⟩ := meets_andThen.mp h
  obtain ⟨h1, h2⟩ := meets_andThen.mp h12
  unfold jtagWriteDp irCodeDpacc jtagRdbuff aRdbuff
  rw [ensureIr_X hc h1 hr, Run.bind_ok, jtagXpacc_ok (by simpa using ht) (by exact hr) (by simpa using h2), Run.bind_ok,
    withBlock_after, after_after, jtagXpacc_ok (by simpa using hu) (by exact hr) (by simpa using h3), withBlock_after,
    after_after]
  rfl

/-- `JtagAbort(v)` (41_jtag_tap.md R172). -/
theorem jtagAbort_X {c : Option (BitVec 4)} {s : State} {v : Word} {ir : Wire} {out : BitVec 35} {junk : Wire}
    (hc : s.st.irCache = c) (hr : s.st.tap = some .rti) (h : s.meets (jtagAbortX c v ir out junk)) :
    jtagAbort v s = .ok 0 ((s.after (jtagAbortX c v ir out junk)).withBlock { s.st with irCache := some 0x8 }) := by
  obtain ⟨h1, h2⟩ := meets_andThen.mp h
  unfold jtagAbort irCodeAbort
  rw [ensureIr_X hc h1 hr, Run.bind_ok, drScan_dr35X (by simpa using h2) (by exact hr), withBlock_after, after_after]
  rfl

/-- `JtagIdcode()` (41_jtag_tap.md R173). -/
theorem jtagIdcode_X {c : Option (BitVec 4)} {s : State} {id : Word} {ir junk : Wire} (hc : s.st.irCache = c)
    (hr : s.st.tap = some .rti) (h : s.meets (jtagIdcodeX c id ir junk)) :
    jtagIdcode s = .ok id ((s.after (jtagIdcodeX c id ir junk)).withBlock { s.st with irCache := some 0xE }) := by
  obtain ⟨h1, h2⟩ := meets_andThen.mp h
  unfold jtagIdcode irCodeIdcode
  rw [ensureIr_X hc h1 hr, Run.bind_ok, drScan_dr32X (by simpa using h2) (by exact hr), withBlock_after, after_after]
  rfl

/-- The scans of an AP transaction: the second captures the result (41_jtag_tap.md R182, R183). -/
theorem jtagApScans_X {c : Option (BitVec 4)} {s : State} {rnw : Bool} {a : BitVec 2} {v prev d : Word} {irB irA : Wire}
    {t u : JtagTry} (hc : s.st.irCache = c) (ht : t.fits s.params) (hu : u.fits s.params) (hr : s.st.tap = some .rti)
    (h : s.meets (jtagApX c rnw a v prev d irB irA t u)) :
    jtagApScans rnw a v s = .ok d
      ((s.after (jtagApX c rnw a v prev d irB irA t u)).withBlock { s.st with irCache := some 0xA }) := by
  obtain ⟨h123, h4⟩ := meets_andThen.mp h
  obtain ⟨h12, h3⟩ := meets_andThen.mp h123
  obtain ⟨h1, h2⟩ := meets_andThen.mp h12
  unfold jtagApScans irCodeApacc irCodeDpacc jtagRdbuff aRdbuff
  rw [ensureIr_X hc h1 hr, Run.bind_ok, jtagXpacc_ok (by simpa using ht) (by exact hr) (by simpa using h2), Run.bind_ok,
    withBlock_after, after_after, ensureIr_X (c := some 0xB) (tdo := irA) rfl (by simpa [ensureIrX] using h3)
      (by exact hr), Run.bind_ok, jtagXpacc_ok (by simpa using hu) (by exact hr) (by simpa [ensureIrX] using h4)]
  simp [jtagApX, ensureIrX]

/-- The internal SELECT write has no flush (41_jtag_tap.md R184). -/
theorem jtagSelect_X {c : Option (BitVec 4)} {s : State} {sel prev : Word} {ir : Wire} {t : JtagTry}
    (hc : s.st.irCache = c) (ht : t.fits s.params) (hr : s.st.tap = some .rti)
    (h : s.meets (jtagSelectX c sel prev ir t)) :
    jtagSelect sel s = .ok prev
      ((s.after (jtagSelectX c sel prev ir t)).withBlock { s.st with irCache := some 0xA }) := by
  obtain ⟨h1, h2⟩ := meets_andThen.mp h
  unfold jtagSelect irCodeDpacc aSelect
  rw [ensureIr_X hc h1 hr, Run.bind_ok, jtagXpacc_ok (by simpa using ht) (by exact hr) (by simpa using h2),
    withBlock_after, after_after]
  rfl

/-- TapReset from any knowledge of the TAP (41_jtag_tap.md R165). -/
theorem tapReset_X {s : State} {tdo : Wire} (hc : s.params.caps.jtag = true) (h : s.meets (tapResetX tdo)) :
    tapReset s = .ok () ((s.after (tapResetX tdo)).withBlock { s.st with tap := some .rti, irCache := none }) := by
  have key : ∀ x : Option TapState, trackTap x (tmsBits tapResetLen tapResetTms) = some .rti := by
    intro x; rcases x with _ | x
    · decide
    · cases x <;> decide
  rw [tapReset, jtagSeq, hc, transportCall_ok _ h rfl]
  simp only [Run.bind_ok, key, setTap_eq, setIr_eq, after_st, withBlock_st]
  rfl

end Sys2Proof.Machine
end

