-- ==== Sys2Proof/Laws/Protocol.lean ====
section
/-! SUPPORT. What each operation of the register protocol engine can do, said once: the invariants of 42_dpap_commands.md
R201 it keeps, the calls it makes, and what it leaves alone. -/

namespace Sys2Proof.Machine

/-! ## Link operations seen from the protocol engine -/

/-- How an operation of at most n calls that ends in a link result ends, seen from above: it keeps the session's fields. -/
structure LinkKeeps {α : Type} (own : Word) (n : Nat) (s : State) (r : Run LinkFail α) : Prop where
  grows : Grows own n s r.state
  link : r.state.st.link = s.st.link
  proto : r.state.st.proto = s.st.proto
  select : r.state.st.selectCache = s.st.selectCache
  pending : r.state.st.clearPending = s.st.clearPending
  idcode : r.state.st.dpIdcode = s.st.dpIdcode
  idle : s.st.tap = some .rti →
    (∃ t, r = .stop .disconnected t) ∨ (∃ t, r = .stop .unsupported t) ∨ r.state.st.tap = some .rti

theorem LinkEnds.keeps {α : Type} {own : Word} {n : Nat} {s : State} {r : Run LinkFail α} (h : LinkEnds own n s r) :
    LinkKeeps own n s r := by
  obtain ⟨g, ⟨tap, ir, hb⟩, hi⟩ := h
  exact ⟨g, by rw [hb], by rw [hb], by rw [hb], by rw [hb], by rw [hb], hi⟩

/-- A poll reads CTRL/STAT and observes what it read (60_exceptions.md R263). -/
theorem poll_keeps (own : Word) (s : State) : LinkKeeps own (xferCalls s.params) s (poll s) := by
  have h := (dpRead_ends own aCtrlStat s).keeps
  unfold poll
  cases hx : dpRead aCtrlStat s with
  | stop e t => rw [hx] at h; exact ⟨h.grows, h.link, h.proto, h.select, h.pending, h.idcode, fun k => by simpa using h.idle k⟩
  | ok v t =>
    rw [hx] at h
    refine ⟨h.grows.of_eq rfl rfl rfl, h.link, h.proto, h.select, h.pending, h.idcode, fun k => .inr (.inr ?_)⟩
    simpa using h.idle k

/-! ## Sessions -/

/-- A session in progress: the link is Ready and the invariants hold (42_dpap_commands.md R201). -/
structure Session (s : State) : Prop where
  link : s.st.link = .ready
  inv : BlockInv s.st

/-- A session with no clear pending: the state in which a command's body runs. -/
structure Live (s : State) : Prop extends Session s where
  clear : s.st.clearPending = false

/-- The held SELECT is as it was, or the event has been emitted since (60_exceptions.md R268). -/
def Signalled (s t : State) : Prop :=
  t.st.selectCache = s.st.selectCache ∨ ∃ l, t.trace = s.trace ++ l ∧ .apShadowInvalidate ∈ l

/-- What every part of a command but CONNECT does: at most n plain calls; protocol and identity stay. -/
structure Went (own : Word) (n : Nat) (s t : State) : Prop extends Grows own n s t where
  proto : t.st.proto = s.st.proto
  idcode : t.st.dpIdcode = s.st.dpIdcode

/-- How an operation that ends in an error ends. `P` is what the invariants need to hold before it; it makes at most n
calls if it goes on and at most n + c if it stops. -/
structure Ends {α : Type} (own : Word) (P : Prop) (n c : Nat) (s : State) (r : Run Error α) : Prop where
  went : Went own (n + c) s r.state
  signal : Signalled s r.state ∨ r.state.st.link = .disconnected
  inv : P → BlockInv r.state.st
  on : ∀ a t, r = .ok a t → Went own n s t ∧ Signalled s t ∧ (P → Live t)

theorem Signalled.refl (s : State) : Signalled s s := .inl rfl

theorem Signalled.pulsed {s t : State} (l m : List Obs) (h : t.trace = s.trace ++ l ++ .apShadowInvalidate :: m) :
    Signalled s t := .inr ⟨l ++ .apShadowInvalidate :: m, by rw [h, List.append_assoc], by simp⟩

/-- A later signal counts, and so does an earlier one if the trace only grew. -/
theorem Signalled.trans {own : Word} {n m : Nat} {s t u : State} (h : Signalled s t) (k : Signalled t u)
    (gh : Grows own n s t) (gk : Grows own m t u) : Signalled s u := by
  obtain ⟨lh, eh, -⟩ := gh.trace
  obtain ⟨lk, ek, -⟩ := gk.trace
  have eu : u.trace = s.trace ++ (lh ++ lk) := by rw [ek, eh, List.append_assoc]
  have cut {t₁ t₂ : State} {l l' : List Obs} (e : t₂.trace = t₁.trace ++ l) (e' : t₂.trace = t₁.trace ++ l') : l = l' :=
    List.append_cancel_left (e ▸ e')
  rcases h with h | ⟨l, e, hm⟩
  · rcases k with k | ⟨l, e, hm⟩
    · exact .inl (k.trans h)
    · exact .inr ⟨_, eu, List.mem_append_right _ (cut ek e ▸ hm)⟩
  · exact .inr ⟨_, eu, List.mem_append_left _ (cut eh e ▸ hm)⟩

/-- An earlier signal counts whatever happens later. -/
theorem Signalled.grow {own : Word} {m : Nat} {s t u : State} (h : ∃ l, t.trace = s.trace ++ l ∧ .apShadowInvalidate ∈ l)
    (gk : Grows own m t u) : Signalled s u := by
  obtain ⟨l, e, hm⟩ := h
  obtain ⟨lk, ek, -⟩ := gk.trace
  exact .inr ⟨l ++ lk, by rw [ek, e, List.append_assoc], List.mem_append_left _ hm⟩

theorem Went.refl (own : Word) (n : Nat) (s : State) : Went own n s s := ⟨.refl own n s, rfl, rfl⟩

theorem Went.trans {own : Word} {n m : Nat} {s t u : State} (h : Went own n s t) (k : Went own m t u) : Went own (n + m) s u :=
  ⟨h.toGrows.trans k.toGrows, k.proto.trans h.proto, k.idcode.trans h.idcode⟩

theorem Went.le {own : Word} {n m : Nat} {s t : State} (h : Went own n s t) (hn : n ≤ m) : Went own m s t :=
  ⟨h.toGrows.le hn, h.proto, h.idcode⟩

theorem Went.of_eq {own : Word} {n : Nat} {s t u : State} (h : Went own n s t) (hp : u.params = t.params)
    (hq : u.port = t.port) (ht : u.trace = t.trace) (hb : u.st.proto = t.st.proto) (hi : u.st.dpIdcode = t.st.dpIdcode) :
    Went own n s u :=
  ⟨h.toGrows.of_eq hp hq ht, hb.trans h.proto, hi.trans h.idcode⟩

theorem Went.emitInvalidate {own : Word} {n : Nat} {s t : State} (h : Went own n s t) : Went own n s (emitInvalidate t) :=
  ⟨h.toGrows.emitInvalidate, h.proto, h.idcode⟩

theorem LinkKeeps.went {α : Type} {own : Word} {n : Nat} {s : State} {r : Run LinkFail α} (h : LinkKeeps own n s r) :
    Went own n s r.state := ⟨h.grows, h.proto, h.idcode⟩

/-- The event just emitted is a signal. -/
theorem signalled_emit {own : Word} {n : Nat} {s t : State} (g : Grows own n s t) : Signalled s (emitInvalidate t) := by
  obtain ⟨l, e, -⟩ := g.trace
  exact .inr ⟨l ++ [.apShadowInvalidate], by simp [emitInvalidate, emit, e], by simp⟩

theorem Ends.le {α : Type} {own : Word} {P : Prop} {n c n' c' : Nat} {s : State} {r : Run Error α} (h : Ends own P n c s r)
    (hn : n ≤ n') (hc : n + c ≤ n' + c') : Ends own P n' c' s r :=
  ⟨h.went.le hc, h.signal, h.inv, fun a t e => ⟨(h.on a t e).1.le hn, (h.on a t e).2⟩⟩

/-- An operation that never goes on makes its calls as it stops. -/
theorem Ends.stops {α : Type} {own : Word} {P : Prop} {n c c' : Nat} {s : State} {r : Run Error α} (h : Ends own P n c s r)
    (hr : ∀ a t, r ≠ .ok a t) (hc : n + c ≤ c') : Ends own P 0 c' s r :=
  ⟨h.went.le (by omega), h.signal, h.inv, fun a t e => absurd e (hr a t)⟩

theorem Ends.weaken {α : Type} {own : Word} {P Q : Prop} {n c : Nat} {s : State} {r : Run Error α} (h : Ends own P n c s r)
    (hq : Q → P) : Ends own Q n c s r :=
  ⟨h.went, h.signal, fun q => h.inv (hq q), fun a t e => ⟨(h.on a t e).1, (h.on a t e).2.1, fun q => (h.on a t e).2.2 (hq q)⟩⟩

/-- What follows an operation, from the state it went on in. -/
theorem Ends.bind' {α β : Type} {own : Word} {P : Prop} {n m c : Nat} {s : State} {r : Run Error α}
    {f : α → State → Run Error β} (h : Ends own P n c s r)
    (k : ∀ a t, Went own n s t → Ends own (Live t) m c t (f a t)) : Ends own P (n + m) c s (r.bind f) := by
  cases r with
  | stop e t => exact ⟨h.went.le (by omega), h.signal, h.inv, fun a t e => by cases e⟩
  | ok a t =>
    obtain ⟨w, sg, lv⟩ := h.on a t rfl
    have hk := k a t w
    refine ⟨(w.trans hk.went).le (by omega), ?_, fun p => hk.inv (lv p), ?_⟩
    · exact hk.signal.imp_left fun e => sg.trans e w.toGrows hk.went.toGrows
    · intro x u e
      obtain ⟨w', sg', lv'⟩ := hk.on x u e
      exact ⟨w.trans w', sg.trans sg' w.toGrows w'.toGrows, fun p => lv' (lv p)⟩

theorem Ends.bind {α β : Type} {own : Word} {P : Prop} {n m c : Nat} {s : State} {r : Run Error α}
    {f : α → State → Run Error β} (h : Ends own P n c s r)
    (k : ∀ a t, t.params = s.params → Ends own (Live t) m c t (f a t)) : Ends own P (n + m) c s (r.bind f) :=
  h.bind' fun a t w => k a t w.params

theorem Ends.ok {α : Type} {own : Word} {P : Prop} {n c : Nat} {s t : State} (w : Went own n s t) (sg : Signalled s t)
    (h : P → Live t) (a : α) : Ends own P n c s (Run.ok a t) :=
  ⟨w.le (Nat.le_add_right n c), .inl sg, fun p => (h p).inv, fun a' t' e => by cases e; exact ⟨w, sg, h⟩⟩

theorem Ends.stop {α : Type} {own : Word} {P : Prop} {n c : Nat} {s t : State} (w : Went own (n + c) s t)
    (sg : Signalled s t ∨ t.st.link = .disconnected) (h : P → BlockInv t.st) (e : Error) :
    Ends own P n c s (Run.stop e t : Run Error α) :=
  ⟨w, sg, h, fun a' t' e => by cases e⟩

/-- The invariants when the link is not Ready and SELECT is not held. -/
theorem BlockInv.closed {x : Block} (hl : x.link ≠ .ready) (hs : x.selectCache = none) : BlockInv x :=
  ⟨fun h => absurd h hl, fun _ => hs, fun _ => hs, fun v h => by rw [hs] at h; cases h⟩

theorem linkDisconnected_ends {α : Type} {own : Word} {P : Prop} {n c : Nat} {s t : State} (w : Went own (n + c) s t) :
    Ends own P n c s (linkDisconnected t : Run Error α) :=
  .stop (w.of_eq (u := setLink .disconnected (setSelect none (setIr none (setTap none t)))) rfl rfl rfl rfl rfl)
    (.inr rfl) (fun _ => .closed (by simp) rfl) _

theorem linkUnsupported_ends {α : Type} {own : Word} {P : Prop} {n c : Nat} {s t : State} (w : Went own (n + c) s t) :
    Ends own P n c s (linkUnsupported t : Run Error α) :=
  have w' : Went own (n + c) s (setLink .unconnected (setSelect none (setIr none (setTap none t)))) :=
    w.of_eq rfl rfl rfl rfl rfl
  .stop w'.emitInvalidate (.inl (signalled_emit w'.toGrows)) (fun _ => .closed (by simp) rfl) _

theorem linkDesync_ends {α : Type} {own : Word} {P : Prop} {n c : Nat} {s t : State} (k : BitVec 3)
    (w : Went own (n + c) s t) : Ends own P n c s (linkDesync k t : Run Error α) :=
  have w' : Went own (n + c) s (setLink .desync (setSelect none (setIr none t))) := w.of_eq rfl rfl rfl rfl rfl
  .stop w'.emitInvalidate (.inl (signalled_emit w'.toGrows)) (fun _ => .closed (by simp) rfl) _

/-- The state after a link operation that no transport error ended, with the session's invariants. -/
theorem LinkKeeps.session {α : Type} {own : Word} {n : Nat} {s : State} {r : Run LinkFail α} (h : LinkKeeps own n s r)
    (hs : Session s) (hd : ∀ t, r ≠ .stop .disconnected t) (hu : ∀ t, r ≠ .stop .unsupported t) : Session r.state := by
  refine ⟨h.link.trans hs.link, ⟨?_, ?_, ?_, ?_⟩⟩
  · intro _ hp
    rcases h.idle (hs.inv.tapIdle hs.link (h.proto ▸ hp)) with ⟨t, e⟩ | ⟨t, e⟩ | e
    · exact absurd e (hd t)
    · exact absurd e (hu t)
    · exact e
  · rw [h.pending, h.select]; exact hs.inv.pendingNoSelect
  · rw [h.link, h.select]; exact hs.inv.notReadyNoSelect
  · rw [h.select]; exact hs.inv.selectBank0

/-- Forgetting SELECT keeps a session. -/
theorem Session.dropSelect {s : State} (h : Session s) : Session (emitInvalidate (setSelect none s)) :=
  ⟨h.link, ⟨h.inv.tapIdle, fun _ => rfl, fun _ => rfl, fun v e => by cases e⟩⟩

theorem Session.setPendingFalse {s : State} (h : Session s) : Live (setPending false s) :=
  ⟨⟨h.link, ⟨h.inv.tapIdle, fun e => by simp at e, h.inv.notReadyNoSelect, h.inv.selectBank0⟩⟩, rfl⟩

theorem Went.setPending {own : Word} {n : Nat} {s t : State} (h : Went own n s t) (x : Bool) : Went own n s (setPending x t) :=
  h.of_eq rfl rfl rfl rfl rfl

/-- The case analysis inside a clear sequence (60_exceptions.md R264, R266): the two continuations, and the session each
starts in. -/
theorem clearStep_ends {α β : Type} {own : Word} {n m c : Nat} {s : State} {r : Run LinkFail α}
    {failed : State → Run Error β} {next : α → State → Run Error β} (h : LinkKeeps own n s r)
    (hf : ∀ t, t.params = s.params → t.st.selectCache = s.st.selectCache → Ends own (Session t) m c t (failed t))
    (hn : ∀ a t, t.params = s.params → t.st.selectCache = s.st.selectCache → Ends own (Session t) m c t (next a t)) :
    Ends own (Session s) (n + m) c s (clearStep r failed next) := by
  have hS := fun hs => h.session hs
  have w := h.went
  have hsel := h.select
  have goes {t : State} {x : Run Error β} (w : Went own n s t) (hsel : t.st.selectCache = s.st.selectCache)
      (hS : Session s → Session t) (hx : Ends own (Session t) m c t x) : Ends own (Session s) (n + m) c s x :=
    ⟨(w.trans hx.went).le (by omega), hx.signal.imp_left fun e => (show Signalled s t from .inl hsel).trans e w.toGrows hx.went.toGrows,
      fun p => hx.inv (hS p), fun a u e => by
        obtain ⟨w', sg, lv⟩ := hx.on a u e
        exact ⟨w.trans w', (show Signalled s t from .inl hsel).trans sg w.toGrows w'.toGrows, fun p => lv (hS p)⟩⟩
  cases r with
  | ok a t => exact goes w hsel (fun hs => hS hs (by simp) (by simp)) (hn a t w.params hsel)
  | stop e t =>
    cases e with
    | fault => exact goes w hsel (fun hs => hS hs (by simp) (by simp)) (hf t w.params hsel)
    | parityError => exact goes w hsel (fun hs => hS hs (by simp) (by simp)) (hf t w.params hsel)
    | timeout n => exact goes w hsel (fun hs => hS hs (by simp) (by simp)) (hf t w.params hsel)
    | invalidAck k => exact linkDesync_ends k (w.le (by omega))
    | disconnected => exact linkDisconnected_ends (w.le (by omega))
    | unsupported => exact linkUnsupported_ends (w.le (by omega))

theorem clearStep_stops {α β : Type} (r : Run LinkFail α) {failed : State → Run Error β}
    {next : α → State → Run Error β} (hf : ∀ t a u, failed t ≠ .ok a u) (hn : ∀ x t a u, next x t ≠ .ok a u) (a : β)
    (u : State) : clearStep r failed next ≠ .ok a u := by
  cases r with
  | ok x t => exact hn x t a u
  | stop e t =>
    cases e with
    | fault => exact hf t a u
    | parityError => exact hf t a u
    | timeout n => exact hf t a u
    | invalidAck k => exact fun e => by cases e
    | disconnected => exact fun e => by cases e
    | unsupported => exact fun e => by cases e

theorem clearFailed_ends {α : Type} {own : Word} {s : State} (hsel : s.st.selectCache = none)
    (cause : FaultCause) (cs : Option Word) (c : Nat) :
    Ends own (Session s) 0 c s (clearFailed cause cs s : Run Error α) :=
  .stop ((Went.refl own _ s).setPending true) (.inl (.inl rfl))
    (fun h => ⟨h.inv.tapIdle, fun _ => hsel, fun _ => hsel, h.inv.selectBank0⟩) _

theorem scsClear_stops {α : Type} (cause : FaultCause) (v : Word) (s : State) (a : α) (u : State) :
    scsClear cause v s ≠ .ok a u := by
  unfold scsClear
  split
  · exact clearStep_stops _ (fun _ _ _ e => by cases e) (fun _ _ _ _ e => by cases e) a u
  · exact fun e => by cases e

theorem scsClear_ends {α : Type} (own : Word) (cause : FaultCause) (v : Word) {s : State} (hsel : s.st.selectCache = none) :
    Ends own (Session s) 0 (xferCalls s.params) s (scsClear cause v s : Run Error α) := by
  refine Ends.stops (n := xferCalls s.params) (c := 0) ?_ (scsClear_stops cause v s) (by omega)
  unfold scsClear scsDone
  split
  · refine clearStep_ends (m := 0) (writeClear_ends own v s).keeps ?_ ?_
    · exact fun t _ h => clearFailed_ends (h.trans hsel) _ _ _
    · exact fun _ t _ _ => .stop ((Went.refl own _ t).setPending false) (.inl (.inl rfl)) (fun h => h.setPendingFalse.inv) _
  · exact .stop ((Went.refl own _ s).setPending false) (.inl (.inl rfl)) (fun h => h.setPendingFalse.inv) _

/-- The sticky-clear sequence keeps the invariants, however it ends, and never goes on (60_exceptions.md R264). -/
theorem scs_ends {α : Type} (own : Word) (cause : FaultCause) (polled : Option Word) (s : State) :
    Ends own (Session s) 0 (2 * xferCalls s.params) s (scs cause polled s : Run Error α) := by
  have w : Went own 0 s (emitInvalidate (setSelect none s)) :=
    ((Went.refl own 0 s).of_eq (u := setSelect none s) rfl rfl rfl rfl rfl).emitInvalidate
  have sg : ∃ l, (emitInvalidate (setSelect none s)).trace = s.trace ++ l ∧ Obs.apShadowInvalidate ∈ l :=
    ⟨[.apShadowInvalidate], rfl, by simp⟩
  have key : Ends own (Session (emitInvalidate (setSelect none s))) 0 (2 * xferCalls s.params)
      (emitInvalidate (setSelect none s)) (scs cause polled s : Run Error α) := by
    unfold scs
    cases polled with
    | some v => exact (scsClear_ends own cause v rfl).le (by omega) (by simp; omega)
    | none =>
      refine Ends.stops (n := xferCalls s.params + 0) (c := xferCalls s.params) ?_
        (clearStep_stops _ (fun _ _ _ e => by cases e) fun _ _ => scsClear_stops _ _ _) (by omega)
      refine clearStep_ends (poll_keeps own (emitInvalidate (setSelect none s))) ?_ ?_
      · exact fun t _ h => clearFailed_ends h _ _ _
      · exact fun v t hp h => by
          have := scsClear_ends (α := α) own cause v h
          rw [hp] at this; exact this
  refine ⟨(w.trans key.went).le (by omega), .inl (Signalled.grow sg key.went.toGrows), fun p => key.inv p.dropSelect, ?_⟩
  intro a t e
  obtain ⟨w', -, lv⟩ := key.on a t e
  exact ⟨w.trans w', Signalled.grow sg w'.toGrows, fun p => lv p.dropSelect⟩

theorem waitTimeout_ends {α : Type} (own : Word) (n c : Nat) (s : State) :
    Ends own (Session s) 0 c s (waitTimeout n s : Run Error α) :=
  have w : Went own (0 + c) s (setSelect none s) := (Went.refl own _ s).of_eq rfl rfl rfl rfl rfl
  .stop w.emitInvalidate (.inl (signalled_emit w.toGrows)) (fun h => h.dropSelect.inv) _

/-- The reaction to a link result keeps the invariants, and goes on only in a live session (60_exceptions.md R262). -/
theorem check_ends {α : Type} {own : Word} {n : Nat} {s : State} {r : Run LinkFail α} (h : LinkKeeps own n s r) :
    Ends own (Live s) n (2 * xferCalls s.params) s (check r) := by
  have hS := fun hs => h.session hs
  have w := h.went
  have hsel := h.select
  have hp := h.pending
  have goes {t : State} {x : Run Error α} (w : Went own n s t) (hsel : t.st.selectCache = s.st.selectCache)
      (hS : Session s → Session t) (hx : Ends own (Session t) 0 (2 * xferCalls t.params) t x) :
      Ends own (Live s) n (2 * xferCalls s.params) s x := by
    rw [w.params] at hx
    have sg : Signalled s t := .inl hsel
    refine ⟨(w.trans hx.went).le (by omega), hx.signal.imp_left fun e => sg.trans e w.toGrows hx.went.toGrows,
      fun p => hx.inv (hS p.toSession), fun a u e => ?_⟩
    obtain ⟨w', sg', lv⟩ := hx.on a u e
    exact ⟨w.trans w', sg.trans sg' w.toGrows w'.toGrows, fun p => lv (hS p.toSession)⟩
  cases r with
  | ok a t => exact .ok w (.inl hsel) (fun hs => ⟨hS hs.toSession (by simp) (by simp), hp.trans hs.clear⟩) a
  | stop e t =>
    cases e with
    | fault => exact goes w hsel (fun hs => hS hs (by simp) (by simp)) (scs_ends own .ackFault none t)
    | parityError => exact goes w hsel (fun hs => hS hs (by simp) (by simp)) (scs_ends own .parity none t)
    | timeout n => exact goes w hsel (fun hs => hS hs (by simp) (by simp)) (waitTimeout_ends own n _ t)
    | invalidAck k => exact linkDesync_ends k (w.le (by omega))
    | disconnected => exact linkDisconnected_ends (w.le (by omega))
    | unsupported => exact linkUnsupported_ends (w.le (by omega))

theorem stickyStop_ends (own : Word) (v : Word) (s : State) :
    Ends own (Live s) 0 (2 * xferCalls s.params) s (stickyStop v s) := by
  unfold stickyStop
  split
  · exact (scs_ends own _ _ s).weaken fun h => h.toSession
  · exact .ok (Went.refl own 0 s) (.refl s) id v

/-- As an `Ends` of the state before, of the same instance. -/
theorem Ends.at {α : Type} {own : Word} {P : Prop} {n : Nat} {s t : State} {r : Run Error α} (h : t.params = s.params)
    (k : Ends own P n (2 * xferCalls t.params) t r) : Ends own P n (2 * xferCalls s.params) t r := h ▸ k

theorem checkedPoll_ends (own : Word) (s : State) :
    Ends own (Live s) (xferCalls s.params) (2 * xferCalls s.params) s (checkedPoll s) :=
  (check_ends (poll_keeps own s)).bind (m := 0) fun v t ht => (stickyStop_ends own v t).at ht

theorem pendingFailed_ends {α : Type} (own : Word) (cs : Option Word) (c : Nat) (s : State) :
    Ends own (Session s) 0 c s (pendingFailed cs s : Run Error α) :=
  .stop (Went.refl own _ s) (.inl (.refl s)) (fun h => h.inv) _

theorem pendingDone_ends (own : Word) (c : Nat) (s : State) :
    Ends own (Session s) 0 c s (.ok () (setPending false s) : Run Error Unit) :=
  .ok ((Went.refl own 0 s).setPending false) (.inl rfl) (fun h => h.setPendingFalse) ()

theorem pendingWrite_ends (own : Word) (v : Word) (c : Nat) (s : State) :
    Ends own (Session s) (xferCalls s.params) c s (pendingWrite v s) := by
  unfold pendingWrite
  split
  · exact clearStep_ends (m := 0) (writeClear_ends own v s).keeps (fun t _ _ => pendingFailed_ends own _ _ t)
      fun _ t _ _ => pendingDone_ends own _ t
  · exact (pendingDone_ends own c s).le (by omega) (by omega)

/-- The pending clear keeps the invariants, and goes on only with no clear pending (60_exceptions.md R266). -/
theorem pendingClear_ends (own : Word) (s : State) :
    Ends own (Session s) (2 * xferCalls s.params) (2 * xferCalls s.params) s (pendingClear s) := by
  unfold pendingClear
  refine (clearStep_ends (c := 0) (m := xferCalls s.params) (poll_keeps own s) (fun t _ _ =>
    (pendingFailed_ends own _ 0 t).le (by omega) (by omega)) fun v t ht _ => ?_).le (by omega) (by omega)
  have := pendingWrite_ends own v 0 t
  rw [ht] at this; exact this

/-! ## The bodies of the commands -/

theorem Live.setSelect {s : State} (h : Live s) {v : Word} (hv : v.extractLsb' 0 4 = 0) : Live (setSelect (some v) s) :=
  ⟨⟨h.link, ⟨h.inv.tapIdle, fun e => by simp [h.clear] at e, fun e => absurd h.link e, fun w e => by
    injection e with e; exact e ▸ hv⟩⟩, h.clear⟩

theorem requiredSelect_bank0 (ap addr : Addr) : (requiredSelect ap addr).extractLsb' 0 4 = 0 := by
  unfold requiredSelect
  apply BitVec.eq_of_getLsbD_eq
  intro i hi
  rw [BitVec.getLsbD_extractLsb', BitVec.getLsbD_append]
  simp [hi]

theorem Ends.pure {α : Type} {own : Word} {c : Nat} (a : α) (s : State) : Ends own (Live s) 0 c s (Run.ok a s) :=
  .ok (Went.refl own 0 s) (.refl s) id a

/-- A checked link operation, said of an earlier state of the same instance. -/
theorem check_at {α : Type} {own : Word} {s t : State} {r : Run LinkFail α} (h : t.params = s.params)
    (k : LinkEnds own (xferCalls t.params) t r) : Ends own (Live t) (xferCalls s.params) (2 * xferCalls s.params) t (check r) := by
  have := check_ends k.keeps
  rw [h] at this; exact this

theorem ensureSelect_ends (own : Word) (ap addr : Addr) (s : State) :
    Ends own (Live s) (xferCalls s.params) (2 * xferCalls s.params) s (ensureSelect ap addr s) := by
  unfold ensureSelect
  simp only
  split
  · exact (Ends.pure (c := 2 * xferCalls s.params) () s).le (by omega) (by omega)
  · refine (check_at rfl (selectWrite_ends own (requiredSelect_bank0 ap addr) s)).bind (m := 0) fun _ t ht => ?_
    have w : Went own 0 t (Machine.setSelect (some (requiredSelect ap addr)) t) := (Went.refl own 0 t).of_eq rfl rfl rfl rfl rfl
    refine .ok w.emitInvalidate (signalled_emit w.toGrows) (fun hl => ?_) ()
    have h := hl.setSelect (requiredSelect_bank0 ap addr)
    exact ⟨⟨h.link, h.inv⟩, h.clear⟩

theorem Live.observe {s : State} (h : Live s) (v : Word) : Live (observeCtrlStat v s) :=
  ⟨⟨h.link, ⟨h.inv.tapIdle, h.inv.pendingNoSelect, h.inv.notReadyNoSelect, h.inv.selectBank0⟩⟩, h.clear⟩

/-- An update that no one outside sees, before an operation. -/
theorem Ends.from {α : Type} {own : Word} {P Q : Prop} {n c : Nat} {s t : State} {r : Run Error α} (w : Went own 0 s t)
    (hsel : t.st.selectCache = s.st.selectCache) (hq : Q → P) (h : Ends own P n c t r) : Ends own Q n c s r := by
  have sg : Signalled s t := .inl hsel
  refine ⟨(w.trans h.went).le (by omega), h.signal.imp_left fun e => sg.trans e w.toGrows h.went.toGrows,
    fun q => h.inv (hq q), fun a u e => ?_⟩
  obtain ⟨w', sg', lv⟩ := h.on a u e
  exact ⟨(w.trans w').le (by omega), sg.trans sg' w.toGrows w'.toGrows, fun q => lv (hq q)⟩

theorem readDpReg_ends (own : Word) (a : BitVec 2) (s : State) :
    Ends own (Live s) (xferCalls s.params) (2 * xferCalls s.params) s (readDpReg a s) := by
  unfold readDpReg
  refine (check_at rfl (dpRead_ends own a s)).bind (m := 0) fun d t ht => ?_
  split
  · refine Ends.from (t := observeCtrlStat d t) ((Went.refl own 0 t).of_eq rfl rfl rfl rfl rfl) rfl (fun h => h.observe d) ?_
    exact ((stickyStop_ends own d (observeCtrlStat d t)).at (t := observeCtrlStat d t) ht).bind (m := 0) fun v u _ => .pure _ u
  · exact .pure _ t

theorem adoptSelect_ends (own : Word) (v : Word) (c : Nat) (s : State) (hv : v.extractLsb' 0 4 = 0) :
    Ends own (Live s) 0 c s (.ok none (adoptSelect v s) : Run Error (Option Word)) := by
  refine .ok ?_ ?_ (fun h => ?_) none
  · unfold adoptSelect
    split
    · exact (Went.refl own 0 s).of_eq rfl rfl rfl rfl rfl
    · exact ((Went.refl own 0 s).emitInvalidate).of_eq rfl rfl rfl rfl rfl
  · unfold adoptSelect
    split
    · rename_i h; exact .inl h.symm
    · exact .inr ⟨[.apShadowInvalidate], rfl, by simp⟩
  · have h := h.setSelect hv
    exact ⟨⟨by rw [adoptSelect_st]; exact h.link, by rw [adoptSelect_st]; exact h.inv⟩, by rw [adoptSelect_st]; exact h.clear⟩

/-- The DP write of a command; a SELECT write keeps DPBANKSEL at 0, and a CTRL/STAT write over SWD ORUNDETECT, because
others are refused first (10_state.md R32, 30_encoding.md R94). -/
theorem writeDpReg_ends (own : Word) (a : BitVec 2) (v : Word) (hv : a = aSelect → v.extractLsb' 0 4 = 0) (s : State)
    (ho : a = aCtrlStat → s.st.proto = some .swd → v.getLsbD 0 = false) :
    Ends own (Live s) (xferCalls s.params) (2 * xferCalls s.params) s (writeDpReg a v s) := by
  unfold writeDpReg
  split
  · exact .stop (Went.refl own _ s) (.inl (.refl s)) (fun h => h.inv) _
  · rename_i h3
    refine (check_at rfl (dpWrite_ends own h3 hv s ho)).bind (m := 0) fun _ t ht => ?_
    split
    · split
      · exact .ok (t := setPowered false t) ((Went.refl own 0 t).of_eq rfl rfl rfl rfl rfl) (.inl rfl) (fun h : Live t => ⟨⟨h.link, ⟨h.inv.tapIdle,
          h.inv.pendingNoSelect, h.inv.notReadyNoSelect, h.inv.selectBank0⟩⟩, h.clear⟩) _
      · exact .pure _ t
    · split
      · rename_i h2; exact adoptSelect_ends own v _ t (hv h2)
      · exact .pure _ t

theorem apReadReg_ends (own : Word) (a : BitVec 2) (s : State) :
    Ends own (Live s) (2 * xferCalls s.params) (2 * xferCalls s.params) s (apReadReg a s) := by
  unfold apReadReg
  split
  · refine ((check_at rfl ((swdXfer_ends (issued_ap true a 0) s).link own)).bind (m := xferCalls s.params)
      fun _ t ht => ?_).le (by omega) (by omega)
    exact (check_at ht ((swdXfer_ends (issued_read false aRdbuff 0) t).link own)).bind (m := 0) fun _ u _ => .pure _ u
  · refine ((check_at rfl (jtagApScans_ends (xpaccOk_read own a 0) s)).bind (m := xferCalls s.params)
      fun _ t ht => ?_).le (by omega) (by omega)
    have h := checkedPoll_ends own t
    rw [ht] at h
    exact h.bind (m := 0) fun _ u _ => .pure _ u

/-- An AP write over JTAG makes the scan of its own word, whatever its low bits. -/
theorem apWriteReg_ends {own : Word} (a : BitVec 2) (v : Word) (s : State) (ho : s.st.proto = some .swd ∨ own = v) :
    Ends own (Live s) (2 * xferCalls s.params) (2 * xferCalls s.params) s (apWriteReg a v s) := by
  unfold apWriteReg
  split
  · refine ((check_at rfl ((swdXfer_ends (issued_ap false a v) s).link own)).bind (m := xferCalls s.params)
      fun _ t ht => ?_).le (by omega) (by omega)
    exact (check_at ht ((swdXfer_ends (issued_read false aRdbuff 0) t).link own)).bind (m := 0) fun _ u _ => .pure _ u
  · refine ((check_at rfl (jtagApScans_ends (fun _ _ => .inr (ho.resolve_left ‹_›).symm) s)).bind (m := xferCalls s.params)
      fun _ t ht => ?_).le (by omega) (by omega)
    have h := checkedPoll_ends own t
    rw [ht] at h
    exact h.bind (m := 0) fun _ u _ => .pure _ u

theorem powerPolls_ends (own : Word) (total left : Nat) :
    ∀ s : State, Ends own (Live s) (left * xferCalls s.params) (2 * xferCalls s.params) s (powerPolls total left s) := by
  induction left with
  | zero => exact fun s => .stop (Went.refl own _ s) (.inl (.refl s)) (fun h => h.inv) _
  | succ n ih =>
    intro s
    rw [Nat.succ_mul, Nat.add_comm]
    refine (checkedPoll_ends own s).bind fun v t ht => ?_
    split
    · exact (Ends.pure (c := 2 * xferCalls s.params) _ t).le (by omega) (by omega)
    · have h := ih t
      rw [ht] at h; exact h

theorem powerUpBody_ends (own : Word) (s : State) :
    Ends own (Live s) ((s.params.pwrPolls + 1) * xferCalls s.params) (2 * xferCalls s.params) s (powerUpBody s) := by
  rw [Nat.succ_mul, Nat.add_comm]
  refine (check_at rfl (dpWrite_ends own (by decide) (fun h => absurd h (by decide)) s fun _ _ => by decide)).bind fun _ t ht => ?_
  have h := powerPolls_ends own s.params.pwrPolls s.params.pwrPolls t
  rw [ht] at h; rw [ht]; exact h

theorem irBody_ends (own : Word) {ir : BitVec 4} (h : ShiftedIr ir) (s : State) :
    Ends own (Live s) (xferCalls s.params) (2 * xferCalls s.params) s
      ((check (irScan ir s)).bind fun _ t => .ok (none : Option Word) t) :=
  (check_at rfl ((irScan_ends own h s).le (by unfold xferCalls; omega))).bind (m := 0) fun _ t _ => .pure _ t

/-! ## CONNECT (42_dpap_commands.md R206 to R208) -/

/-- The block is opening a session: not Ready, nothing pending, SELECT not held. -/
structure Opening (s : State) : Prop where
  link : s.st.link = .unconnected
  clear : s.st.clearPending = false
  select : s.st.selectCache = none

/-- How an operation of CONNECT or SET_CLOCK ends: at most n calls, and the invariants after it. -/
structure Keeps {α : Type} (own : Word) (n : Nat) (s : State) (r : Run Error α) : Prop where
  grows : Grows own n s r.state
  inv : BlockInv r.state.st

/-- How a part of CONNECT ends. -/
structure KeepsOpening {α : Type} (own : Word) (n : Nat) (s : State) (r : Run Error α) : Prop extends Keeps own n s r where
  opening : ∀ a t, r = .ok a t → Opening t ∧ t.st.proto = s.st.proto ∧ (s.st.tap = some .rti → t.st.tap = some .rti)

theorem connectCheck_keeps {α : Type} {own : Word} {n : Nat} {s : State} {r : Run LinkFail α} (h : LinkKeeps own n s r)
    (hs : Opening s) : KeepsOpening own n s (connectCheck r) := by
  have hg := h.grows
  have hl := h.link.trans hs.link
  have hsel := h.select.trans hs.select
  have hp := h.pending.trans hs.clear
  have hpr := h.proto
  have hi := h.idle
  cases r with
  | ok a t =>
    refine ⟨⟨hg, .closed (by simp only [Run.state_ok] at hl; simp [connectCheck, hl]) hsel⟩, ?_⟩
    intro a' t' e
    cases e
    exact ⟨⟨hl, hp, hsel⟩, hpr, fun k => by simpa using hi k⟩
  | stop e t =>
    simp only [Run.state_stop] at hl hsel hp
    have hc : BlockInv t.st := .closed (by simp [hl]) hsel
    cases e <;> refine ⟨⟨hg.of_eq rfl rfl rfl, ?_⟩, fun a t e => by cases e⟩
    case invalidAck => exact .closed (by simp [connectCheck, hl]) hsel
    case disconnected => exact .closed (by simp [connectCheck]) hsel
    case unsupported => exact .closed (by simp [connectCheck, hl]) hsel
    all_goals exact hc

/-- One checked step of CONNECT, of an instance with the parameters of s, and what follows it. -/
theorem Keeps.step {α β : Type} {own : Word} {n m k : Nat} {s t : State} {r : Run LinkFail α}
    {f : α → State → Run Error β} (hg : Grows own n s t) (ht : Opening t) (hr : LinkEnds own m t r)
    (hk : n + m ≤ k)
    (go : ∀ a u, Grows own (n + m) s u → Opening u → u.st.proto = t.st.proto →
      (t.st.tap = some .rti → u.st.tap = some .rti) → Keeps own k s (f a u)) :
    Keeps own k s ((connectCheck r).bind f) := by
  have hc := connectCheck_keeps hr.keeps ht
  cases hx : connectCheck r with
  | stop e u => rw [hx] at hc; exact ⟨(hg.trans hc.grows).le hk, hc.inv⟩
  | ok a u =>
    rw [hx] at hc
    obtain ⟨ho, hq, hi⟩ := hc.opening a u rfl
    exact go a u (hg.trans hc.grows) ho hq hi

theorem connectStart_grows (own : Word) (p : Protocol) (s : State) : Grows own 0 s (connectStart p s) :=
  ((Grows.refl own 0 s).of_eq (u := { s with st := { Block.reset with proto := some p } }) rfl rfl rfl).emitInvalidate

theorem connectStart_opening (p : Protocol) (s : State) : Opening (connectStart p s) := ⟨rfl, rfl, rfl⟩

/-- The invariants of a session CONNECT has just opened. -/
theorem connectDone_inv {id : Word} {s : State} (h : Opening s) (ht : s.st.proto = some .jtag → s.st.tap = some .rti) :
    BlockInv (connectDone id s).st := by
  refine ⟨fun _ hp => ht hp, fun hp => ?_, fun hl => absurd rfl hl, fun v e => ?_⟩
  · simp [connectDone, h.clear] at hp
  · simp [connectDone] at e; subst e; decide

/-- CONNECT over SWD keeps the invariants, however it ends. -/
theorem connectSwdBody_keeps (own : Word) (s : State) :
    Keeps own (4 * xferCalls s.params) (connectStart .swd s) (connectSwdBody s) := by
  have g0 := Grows.refl own 0 (connectStart .swd s)
  have xf {apndp rnw : Bool} {a : BitVec 2} {v : Word} (hi : Issued apndp rnw a v) {n : Nat} {t : State}
      (g : Grows own n (connectStart .swd s) t) : LinkEnds own (xferCalls s.params) t (swdXfer apndp rnw a v t) := by
    have h := (swdXfer_ends hi t).link own
    rw [g.params] at h; exact h
  have h1 : 1 ≤ xferCalls s.params := by unfold xferCalls; omega
  unfold connectSwdBody
  refine Keeps.step g0 (connectStart_opening _ s) ((resetLine_ends _).link own) (by omega) fun _ t gt ht pt _ => ?_
  refine Keeps.step gt ht (xf (issued_read false 0 0) gt) (by omega) fun id u gu hu pu _ => ?_
  refine Keeps.step gu hu (xf (issued_write (by decide) (fun h => absurd h (by decide)) fun h => absurd h (by decide)) gu) (by omega) fun _ x gx hx px _ => ?_
  refine Keeps.step gx hx (xf (issued_write (by decide) (fun _ => by decide) fun h => absurd h (by decide)) gx) (by omega) fun _ y gy hy py _ => ?_
  refine ⟨(gy.of_eq (u := connectDone id y) rfl rfl rfl).le (by omega), connectDone_inv hy fun hp => ?_⟩
  rw [py, px, pu, pt] at hp; cases hp

/-- CONNECT over JTAG keeps the invariants, however it ends: TapReset leaves the TAP in Run-Test/Idle. -/
theorem connectJtagBody_keeps (own : Word) (s : State) :
    Keeps own (4 * xferCalls s.params) (connectStart .jtag s) (connectJtagBody s) := by
  have h1 : 1 ≤ xferCalls s.params := by unfold xferCalls; omega
  have hc := connectCheck_keeps (tapReset_ends (connectStart .jtag s)).keeps (connectStart_opening _ s)
  unfold connectJtagBody
  cases hx : tapReset (connectStart .jtag s) with
  | stop e t =>
    rw [hx] at hc
    have hc' : Keeps own (4 * xferCalls s.params) (connectStart .jtag s)
        (connectCheck (.stop e t : Run LinkFail Unit)) := ⟨(hc.grows.mono own).le (by omega), hc.inv⟩
    cases e <;> exact ⟨hc'.grows, hc'.inv⟩
  | ok a t =>
    rw [hx] at hc
    obtain ⟨ho, -, -⟩ := hc.opening a t rfl
    have gt : Grows own 1 (connectStart .jtag s) t := hc.grows.mono own
    have hid := jtagIdcode_ends own t
    rw [gt.params] at hid
    change Keeps own _ _ ((connectCheck (jtagIdcode t)).bind _)
    refine Keeps.step gt ho hid (by simp only [connectStart_params]; omega) fun id u gu hu _ iu => ?_
    have hab := jtagAbort_ends own abortAllClear u
    rw [gu.params] at hab
    refine Keeps.step gu hu hab (by simp only [connectStart_params]; omega) fun _ x gx hx' _ ix => ?_
    have hw := jtagWriteDp_ends own (a := aSelect) (v := 0) (fun _ => by decide) x
    rw [gx.params] at hw
    refine Keeps.step gx hx' hw (by simp only [connectStart_params]; omega) fun _ y gy hy _ iy => ?_
    exact ⟨(gy.of_eq (u := connectDone id y) rfl rfl rfl).le (by simp only [connectStart_params]; omega),
      connectDone_inv hy fun _ => iy (ix (iu (tapReset_idle hx).1))⟩

/-- CONNECT emits the event before its first call, and so whatever becomes of SELECT is signalled. -/
theorem Keeps.connect {own : Word} {n : Nat} {p : Protocol} {s : State} {r : Run Error (Option Word)}
    (h : Keeps own n (connectStart p s) r) :
    Grows own n s r.state ∧ (Signalled s r.state ∨ r.state.st.link = .disconnected) ∧
      (BlockInv s.st → BlockInv r.state.st) :=
  ⟨((connectStart_grows own p s).trans h.grows).le (by omega),
    .inl (Signalled.grow ⟨[.apShadowInvalidate], rfl, by simp⟩ h.grows), fun _ => h.inv⟩

/-- SET_CLOCK makes one call and changes the block state only where the call fails (42_dpap_commands.md R209). -/
theorem setClockBody_ends (own : Word) (hz : Word) (s : State) :
    Went own 1 s (setClockBody hz s).state ∧
      (Signalled s (setClockBody hz s).state ∨ (setClockBody hz s).state.st.link = .disconnected) ∧
      (BlockInv s.st → BlockInv (setClockBody hz s).state.st) := by
  have h := setClockCall_ends hz s
  obtain ⟨-, -, he⟩ := transportCall_ends own true (fun a => .setClock hz (answerStatus a)) s (fun _ => trivial) fun _ _ => rfl
  unfold setClockBody
  unfold setClockCall at h ⊢
  cases hx : transportCall true (fun a => .setClock hz (answerStatus a)) s with
  | ok a t =>
    rw [hx] at h
    have hb : t.st = s.st := h.block
    exact ⟨⟨h.grows.mono own, by simpa [check] using congrArg Block.proto hb,
      by simpa [check] using congrArg Block.dpIdcode hb⟩, .inl (.inl (by simpa [check] using congrArg Block.selectCache hb)),
      fun hs => by simpa [check, hb] using hb ▸ hs⟩
  | stop e t =>
    rw [hx] at h
    have hb := h.block
    have w : Went own (1 + 0) s t := ⟨h.grows.mono own, by simpa using congrArg Block.proto hb,
      by simpa using congrArg Block.dpIdcode hb⟩
    rcases he e t hx with rfl | rfl
    · have k := linkDisconnected_ends (α := Unit) (P := True) w
      exact ⟨k.went, k.signal, fun _ => k.inv trivial⟩
    · have k := linkUnsupported_ends (α := Unit) (P := True) w
      exact ⟨k.went, k.signal, fun _ => k.inv trivial⟩

/-! ## The command frame -/

/-- A command ends with its result as the last observation and everything else as its run left it. -/
theorem finish_eq (q : Request) (c : Ctx) (r : Run Error (Option Word)) :
    ∃ res, finish q c r = emit (.result q res) r.state := by
  cases r <;> exact ⟨_, rfl⟩

/-- What a command has done when it has answered: at most n plain calls, then its result. -/
structure Answered (own : Word) (q : Request) (n : Nat) (s t : State) : Prop where
  params : t.params = s.params
  port : t.port = s.port
  trace : ∃ l r, t.trace = s.trace ++ l ++ [.result q r] ∧ Clean own l ∧ callCount l ≤ n
  signal : (∃ l, t.trace = s.trace ++ l ∧ (t.st.selectCache = s.st.selectCache ∨ t.st.link = .disconnected ∨
    .apShadowInvalidate ∈ l))
  inv : BlockInv s.st → BlockInv t.st

theorem finish_answered {own : Word} {n : Nat} {s : State} {q : Request} {c : Ctx} {r : Run Error (Option Word)}
    (g : Grows own n s r.state) (sg : Signalled s r.state ∨ r.state.st.link = .disconnected)
    (hi : BlockInv s.st → BlockInv r.state.st) : Answered own q n s (finish q c r) := by
  obtain ⟨res, e⟩ := finish_eq q c r
  obtain ⟨l, hl, hP, hn⟩ := g.trace
  rw [e]
  refine ⟨g.params, g.port, ⟨l, res, by simp [emit, hl], hP, hn⟩, ⟨l ++ [.result q res], by simp [emit, hl], ?_⟩, hi⟩
  rcases sg with (h | ⟨l', h, hm⟩) | h
  · exact .inl h
  · have : l = l' := List.append_cancel_left (hl ▸ h)
    exact .inr (.inr (List.mem_append_left _ (this ▸ hm)))
  · exact .inr (.inl h)

/-- The body of a command behind the pending clear. -/
theorem afterPending_ends {own : Word} {n : Nat} {body : State → Run Error (Option Word)} {s : State}
    (h : ∀ t, t.params = s.params → t.st.proto = s.st.proto →
      Ends own (Live t) n (2 * xferCalls s.params) t (body t)) :
    Ends own (Session s) (2 * xferCalls s.params + n) (2 * xferCalls s.params) s (afterPending body s) := by
  unfold afterPending
  split
  · exact (pendingClear_ends own s).bind' fun _ t w => h t w.params w.proto
  · rename_i hp
    exact ((h s rfl rfl).weaken fun hs => ⟨hs, by simpa using hp⟩).le (by omega) (by omega)

/-- The checks let a command through only while the link is Ready and nothing refuses it (42_dpap_commands.md R200). -/
theorem precheck_none {refusal : Option Reason} {ap : Bool} {s : State} (h : precheck refusal ap s = none) :
    s.st.link = .ready ∧ refusal = none ∧ (ap = true → s.st.dpPowered = true) := by
  unfold precheck at h
  split at h
  · cases h
  · cases refusal with
    | some r => cases h
    | none =>
      cases hl : s.st.link <;> simp_all

theorem precheckEarly_none {refusal : Option Reason} {s : State} (h : precheckEarly refusal s = none) :
    s.st.link ≠ .disconnected ∧ refusal = none := by
  unfold precheckEarly at h
  split at h
  · cases h
  · cases refusal <;> simp_all

/-- A command that reaches the target only while Ready, from what its body does once nothing refuses it. -/
theorem runReady_answered {own : Word} {n : Nat} {i : Instr} {ap : Bool} {body : State → Run Error (Option Word)} {s : State}
    (h : precheck (refusalOf s.st.proto i) ap s = none → ∀ t, t.params = s.params → t.st.proto = s.st.proto → Ends own (Live t) n (2 * xferCalls s.params) t (body t)) :
    Answered own (.instr i) (4 * xferCalls s.params + n) s (runReady i ap body s) ∧
      (runReady i ap body s).st.proto = s.st.proto ∧ (runReady i ap body s).st.dpIdcode = s.st.dpIdcode := by
  have done {r : Run Error (Option Word)} (w : Went own (4 * xferCalls s.params + n) s r.state)
      (sg : Signalled s r.state ∨ r.state.st.link = .disconnected) (hi : BlockInv s.st → BlockInv r.state.st) :
      Answered own (.instr i) (4 * xferCalls s.params + n) s (finish (.instr i) (ctxOf s.st.selectCache i) r) ∧
        (finish (.instr i) (ctxOf s.st.selectCache i) r).st.proto = s.st.proto ∧
        (finish (.instr i) (ctxOf s.st.selectCache i) r).st.dpIdcode = s.st.dpIdcode := by
    obtain ⟨res, e⟩ := finish_eq (.instr i) (ctxOf s.st.selectCache i) r
    exact ⟨finish_answered w.toGrows sg hi, by rw [e]; exact w.proto, by rw [e]; exact w.idcode⟩
  unfold runReady
  cases hp : precheck (refusalOf s.st.proto i) ap s with
  | some e => exact done (Went.refl own _ s) (.inl (.refl s)) id
  | none =>
    obtain ⟨hl, -, -⟩ := precheck_none hp
    have e := afterPending_ends (h hp)
    exact done (e.went.le (by omega)) e.signal fun hi => e.inv ⟨hl, hi⟩

/-- CONNECT and SET_CLOCK, from what their body does once nothing refuses it. -/
theorem runEarly_answered {own : Word} {n : Nat} {i : Instr} {body : State → Run Error (Option Word)} {s : State}
    (g : Grows own n s (body s).state) (sg : Signalled s (body s).state ∨ (body s).state.st.link = .disconnected)
    (hi : BlockInv s.st → BlockInv (body s).state.st) : Answered own (.instr i) n s (runEarly i body s) := by
  unfold runEarly
  cases precheckEarly (refusalOf s.st.proto i) s with
  | some e => exact finish_answered (Grows.refl own n s) (.inl (.refl s)) id
  | none => exact finish_answered g sg hi

/-- A link request that answers does so as `runReady`, over its own protocol if the checks let it through. -/
theorem runLink_next {i : Instr} {p : Protocol} {body : State → Run Error (Option Word)} {s t : State}
    (h : runLink i p body s = .next t) :
    t = runReady i false body s ∧ (precheck (refusalOf s.st.proto i) false s = none → s.st.proto = some p) := by
  unfold runLink at h
  split at h
  · cases h
  · rename_i hp
    injection h with h
    exact ⟨h.symm, fun k => Classical.byContradiction fun n => hp ⟨k, n⟩⟩

theorem runLinkAp_next {i : Instr} {p : Protocol} {a : BitVec 2} {body : State → Run Error (Option Word)} {s t : State}
    (h : runLinkAp i p a body s = .next t) :
    t = runReady i true body s ∧ (precheck (refusalOf s.st.proto i) true s = none → s.st.proto = some p) := by
  unfold runLinkAp at h
  split at h
  · cases h
  · rename_i hp
    split at h
    · cases h
    · injection h with h
      exact ⟨h.symm, fun k => Classical.byContradiction fun n => hp ⟨k, n⟩⟩

end Sys2Proof.Machine
end

