-- ==== Sys2Proof/Laws/Frame.lean ====
section
/-! SUPPORT. The command frame when its checks let a command through, and the dispatch over the two links
(42_dpap_commands.md R200, R203). -/

namespace Sys2Proof.Machine

@[simp] theorem check_ok {α : Type} (a : α) (s : State) : check (.ok a s : Run LinkFail α) = .ok a s := rfl
@[simp] theorem check_fault {α : Type} (s : State) :
    check (.stop .fault s : Run LinkFail α) = scs .ackFault none s := rfl
@[simp] theorem check_parity {α : Type} (s : State) :
    check (.stop .parityError s : Run LinkFail α) = scs .parity none s := rfl
@[simp] theorem check_timeout {α : Type} (n : Nat) (s : State) :
    check (.stop (.timeout n) s : Run LinkFail α) = waitTimeout n s := rfl
@[simp] theorem check_invalidAck {α : Type} (k : BitVec 3) (s : State) :
    check (.stop (.invalidAck k) s : Run LinkFail α) = linkDesync k s := rfl
@[simp] theorem check_disconnected {α : Type} (s : State) :
    check (.stop .disconnected s : Run LinkFail α) = linkDisconnected s := rfl
@[simp] theorem check_unsupported {α : Type} (s : State) :
    check (.stop .unsupported s : Run LinkFail α) = linkUnsupported s := rfl
@[simp] theorem connectCheck_ok {α : Type} (a : α) (s : State) : connectCheck (.ok a s : Run LinkFail α) = .ok a s := rfl
@[simp] theorem connectCheck_fault {α : Type} (s : State) :
    connectCheck (.stop .fault s : Run LinkFail α) = .stop (.accessFault .ackFault none false) s := rfl
@[simp] theorem connectCheck_parity {α : Type} (s : State) :
    connectCheck (.stop .parityError s : Run LinkFail α) = .stop (.accessFault .parity none false) s := rfl
@[simp] theorem connectCheck_timeout {α : Type} (n : Nat) (s : State) :
    connectCheck (.stop (.timeout n) s : Run LinkFail α) = .stop (.timeout .wait n) s := rfl
@[simp] theorem connectCheck_invalidAck {α : Type} (k : BitVec 3) (s : State) :
    connectCheck (.stop (.invalidAck k) s : Run LinkFail α) =
      .stop (.invalidAck k) (s.withBlock { s.st with irCache := none }) := rfl
@[simp] theorem connectCheck_disconnected {α : Type} (s : State) :
    connectCheck (.stop .disconnected s : Run LinkFail α) =
      .stop .disconnected (s.withBlock { s.st with link := .disconnected, irCache := none, tap := none }) := rfl
@[simp] theorem connectCheck_unsupported {α : Type} (s : State) :
    connectCheck (.stop .unsupported s : Run LinkFail α) =
      .stop .unsupported (s.withBlock { s.st with irCache := none, tap := none }) := rfl
@[simp] theorem clearStep_ok {α β : Type} (a : α) (s : State) (f : State → Run Error β) (n : α → State → Run Error β) :
    clearStep (.ok a s) f n = n a s := rfl
@[simp] theorem clearStep_fault {α β : Type} (s : State) (f : State → Run Error β) (n : α → State → Run Error β) :
    clearStep (.stop .fault s) f n = f s := rfl
@[simp] theorem clearStep_parity {α β : Type} (s : State) (f : State → Run Error β) (n : α → State → Run Error β) :
    clearStep (.stop .parityError s) f n = f s := rfl
@[simp] theorem clearStep_timeout {α β : Type} (k : Nat) (s : State) (f : State → Run Error β)
    (n : α → State → Run Error β) : clearStep (.stop (.timeout k) s) f n = f s := rfl
@[simp] theorem clearStep_invalidAck {α β : Type} (k : BitVec 3) (s : State) (f : State → Run Error β)
    (n : α → State → Run Error β) : clearStep (.stop (.invalidAck k) s) f n = linkDesync k s := rfl
@[simp] theorem clearStep_disconnected {α β : Type} (s : State) (f : State → Run Error β)
    (n : α → State → Run Error β) : clearStep (.stop .disconnected s) f n = linkDisconnected s := rfl
@[simp] theorem clearStep_unsupported {α β : Type} (s : State) (f : State → Run Error β)
    (n : α → State → Run Error β) : clearStep (.stop .unsupported s) f n = linkUnsupported s := rfl


/-- Taking a severe error, as a block put in place (60_exceptions.md R271 to R274). -/
theorem linkDesync_eq {α : Type} (k : BitVec 3) (s : State) :
    (linkDesync k s : Run Error α) = .stop (.invalidAck k) ((s.after pulse).withBlock s.st.desynced) := rfl
theorem linkDisconnected_eq {α : Type} (s : State) :
    (linkDisconnected s : Run Error α) = .stop .disconnected (s.withBlock s.st.lost) := rfl
theorem linkUnsupported_eq {α : Type} (s : State) :
    (linkUnsupported s : Run Error α) = .stop .unsupported ((s.after pulse).withBlock s.st.unsupported) := rfl
theorem waitTimeout_eq {α : Type} (n : Nat) (s : State) :
    (waitTimeout n s : Run Error α) =
      .stop (.timeout .wait n) ((s.after pulse).withBlock { s.st with selectCache := none }) := rfl

theorem finish_ok (i : Instr) (c : Ctx) (v : Option Word) (t : State) :
    finish (.instr i) c (.ok v t) = t.replied i v := rfl
theorem finish_stop (i : Instr) (select : Option Word) (e : Error) (t : State) :
    finish (.instr i) (ctxOf select i) (.stop e t) = t.failed i select e := rfl

/-- The checks let an unrefused command through while the link is Ready, an AP command if the DP is powered. -/
theorem precheck_ready {s : State} {ap : Bool} (hl : s.st.link = .ready) (hp : ap = true → s.st.dpPowered = true) :
    precheck none ap s = none := by
  unfold precheck
  cases ap <;> simp_all

/-- The checks of CONNECT and SET_CLOCK let an unrefused command through unless the link is Disconnected. -/
theorem precheckEarly_open {s : State} (hl : s.st.link ≠ .disconnected) : precheckEarly none s = none := by
  simp [precheckEarly, hl]

/-- A command that the checks let through, with no clear pending, is its body. -/
theorem runReady_live {i : Instr} {ap : Bool} {body : State → Run Error (Option Word)} {s : State}
    (hl : s.st.link = .ready) (hc : s.st.clearPending = false) (hr : refusalOf s.st.proto i = none)
    (hp : ap = true → s.st.dpPowered = true) :
    runReady i ap body s = finish (.instr i) (ctxOf s.st.selectCache i) (body s) := by
  unfold runReady
  rw [hr, precheck_ready hl hp]
  simp [afterPending, hc]

/-- As `runReady_live`, with a clear pending. -/
theorem runReady_pending {i : Instr} {ap : Bool} {body : State → Run Error (Option Word)} {s : State}
    (hl : s.st.link = .ready) (hc : s.st.clearPending = true) (hr : refusalOf s.st.proto i = none)
    (hp : ap = true → s.st.dpPowered = true) :
    runReady i ap body s =
      finish (.instr i) (ctxOf s.st.selectCache i) ((pendingClear s).bind fun _ t => body t) := by
  unfold runReady
  rw [hr, precheck_ready hl hp]
  simp [afterPending, hc]

/-- CONNECT and SET_CLOCK, let through. -/
theorem runEarly_open {i : Instr} {body : State → Run Error (Option Word)} {s : State} (hl : s.st.link ≠ .disconnected)
    (hr : refusalOf s.st.proto i = none) :
    runEarly i body s = finish (.instr i) (ctxOf s.st.selectCache i) (body s) := by
  unfold runEarly
  rw [hr, precheckEarly_open hl]

/-- A link request of the connected protocol runs as a command. -/
theorem runLink_own {i : Instr} {p : Protocol} {body : State → Run Error (Option Word)} {s : State}
    (hp : s.st.proto = some p) : runLink i p body s = .next (runReady i false body s) := by
  simp [runLink, hp]

/-- An AP link request of the connected protocol with SELECT held runs as a command. -/
theorem runLinkAp_own {i : Instr} {p : Protocol} {a : BitVec 2} {body : State → Run Error (Option Word)} {s : State}
    (hp : s.st.proto = some p) (hs : selectHeld a s = true) :
    runLinkAp i p a body s = .next (runReady i true body s) := by
  simp [runLinkAp, hp, hs]

/-! ## Fields of SELECT -/

theorem selectAp_required (ap addr : Addr) : selectAp (requiredSelect ap addr) = ap := by
  apply BitVec.eq_of_getLsbD_eq
  intro i hi
  rw [selectAp, requiredSelect, BitVec.getLsbD_extractLsb', BitVec.getLsbD_append, BitVec.getLsbD_append,
    BitVec.getLsbD_append]
  have h1 : ¬ 24 + i < 4 := by omega
  have h2 : ¬ 24 + i - 4 < 4 := by omega
  have h3 : ¬ 24 + i - 4 - 4 < 16 := by omega
  have h4 : 24 + i - 4 - 4 - 16 = i := by omega
  simp only [h1, h2, h3, h4, hi, decide_true, if_false, Bool.true_and]

theorem requiredSelect_bank (ap addr : Addr) : (requiredSelect ap addr).extractLsb' 4 4 = addr.extractLsb' 4 4 := by
  apply BitVec.eq_of_getLsbD_eq
  intro i hi
  rw [requiredSelect, BitVec.getLsbD_extractLsb', BitVec.getLsbD_append, BitVec.getLsbD_append]
  have h1 : ¬ 4 + i < 4 := by omega
  have h2 : 4 + i - 4 = i := by omega
  simp [h1, h2, hi]

/-- A held RequiredSelect(ap, addr) is what an AP request for its own A[3:2] needs. -/
theorem selectHeld_required {s : State} {ap addr : Addr} (a : BitVec 2)
    (h : s.st.selectCache = some (requiredSelect ap addr)) : selectHeld a s = true := by
  have hb : (selectAddr (requiredSelect ap addr) a).extractLsb' 4 4 = addr.extractLsb' 4 4 := by
    rw [← requiredSelect_bank ap addr, selectAddr]
    generalize (requiredSelect ap addr).extractLsb' 4 4 = b
    revert a b
    decide
  unfold selectHeld
  rw [h]
  simp only [selectAp_required]
  rw [requiredSelect, hb]
  simp [requiredSelect]

/-! ## Dispatch -/

theorem dpRead_swd {s : State} (h : s.st.proto = some .swd) (a : BitVec 2) : dpRead a s = swdXfer false true a 0 s := by
  simp [dpRead, h]
theorem dpRead_jtag {s : State} (h : s.st.proto = some .jtag) (a : BitVec 2) : dpRead a s = jtagReadDp a s := by
  simp [dpRead, h]
theorem dpWrite_swd {s : State} (h : s.st.proto = some .swd) (a : BitVec 2) (v : Word) :
    dpWrite a v s = swdXfer false false a v s := by simp [dpWrite, h]
theorem dpWrite_jtag {s : State} (h : s.st.proto = some .jtag) {a : BitVec 2} (ha : a ≠ 0) (v : Word) :
    dpWrite a v s = jtagWriteDp a v s := by
  rw [dpWrite, if_neg (by simp [h]), if_neg ha]
theorem dpWrite_abort {s : State} (h : s.st.proto = some .jtag) (v : Word) : dpWrite 0 v s = jtagAbort v s := by
  simp [dpWrite, h]
theorem writeClear_swd {s : State} (h : s.st.proto = some .swd) (v : Word) :
    writeClear v s = swdXfer false false 0 (abortValue v) s := by simp [writeClear, h]
theorem selectWrite_swd {s : State} (h : s.st.proto = some .swd) (v : Word) :
    selectWrite v s = swdXfer false false aSelect v s := by simp [selectWrite, h]
theorem selectWrite_jtag {s : State} (h : s.st.proto = some .jtag) (v : Word) : selectWrite v s = jtagSelect v s := by
  simp [selectWrite, h]

/-- A poll over SWD that ends with OK (60_exceptions.md R263). -/
theorem poll_swd {p : Params} {s : State} {v : Word} {t : SwdTry} (hpr : s.st.proto = some .swd) (hp : s.params = p)
    (hf : t.fits p) (h : s.meets (swdReadOkX p false 1 v t)) :
    poll s = .ok v ((s.after (swdReadOkX p false 1 v t)).withBlock (s.st.observed v)) := by
  rw [poll, dpRead_swd hpr, aCtrlStat, swdXfer_readOk hp hf h, Run.bind_ok, observeCtrlStat_eq, after_st]
  rfl

/-- A poll over JTAG that ends with OK. -/
theorem poll_jtag {c : Option (BitVec 4)} {s : State} {v prev : Word} {ir : Wire} {t u : JtagTry}
    (hpr : s.st.proto = some .jtag) (hc : s.st.irCache = c) (ht : t.fits s.params) (hu : u.fits s.params)
    (hr : s.st.tap = some .rti) (h : s.meets (jtagReadDpX c 1 prev v ir t u)) :
    poll s = .ok v ((s.after (jtagReadDpX c 1 prev v ir t u)).withBlock
      { s.st.observed v with irCache := some 0xA }) := by
  rw [poll, dpRead_jtag hpr, aCtrlStat, jtagReadDp_X hc ht hu hr h, Run.bind_ok, observeCtrlStat_eq]
  simp [Block.observed]

/-! ## The sticky-clear sequence over SWD when nothing in it fails (60_exceptions.md R264) -/

/-- Started by a polled value. -/
theorem scs_polled_swd {α : Type} {s : State} {v : Word} {u : SwdTry} {cause : FaultCause}
    (hp : s.st.proto = some .swd) (hu : u.fits s.params) (h : (s.after pulse).meets (swdClearX s.params v u)) :
    (scs cause (some v) s : Run Error α) = .stop (.accessFault cause (some v) false)
      ((s.after (pulse.andThen (swdClearX s.params v u))).withBlock
        { s.st with selectCache := none, clearPending := false }) := by
  simp only [scs, scsClear]
  rw [emitInvalidate_eq, setSelect_eq, withBlock_after]
  by_cases hs : sticky v = true
  · rw [if_pos hs]
    rw [swdClearX, if_pos hs] at h ⊢
    rw [writeClear_swd (by simpa using hp), swdXfer_writeOk (p := s.params) (by simp) hu (by simpa using h),
      clearStep_ok, scsDone, setPending_eq]
    simp
  · rw [if_neg hs, swdClearX, if_neg hs, scsDone, setPending_eq]
    simp

/-- Started by a fault or a parity error: it polls first. -/
theorem scs_fault_swd {α : Type} {s : State} {v : Word} {t u : SwdTry} {cause : FaultCause}
    (hp : s.st.proto = some .swd) (ht : t.fits s.params) (hu : u.fits s.params)
    (h : s.meets (swdScsX s.params v t u)) :
    (scs cause none s : Run Error α) = .stop (.accessFault cause (some v) false)
      ((s.after (swdScsX s.params v t u)).withBlock (s.st.cleared v)) := by
  obtain ⟨h12, h3⟩ := meets_andThen.mp h
  obtain ⟨-, h2⟩ := meets_andThen.mp h12
  simp only [scs]
  rw [emitInvalidate_eq, setSelect_eq, withBlock_after,
    poll_swd (p := s.params) (by simpa using hp) (by simp) ht (by simpa using h2), clearStep_ok, scsClear]
  by_cases hs : sticky v = true
  · rw [if_pos hs]
    rw [swdScsX, swdClearX, if_pos hs] at *
    rw [writeClear_swd (by simpa [Block.observed] using hp),
      swdXfer_writeOk (p := s.params) (by simp) hu (by simpa using h3), clearStep_ok, scsDone, setPending_eq]
    simp [Block.cleared, Block.observed]
  · rw [if_neg hs]
    rw [swdScsX, swdClearX, if_neg hs] at *
    rw [scsDone, setPending_eq]
    simp [Block.cleared, Block.observed]

end Sys2Proof.Machine
end

