-- ==== Sys2Proof/Laws/Clear.lean ====
section
/-! SUPPORT. What the clear sequences do when a transaction in them fails (60_exceptions.md R264, R266, R276, R284). -/

namespace Sys2Proof.Machine

/-- A lost call inside a clear sequence, whatever was known of the TAP. -/
theorem clearStep_lost {α β : Type} {s : State} {x : Answer → Exchange} {y : Severe} (tap : Option TapState)
    (hy : y ∈ lostCall x) (h : s.meets y.exchange) (r : Run LinkFail α)
    (hr : ∀ lost, (∀ bits, lost ≠ .ok bits) → s.meets (x lost) →
      r = .stop (lostAs lost) ((s.after (x lost)).withBlock { s.st with tap := tap }))
    (f : State → Run Error β) (n : α → State → Run Error β) :
    clearStep r f n = .stop y.error ((s.after y.exchange).withBlock (y.block s.st)) := by
  simp only [lostCall, List.mem_cons, List.not_mem_nil, or_false] at hy
  rcases hy with rfl | rfl
  · rw [hr _ (by simp) h]
    simp [lostAs, linkDisconnected_eq, Block.lost]
  · rw [hr _ (by simp) (meets_andThen.mp h).1]
    simp [lostAs, linkUnsupported_eq, Block.unsupported]

/-- An undecodable acknowledge inside a clear sequence. -/
theorem clearStep_desync {α β : Type} {s : State} {x : Exchange} {k : BitVec 3} (r : Run LinkFail α)
    (hr : r = .stop (.invalidAck k) (s.after x)) (f : State → Run Error β) (n : α → State → Run Error β) :
    clearStep r f n = .stop (.invalidAck k) ((s.after (x.andThen pulse)).withBlock s.st.desynced) := by
  rw [hr, clearStep_invalidAck, linkDesync_eq]
  simp

/-- The severe results of an SWD transaction inside a clear sequence. -/
theorem clearStep_swdSevere {β : Type} {p : Params} {s : State} {rnw : Bool} {a : BitVec 2} {w : Word} {k : BitVec 3}
    {t : SwdTry} {y : Severe} (hp : s.params = p) (hf : t.fits p) (hk : k ∈ [0b000, 0b011, 0b101, 0b110, 0b111])
    (hy : y ∈ swdSevere p rnw a k t) (h : s.meets y.exchange) (f : State → Run Error β)
    (n : Word → State → Run Error β) :
    clearStep (swdXfer false rnw a w s) f n =
      .stop y.error ((s.after y.exchange).withBlock (y.block s.st)) := by
  have hack : swdAck k = .invalid k := by
    clear hy h
    revert k
    decide
  rcases List.mem_cons.mp hy with rfl | hy
  · exact clearStep_desync _ (swdXfer_invalid hp hf hack (meets_andThen.mp h).1) f n
  · exact clearStep_lost s.st.tap hy h _ (fun lost hn hm => by
      rw [swdXfer_lost hn hm, ← after_st s (swdLostX false rnw a lost)]; rfl) f n

/-- The severe results of a DPACC transaction inside a clear sequence. -/
theorem clearStep_jtagSevere {β : Type} {s : State} {rnw : Bool} {a : BitVec 2} {w d : Word} {k : BitVec 3} {t : JtagTry}
    {y : Severe} {g : Word → State → Run LinkFail Word} (hf : t.fits s.params) (ht : s.st.tap = some .rti)
    (hk : k ∈ [0b000, 0b011, 0b100, 0b101, 0b110, 0b111]) (hy : y ∈ jtagSevere rnw a w d k t) (h : s.meets y.exchange)
    (f : State → Run Error β) (n : Word → State → Run Error β) :
    clearStep ((jtagXpacc rnw a w s).bind g) f n =
      .stop y.error ((s.after y.exchange).withBlock (y.block s.st)) := by
  have hack : jtagAck k = .invalid k := by
    clear hy h
    revert k
    decide
  rcases List.mem_cons.mp hy with rfl | hy
  · refine clearStep_desync _ ?_ f n
    rw [jtagXpacc_invalid hf ht hack (meets_andThen.mp h).1, Run.bind_stop]
  · refine clearStep_lost none hy h _ (fun lost hn hm => ?_) f n
    rw [jtagXpacc_lost hn hm, Run.bind_stop]

/-- The failures of a poll over SWD that are not severe. -/
theorem clearStep_pollFails {β : Type} {p : Params} {s : State} {data : Word} {t : SwdTry} {js : List SwdJunk}
    {y : Exchange} (hpr : s.st.proto = some .swd) (hp : s.params = p) (hf : t.fits p)
    (hl : js.length = p.waitRetries + 1) (hy : y ∈ swdPollFails p data t js) (h : s.meets y) (f : State → Run Error β)
    (n : Word → State → Run Error β) : clearStep (poll s) f n = f (s.after y) := by
  rw [poll, dpRead_swd hpr, aCtrlStat]
  simp only [swdPollFails, List.mem_cons, List.not_mem_nil, or_false] at hy
  rcases hy with rfl | rfl | rfl
  · rw [swdXfer_fault hp hf h, Run.bind_stop, clearStep_fault]
  · rw [swdXfer_parity hp hf (swdData_bad _) h, Run.bind_stop, clearStep_parity]
  · rw [swdXfer_timeout hp hl h, Run.bind_stop, clearStep_timeout]

/-- The severe results of a poll over SWD. -/
theorem clearStep_pollSevere {β : Type} {p : Params} {s : State} {k : BitVec 3} {t : SwdTry} {y : Severe}
    (hpr : s.st.proto = some .swd) (hp : s.params = p) (hf : t.fits p) (hk : k ∈ [0b000, 0b011, 0b101, 0b110, 0b111])
    (hy : y ∈ swdSevere p true 1 k t) (h : s.meets y.exchange) (f : State → Run Error β)
    (n : Word → State → Run Error β) :
    clearStep (poll s) f n = .stop y.error ((s.after y.exchange).withBlock (y.block s.st)) := by
  rw [← clearStep_swdSevere (w := 0) hp hf hk hy h f fun v s => n v (observeCtrlStat v s), poll, dpRead_swd hpr,
    aCtrlStat]
  rcases swdXfer false true 1 0 s with ⟨_, _⟩ | ⟨e, _⟩
  · rfl
  · cases e <;> rfl

/-- The failures of the ABORT write over SWD that are not severe. -/
theorem clearStep_clearFails {β : Type} {p : Params} {s : State} {v : Word} {t : SwdTry} {js : List SwdJunk}
    {y : Exchange} (hpr : s.st.proto = some .swd) (hp : s.params = p) (hf : t.fits p)
    (hl : js.length = p.waitRetries + 1) (hy : y ∈ swdClearFails p t js) (h : s.meets y) (f : State → Run Error β)
    (n : Word → State → Run Error β) : clearStep (writeClear v s) f n = f (s.after y) := by
  rw [writeClear_swd hpr]
  simp only [swdClearFails, List.mem_cons, List.not_mem_nil, or_false] at hy
  rcases hy with rfl | rfl
  · rw [swdXfer_fault hp hf h, clearStep_fault]
  · rw [swdXfer_timeout hp hl h, clearStep_timeout]

/-- The failures of the clear write on JTAG that are not severe. -/
theorem clearStep_jtagClearFails {β : Type} {p : Params} {s : State} {v : Word} {scans : List Capture} {y : Exchange}
    (hpr : s.st.proto = some .jtag) (hp : s.params = p) (hi : s.st.irCache = some 0xA) (ht : s.st.tap = some .rti)
    (hl : scans.length = p.waitRetries + 1) (hy : y ∈ jtagClearFails p v scans) (h : s.meets y)
    (f : State → Run Error β) (n : Word → State → Run Error β) : clearStep (writeClear v s) f n = f (s.after y) := by
  subst hp
  rw [writeClear, if_neg (by simp [hpr])]
  cases hk : s.params.jtagStickyClear with
  | abortWrite => simp [jtagClearFails, hk] at hy
  | ctrlStatW1C =>
    simp only [jtagClearFails, hk, List.mem_cons, List.not_mem_nil, or_false] at hy
    subst hy
    simp only [jtagWriteDp, ensureIr_held (ir := irCodeDpacc) hi, Run.bind_ok, aCtrlStat]
    rw [jtagXpacc_timeout hl ht h, Run.bind_stop, clearStep_timeout]

/-- The severe results of the clear write on JTAG. -/
theorem clearStep_jtagClearSevere {β : Type} {p : Params} {s : State} {v d : Word} {k : BitVec 3} {ir : Wire} {t : JtagTry}
    {y : Severe} (hpr : s.st.proto = some .jtag) (hp : s.params = p) (hi : s.st.irCache = some 0xA)
    (ht : s.st.tap = some .rti) (hf : t.fits p) (hk : k ∈ [0b000, 0b011, 0b100, 0b101, 0b110, 0b111])
    (hy : y ∈ jtagClearSevere p v d k ir t) (h : s.meets y.exchange) (f : State → Run Error β)
    (n : Word → State → Run Error β) :
    clearStep (writeClear v s) f n = .stop y.error ((s.after y.exchange).withBlock (y.block s.st)) := by
  subst hp
  rw [writeClear, if_neg (by simp [hpr])]
  cases hc : s.params.jtagStickyClear with
  | abortWrite =>
    simp only [jtagAbort, ensureIr_other (s := s) (ir := irCodeAbort) (by rw [hi]; decide)]
    simp only [jtagClearSevere, hc, List.mem_append, List.mem_map] at hy
    rcases hy with hy | ⟨y, hy, rfl⟩
    · refine clearStep_lost none hy h _ (fun lost hn hm => ?_) f n
      rw [irCodeAbort, irScan_lost hn hm, Run.bind_stop]
    · obtain ⟨h1, h2⟩ := meets_andThen.mp h
      rw [irCodeAbort, irScan_X h1 ht, Run.bind_ok]
      rw [clearStep_lost (s := (s.after (irScanX 0x8 ir)).withBlock { s.st with irCache := some 0x8 }) none hy
        (by simpa using h2) _ (fun lost hn hm => by rw [abortScan_lost hn hm, Run.bind_stop]) f n]
      simp only [lostCall, List.mem_cons, List.not_mem_nil, or_false] at hy
      rcases hy with rfl | rfl <;> simp [Severe.behind, Block.lost, Block.unsupported]
  | ctrlStatW1C =>
    simp only [jtagClearSevere, hc] at hy
    simp only [jtagWriteDp, ensureIr_held (ir := irCodeDpacc) hi, Run.bind_ok, aCtrlStat]
    exact clearStep_jtagSevere hf ht hk hy h f n

end Sys2Proof.Machine
end

