-- ==== Sys2Proof/Laws/PerInstr.lean ====
section
/-! SUPPORT. A statement about every instruction as syntax: its encoding stands on the row of spec/opcode_table.json that
its constructor stands for. One lemma per constructor. -/

namespace Sys2Proof.Laws

/-- The formats of 30_encoding.md R80 that an opcode-table row names. -/
inductive Format where
  | swdReq
  | jtagIr
  | jtagDr35
  | jtagDr32
  | hostCmd
deriving DecidableEq, Repr

/-- A row of spec/opcode_table.json: its format, and its fixed bits, which are the `width` low ones, as a number. -/
structure Row where
  format : Format
  width : Nat
  value : Nat
deriving DecidableEq, Repr

/-- The row of each instruction, from the table's format, mask and match. -/
def tableRow : Instr → Row
  | .dpR0 => ⟨.swdReq, 8, 0xA5⟩
  | .dpR4 => ⟨.swdReq, 8, 0x8D⟩
  | .dpR8 => ⟨.swdReq, 8, 0x95⟩
  | .dpRC => ⟨.swdReq, 8, 0xBD⟩
  | .dpW0 _ => ⟨.swdReq, 8, 0x81⟩
  | .dpW4 _ => ⟨.swdReq, 8, 0xA9⟩
  | .dpW8 _ => ⟨.swdReq, 8, 0xB1⟩
  | .dpWC _ => ⟨.swdReq, 8, 0x99⟩
  | .apR0 => ⟨.swdReq, 8, 0x87⟩
  | .apR1 => ⟨.swdReq, 8, 0xAF⟩
  | .apR2 => ⟨.swdReq, 8, 0xB7⟩
  | .apR3 => ⟨.swdReq, 8, 0x9F⟩
  | .apW0 _ => ⟨.swdReq, 8, 0xA3⟩
  | .apW1 _ => ⟨.swdReq, 8, 0x8B⟩
  | .apW2 _ => ⟨.swdReq, 8, 0x93⟩
  | .apW3 _ => ⟨.swdReq, 8, 0xBB⟩
  | .irAbort => ⟨.jtagIr, 4, 0x8⟩
  | .irDpacc => ⟨.jtagIr, 4, 0xA⟩
  | .irApacc => ⟨.jtagIr, 4, 0xB⟩
  | .irIdcode => ⟨.jtagIr, 4, 0xE⟩
  | .irBypass => ⟨.jtagIr, 4, 0xF⟩
  | .dpaccR _ => ⟨.jtagDr35, 1, 0x1⟩
  | .dpaccW _ _ => ⟨.jtagDr35, 1, 0x0⟩
  | .apaccR _ => ⟨.jtagDr35, 1, 0x1⟩
  | .apaccW _ _ => ⟨.jtagDr35, 1, 0x0⟩
  | .abortW _ => ⟨.jtagDr35, 3, 0x0⟩
  | .idcodeR => ⟨.jtagDr32, 32, 0x0⟩
  | .connectSwd => ⟨.hostCmd, 6, 0x00⟩
  | .connectJtag => ⟨.hostCmd, 6, 0x10⟩
  | .setClock _ => ⟨.hostCmd, 4, 0x1⟩
  | .readDp _ => ⟨.hostCmd, 4, 0x2⟩
  | .writeDp _ _ => ⟨.hostCmd, 4, 0x3⟩
  | .readAp _ _ => ⟨.hostCmd, 4, 0x4⟩
  | .writeAp _ _ _ => ⟨.hostCmd, 4, 0x5⟩
  | .powerUp => ⟨.hostCmd, 4, 0x6⟩
  | .reservedOp7 => ⟨.hostCmd, 4, 0x7⟩
  | .reservedOp8 => ⟨.hostCmd, 4, 0x8⟩
  | .reservedOp9 => ⟨.hostCmd, 4, 0x9⟩
  | .reservedOp10 => ⟨.hostCmd, 4, 0xA⟩
  | .reservedOp11 => ⟨.hostCmd, 4, 0xB⟩
  | .reservedOp12 => ⟨.hostCmd, 4, 0xC⟩
  | .reservedOp13 => ⟨.hostCmd, 4, 0xD⟩
  | .reservedOp14 => ⟨.hostCmd, 4, 0xE⟩
  | .reservedOp15 => ⟨.hostCmd, 4, 0xF⟩

/-- The format and the bits of a port word. -/
def wordFormat : PortWord → Format
  | .host _ => .hostCmd
  | .swd _ => .swdReq
  | .ir _ => .jtagIr
  | .dr35 _ _ => .jtagDr35
  | .dr32 _ _ => .jtagDr32

def wordBits : PortWord → Nat
  | .host w => w.toNat
  | .swd w => w.toNat
  | .ir w => w.toNat
  | .dr35 _ w => w.toNat
  | .dr32 _ w => w.toNat

/-- The encoding of an instruction has the format of its row, and the row's fixed bits. -/
def Encoded.Statement (i : Instr) : Prop :=
  wordFormat (encode i) = (tableRow i).format ∧ wordBits (encode i) % 2 ^ (tableRow i).width = (tableRow i).value

/-- The low bits of two values side by side are those of the right one. -/
theorem append_low {n m : Nat} (x : BitVec n) (y : BitVec m) : (x ++ y).toNat % 2 ^ m = y.toNat := by
  rw [BitVec.toNat_append, Nat.shiftLeft_eq, Nat.or_comm, ← Nat.mul_comm, Nat.or_comm]
  rw [show 2 ^ m * x.toNat ||| y.toNat = 2 ^ m * x.toNat + y.toNat from
    (Nat.two_pow_add_eq_or_of_lt y.isLt x.toNat).symm]
  rw [Nat.mul_add_mod, Nat.mod_eq_of_lt y.isLt]

theorem Encoded.dpR0 : Encoded.Statement .dpR0 := ⟨rfl, by decide⟩
theorem Encoded.dpR4 : Encoded.Statement .dpR4 := ⟨rfl, by decide⟩
theorem Encoded.dpR8 : Encoded.Statement .dpR8 := ⟨rfl, by decide⟩
theorem Encoded.dpRC : Encoded.Statement .dpRC := ⟨rfl, by decide⟩
theorem Encoded.dpW0 (x : Word) : Encoded.Statement (.dpW0 x) := ⟨rfl, append_low _ _⟩
theorem Encoded.dpW4 (x : Word) : Encoded.Statement (.dpW4 x) := ⟨rfl, append_low _ _⟩
theorem Encoded.dpW8 (x : Word) : Encoded.Statement (.dpW8 x) := ⟨rfl, append_low _ _⟩
theorem Encoded.dpWC (x : Word) : Encoded.Statement (.dpWC x) := ⟨rfl, append_low _ _⟩
theorem Encoded.apR0 : Encoded.Statement .apR0 := ⟨rfl, by decide⟩
theorem Encoded.apR1 : Encoded.Statement .apR1 := ⟨rfl, by decide⟩
theorem Encoded.apR2 : Encoded.Statement .apR2 := ⟨rfl, by decide⟩
theorem Encoded.apR3 : Encoded.Statement .apR3 := ⟨rfl, by decide⟩
theorem Encoded.apW0 (x : Word) : Encoded.Statement (.apW0 x) := ⟨rfl, append_low _ _⟩
theorem Encoded.apW1 (x : Word) : Encoded.Statement (.apW1 x) := ⟨rfl, append_low _ _⟩
theorem Encoded.apW2 (x : Word) : Encoded.Statement (.apW2 x) := ⟨rfl, append_low _ _⟩
theorem Encoded.apW3 (x : Word) : Encoded.Statement (.apW3 x) := ⟨rfl, append_low _ _⟩
theorem Encoded.irAbort : Encoded.Statement .irAbort := ⟨rfl, by decide⟩
theorem Encoded.irDpacc : Encoded.Statement .irDpacc := ⟨rfl, by decide⟩
theorem Encoded.irApacc : Encoded.Statement .irApacc := ⟨rfl, by decide⟩
theorem Encoded.irIdcode : Encoded.Statement .irIdcode := ⟨rfl, by decide⟩
theorem Encoded.irBypass : Encoded.Statement .irBypass := ⟨rfl, by decide⟩
theorem Encoded.dpaccR (x : BitVec 2) : Encoded.Statement (.dpaccR x) := ⟨rfl, append_low _ _⟩
theorem Encoded.dpaccW (x : DpaccReg) (y : Word) : Encoded.Statement (.dpaccW x y) := ⟨rfl, append_low _ _⟩
theorem Encoded.apaccR (x : BitVec 2) : Encoded.Statement (.apaccR x) := ⟨rfl, append_low _ _⟩
theorem Encoded.apaccW (x : BitVec 2) (y : Word) : Encoded.Statement (.apaccW x y) := ⟨rfl, append_low _ _⟩
theorem Encoded.abortW (x : Word) : Encoded.Statement (.abortW x) := ⟨rfl, append_low _ _⟩
theorem Encoded.idcodeR : Encoded.Statement .idcodeR := ⟨rfl, by decide⟩
theorem Encoded.connectSwd : Encoded.Statement .connectSwd := ⟨rfl, by decide⟩
theorem Encoded.connectJtag : Encoded.Statement .connectJtag := ⟨rfl, by decide⟩
theorem Encoded.setClock (x : Word) : Encoded.Statement (.setClock x) := ⟨rfl, append_low _ _⟩
theorem Encoded.readDp (x : Addr) : Encoded.Statement (.readDp x) := ⟨rfl, append_low _ _⟩
theorem Encoded.writeDp (x : Addr) (y : Word) : Encoded.Statement (.writeDp x y) := ⟨rfl, append_low _ _⟩
theorem Encoded.readAp (x : Addr) (y : Addr) : Encoded.Statement (.readAp x y) := ⟨rfl, append_low _ _⟩
theorem Encoded.writeAp (x : Addr) (y : Addr) (z : Word) : Encoded.Statement (.writeAp x y z) := ⟨rfl, append_low _ _⟩
theorem Encoded.powerUp : Encoded.Statement .powerUp := ⟨rfl, by decide⟩
theorem Encoded.reservedOp7 : Encoded.Statement .reservedOp7 := ⟨rfl, by decide⟩
theorem Encoded.reservedOp8 : Encoded.Statement .reservedOp8 := ⟨rfl, by decide⟩
theorem Encoded.reservedOp9 : Encoded.Statement .reservedOp9 := ⟨rfl, by decide⟩
theorem Encoded.reservedOp10 : Encoded.Statement .reservedOp10 := ⟨rfl, by decide⟩
theorem Encoded.reservedOp11 : Encoded.Statement .reservedOp11 := ⟨rfl, by decide⟩
theorem Encoded.reservedOp12 : Encoded.Statement .reservedOp12 := ⟨rfl, by decide⟩
theorem Encoded.reservedOp13 : Encoded.Statement .reservedOp13 := ⟨rfl, by decide⟩
theorem Encoded.reservedOp14 : Encoded.Statement .reservedOp14 := ⟨rfl, by decide⟩
theorem Encoded.reservedOp15 : Encoded.Statement .reservedOp15 := ⟨rfl, by decide⟩

end Sys2Proof.Laws
end

