-- ==== Sys2Proof/Laws/Target.lean ====
section
/-! SUPPORT. What a run of the reference target does, phase by phase (41_jtag_tap.md R164, R167, R168; log 22). -/

namespace Sys2Proof.Machine

theorem targetRun_append (src : TargetSource) (l m : List (Bool × Bool)) :
    ∀ t : TargetTap, targetRun src t (l ++ m) =
      ((targetRun src t l).1 ++ (targetRun src (targetRun src t l).2 m).1,
        (targetRun src (targetRun src t l).2 m).2) := by
  induction l with
  | nil => intro t; rfl
  | cons c l ih => intro t; simp only [List.cons_append, targetRun, ih]

/-- In Shift-DR a known data register gives out its lowest bits and takes in as many at the top. -/
theorem targetRun_shDR (src : TargetSource) (bits : List Bool) :
    ∀ t : TargetTap, t.state = .shDR → (drCapture src t.ir).isSome = true → bits.length ≤ t.drShift.length →
      targetRun src t (bits.map fun b => (false, b)) =
        ((t.drShift.take bits.length).map some, { t with drShift := t.drShift.drop bits.length ++ bits }) := by
  induction bits with
  | nil => intro t _ _ _; simp [targetRun]
  | cons b bits ih =>
    intro t hs hk hl
    obtain ⟨st, ir, is, ds, w, ac⟩ := t
    simp only at hs hk hl
    subst hs
    cases ds with
    | nil => simp at hl
    | cons d ds =>
      simp only [List.length_cons, Nat.add_le_add_iff_right] at hl
      simp only [List.map_cons, targetRun, targetClock, hk, if_true, tapNext]
      rw [ih _ rfl hk (by simp [shiftIn]; omega)]
      simp [shiftIn, List.take_append, List.drop_append, Nat.sub_eq_zero_of_le hl]

/-- Into Shift-DR from Run-Test/Idle: the data register is captured. -/
theorem targetRun_capture (src : TargetSource) (t : TargetTap) (a b c : Bool) (h : t.state = .rti) :
    targetRun src t [(true, a), (false, b), (false, c)] =
      ([none, none, none],
        { t with state := .shDR, drShift := (drCapture src t.ir).getD t.drShift, waited := src.ack == 0b001 }) := by
  obtain ⟨st, ir, is, ds, w, ac⟩ := t
  subst h
  rfl

/-- Out of Shift-DR: one more bit, the update, and Run-Test/Idle. -/
theorem targetRun_update (src : TargetSource) (t : TargetTap) (a b c : Bool) (h : t.state = .shDR)
    (hk : (drCapture src t.ir).isSome = true) :
    targetRun src t [(true, a), (true, b), (false, c)] =
      ([t.drShift.head?, none, none], { t with
        state := .rti, drShift := shiftIn t.drShift a,
        actions := t.actions ++ drUpdate t.waited t.ir (ofLsbFirst 35 (shiftIn t.drShift a)) }) := by
  obtain ⟨st, ir, is, ds, w, ac⟩ := t
  simp only at h hk
  subst h
  simp [targetRun, targetClock, tapNext, hk]

/-- A whole scan of a known data register of length `n + 1` from Run-Test/Idle: what was captured comes out, what was sent
goes in, and the update acts on it. -/
theorem targetRun_scan (src : TargetSource) (t : TargetTap) (cap bits : List Bool) (a b c d e last : Bool)
    (h : t.state = .rti) (hc : drCapture src t.ir = some cap) (hl : cap.length = bits.length + 1) :
    targetRun src t ([(true, a), (false, b), (false, c)] ++ (bits.map fun x => (false, x)) ++
        [(true, last), (true, d), (false, e)]) =
      ([none, none, none] ++ cap.map some ++ [none, none], { t with
        drShift := bits ++ [last], waited := src.ack == 0b001,
        actions := t.actions ++ drUpdate (src.ack == 0b001) t.ir (ofLsbFirst 35 (bits ++ [last])) }) := by
  obtain ⟨x, hx⟩ : ∃ x, cap.drop bits.length = [x] := List.length_eq_one_iff.mp (by simp [hl])
  have hcap : cap = cap.take bits.length ++ [x] := by rw [← hx, List.take_append_drop]
  rw [targetRun_append, targetRun_append, targetRun_capture src t a b c h, hc, Option.getD_some,
    targetRun_shDR src bits _ rfl (by simp [hc]) (by simp [hl]), targetRun_update _ _ _ _ _ rfl (by simp [hc])]
  simp only [hx, List.cons_append, List.nil_append, List.head?_cons, shiftIn, List.tail_cons]
  refine Prod.ext ?_ (by simp [h])
  conv => rhs; rw [hcap]
  simp

/-- The clocks of `DrScan(35, din)`. -/
theorem sequenceClocks_dr35 (din : BitVec 35) :
    sequenceClocks (drScanLen 35) (drScanTms 35) (drScanTdi din) =
      [(true, false), (false, false), (false, false)] ++ ((List.range 34).map din.getLsbD).map (fun x => (false, x)) ++
        [(true, din.getLsbD 34), (true, false), (false, false)] := by
  have h : ∀ i, (drScanTdi din).getLsbD i = (decide (3 ≤ i) && din.getLsbD (i - 3)) := by
    intro i
    rw [drScanTdi, BitVec.getLsbD_shiftLeft, BitVec.getLsbD_setWidth]
    by_cases h3 : i < 3
    · simp [h3]
    · by_cases h35 : i - 3 < 35
      · have : i < 40 := by omega
        have : 3 ≤ i := by omega
        have : i - 3 < 40 := by omega
        simp [*]
      · simp [BitVec.getLsbD_of_ge din (i - 3) (by omega)]
  have h35 : din.getLsbD 35 = false := BitVec.getLsbD_of_ge din 35 (by omega)
  have h36 : din.getLsbD 36 = false := BitVec.getLsbD_of_ge din 36 (by omega)
  simp only [sequenceClocks, h]
  generalize din.getLsbD = f at h35 h36 ⊢
  rw [show List.range (drScanLen 35) = List.range 38 ++ [38, 39] from rfl, List.map_append, List.map_cons, List.map_cons,
    List.map_nil]
  simp only [Nat.reduceSub, h35, h36, Bool.and_false]
  rfl

/-- The clocks of `DrScan(32, 0)`. -/
theorem sequenceClocks_dr32 :
    sequenceClocks (drScanLen 32) (drScanTms 32) (drScanTdi (0 : BitVec 32)) =
      [(true, false), (false, false), (false, false)] ++ (List.replicate 31 false).map (fun x => (false, x)) ++
        [(true, false), (true, false), (false, false)] := by decide

theorem ofLsbFirst_lsbFirst {n : Nat} (v : BitVec n) : ofLsbFirst n (lsbFirst v) = v := by
  apply BitVec.eq_of_getLsbD_eq
  intro i hi
  rw [ofLsbFirst, lsbFirst, BitVec.getLsbD_setWidth, BitVec.getLsbD_ofBoolListLE]
  simp [hi]

end Sys2Proof.Machine
end

