-- ==== Sys2Proof/Tests/Slice0.lean ====
section
/-! SUPPORT. Tests: ill-formed terms each check of WellFormed refuses, words written out from 30_encoding.md, single steps
whose expected wire words and results stand in 95_test_vectors.md (the section is named at each), and a witness for the
hypotheses of each statement. -/

namespace Sys2Proof.Tests

set_option Elab.async false

open Machine

/-! ## WellFormed: one ill-formed term for each check (42_dpap_commands.md R219, 30_encoding.md R94) -/

theorem test_wf_dp_address : (Instr.readDp 0x10).wellFormed = false := by decide
theorem test_wf_dp_address_low_bits : (Instr.writeDp 0x5 0).wellFormed = false := by decide
theorem test_wf_ap_address : (Instr.readAp 0 0x02).wellFormed = false := by decide
theorem test_wf_ap_write_address : (Instr.writeAp 0 0xFD 0).wellFormed = false := by decide
theorem test_wf_dpbanksel : (Instr.writeDp 0x8 0xF1).wellFormed = false := by decide
theorem test_wf_targetsel : (Instr.writeDp 0xC 0).wellFormed = false := by decide
theorem test_wf_targetsel_request : (Instr.dpWC 0).wellFormed = false := by decide
theorem test_wf_orundetect_request : (Instr.dpW4 0x50000001).wellFormed = false := by decide
theorem test_wf_select_request : (Instr.dpW8 0x00000008).wellFormed = false := by decide
theorem test_wf_dpacc_select : (Instr.dpaccW .select 0x000000F2).wellFormed = false := by decide
theorem test_wf_clock : (Instr.setClock 0).wellFormed = false := by decide
theorem test_wf_reserved_opcode : (Instr.reservedOp7).wellFormed = false := by decide
theorem test_wf_good : (Instr.writeDp 0x8 0xF0).wellFormed && (Instr.readAp 255 0xFC).wellFormed := by decide

/-! ## Decoding: words written out bit by bit from the spec -/

/-- 30_encoding.md R83, R81: DP reads, Start in bit 0 and Park in bit 7. -/
theorem test_decode_dp_reads :
    decode (.swd 0b10100101) = .ok .dpR0 ∧ decode (.swd 0b10001101) = .ok .dpR4 ∧
      decode (.swd 0b10010101) = .ok .dpR8 ∧ decode (.swd 0b10111101) = .ok .dpRC := by decide
/-- 30_encoding.md R83, R85; the data phases are those of 95_test_vectors.md section 2.1. -/
theorem test_decode_dp_writes :
    decode (.swd 0x0_0000001E_81) = .ok (.dpW0 0x1E) ∧ decode (.swd 0x0_50000000_A9) = .ok (.dpW4 0x50000000) ∧
      decode (.swd 0x0_000000F0_B1) = .ok (.dpW8 0xF0) ∧ decode (.swd 0x1_00000001_99) = .ok (.dpWC 1) := by decide
/-- 30_encoding.md R83. -/
theorem test_decode_ap_reads :
    decode (.swd 0b10000111) = .ok .apR0 ∧ decode (.swd 0b10101111) = .ok .apR1 ∧
      decode (.swd 0b10110111) = .ok .apR2 ∧ decode (.swd 0b10011111) = .ok .apR3 := by decide
/-- 30_encoding.md R83, R85; the data phases are those of 95_test_vectors.md section 2.1. -/
theorem test_decode_ap_writes :
    decode (.swd 0x0_FFFFFFFF_A3) = .ok (.apW0 0xFFFFFFFF) ∧ decode (.swd 0x1_20000000_8B) = .ok (.apW1 0x20000000) ∧
      decode (.swd 0x1_80000000_93) = .ok (.apW2 0x80000000) ∧
      decode (.swd 0x0_DEADBEEF_BB) = .ok (.apW3 0xDEADBEEF) := by decide
/-- 30_encoding.md R94: Stop 1, Park 0, Start 0, and a wrong parity are no request; a wrong data parity is no data phase. -/
theorem test_decode_swd_rejects :
    decode (.swd 0b11100101) = .error .swdFraming ∧ decode (.swd 0b00100101) = .error .swdFraming ∧
      decode (.swd 0b10100100) = .error .swdFraming ∧ decode (.swd 0b10000101) = .error .swdRequestParity ∧
      decode (.swd 0x1_0000001E_81) = .error .swdDataParity := by decide
/-- 30_encoding.md R87, R88. -/
theorem test_decode_ir :
    decode (.ir 0b1000) = .ok .irAbort ∧ decode (.ir 0b1010) = .ok .irDpacc ∧ decode (.ir 0b1011) = .ok .irApacc ∧
      decode (.ir 0b1110) = .ok .irIdcode ∧ decode (.ir 0b1111) = .ok .irBypass ∧
      decode (.ir 0b1001) = .error (.reservedIr 0b1001) := by decide
/-- 30_encoding.md R89, R91, R92; the values are those of 95_test_vectors.md section 2.4. -/
theorem test_decode_dr :
    decode (.dr35 0xA 0x000000003) = .ok (.dpaccR 1) ∧ decode (.dr35 0xA 0x000000784) = .ok (.dpaccW .select 0xF0) ∧
      decode (.dr35 0xA 0x280000002) = .ok (.dpaccW .ctrlStat 0x50000000) ∧
      decode (.dr35 0xB 0x000000005) = .ok (.apaccR 2) ∧ decode (.dr35 0xB 0x00000000A) = .ok (.apaccW 1 1) ∧
      decode (.dr35 0x8 0x000000020) = .ok (.abortW 4) ∧ decode (.dr32 0xE 0) = .ok .idcodeR := by decide
/-- 30_encoding.md R94: a DPACC write of A[3:2] = 0 or 3 is none of the block's. -/
theorem test_decode_dr_rejects :
    decode (.dr35 0xA 0x000000000) = .error (.dpaccWriteAddress 0) ∧
      decode (.dr35 0xA 0x000000006) = .error (.dpaccWriteAddress 3) ∧
      decode (.dr35 0x8 0x000000001) = .error .abortLowBits := by decide
/-- 95_test_vectors.md section 2.8. -/
theorem test_decode_host :
    decode (.host 0x000000000000000000000000) = .ok .connectSwd ∧
      decode (.host 0x000000000000000000000010) = .ok .connectJtag ∧
      decode (.host 0x003D09000000000000000001) = .ok (.setClock 4000000) ∧
      decode (.host 0x000000000000000000040002) = .ok (.readDp 0x4) ∧
      decode (.host 0x00000000000000F000080003) = .ok (.writeDp 0x8 0xF0) ∧
      decode (.host 0x000000000000000000000104) = .ok (.readAp 1 0) ∧
      decode (.host 0x000000002000000000040005) = .ok (.writeAp 0 0x4 0x20000000) ∧
      decode (.host 0x000000000000000000000006) = .ok .powerUp := by decide
/-- 95_test_vectors.md section 2.8: the reserved bits are ignored, a proto of 2 is rejected. -/
theorem test_decode_host_reserved_bits :
    decode (.host 0x0000000000000000FF0400C2) = .ok (.readDp 0x4) ∧
      decode (.host 0x000000000000000000000020) = .error (.badProtocol 2) := by decide
/-- 30_encoding.md R102. -/
theorem test_decode_reserved_opcodes :
    decode (.host 7) = .ok .reservedOp7 ∧ decode (.host 8) = .ok .reservedOp8 ∧ decode (.host 9) = .ok .reservedOp9 ∧
      decode (.host 10) = .ok .reservedOp10 ∧ decode (.host 11) = .ok .reservedOp11 ∧
      decode (.host 12) = .ok .reservedOp12 ∧ decode (.host 13) = .ok .reservedOp13 ∧
      decode (.host 14) = .ok .reservedOp14 ∧ decode (.host 15) = .ok .reservedOp15 := by decide
/-- Words of spec/opcode_table.json as bare numbers (log 12). -/
theorem test_decode_table :
    decodeTableWord 8 0xA5 = some .dpR0 ∧ decodeTableWord 4 0xB = some .irApacc ∧
      decodeTableWord 35 0x3 = some (.dpaccR 1) ∧ decodeTableWord 32 0 = some .idcodeR ∧
      decodeTableWord 96 0x000C0004 = some (.readAp 0 0xC) := by decide
/-- 30_encoding.md R81, 95_test_vectors.md section 2.2: the sixteen request bytes, written as the table of R83 has them. -/
theorem test_encode_requests :
    (List.map (fun a => swdRequest false true a) [0, 1, 2, 3] = [0xA5, 0x8D, 0x95, 0xBD]) ∧
      (List.map (fun a => swdRequest true false a) [0, 1, 2, 3] = [0xA3, 0x8B, 0x93, 0xBB]) := by decide
/-- 95_test_vectors.md section 2.6. -/
theorem test_abort_values :
    List.map abortValue [0xF0000000, 0xF0000002, 0xF0000010, 0xF0000020, 0xF0000080, 0xF0000022, 0xB2, 0xF000004D] =
      [0x00, 0x10, 0x02, 0x04, 0x08, 0x14, 0x1E, 0x00] := by decide
/-- 95_test_vectors.md section 2.7. -/
theorem test_required_select :
    requiredSelect 0 0x0C = 0 ∧ requiredSelect 0 0xFC = 0xF0 ∧ requiredSelect 1 0 = 0x01000000 ∧
      requiredSelect 255 0x14 = 0xFF000010 := by decide

/-! ## Steps -/

/-- The parameters of 95_test_vectors.md section 0. -/
def params0 : Params := ⟨3, 3, 0, .abortWrite, ⟨true, true⟩⟩

/-- The start states of 95_test_vectors.md section 0. -/
def s1 : Block := ⟨.ready, some .swd, some 0, none, none, true, false, some 0x2BA01477, some 0xF0000000⟩
def s2 : Block := ⟨.ready, some .swd, some 0, none, none, false, false, some 0x2BA01477, none⟩
def s3 : Block := ⟨.ready, some .jtag, some 0, some 0xA, some .rti, true, false, some 0x4BA00477, some 0xF0000000⟩

/-- A state with a block and the answers to come. -/
def start (b : Block) (a : List Answer) : State := ⟨b, params0, [], a, 0, []⟩

/-- Answers that are all Ok. -/
def oks (l : List Wire) : List Answer := l.map .ok

/-- What the block drives on the wire: the length and the bits of each word it sends. -/
def driven : Obs → Option (Nat × Nat)
  | .sendBits n v _ => some (n, v.toNat)
  | .jtagSeq n _ tdi _ => some (n, tdi.toNat)
  | .recvBits _ _ | .resetLine _ | .setClock _ _ | .apShadowInvalidate | .result _ _ => none

/-- The result an observation carries. -/
def resultOf : Obs → Option Result
  | .result _ r => some r
  | .sendBits _ _ _ | .recvBits _ _ | .resetLine _ | .setClock _ _ | .jtagSeq _ _ _ _ | .apShadowInvalidate => none

/-- One step of an instruction: the words driven, the results, and the answers left over. -/
def see (i : Instr) (b : Block) (a : List Answer) : Option (List (Nat × Nat) × List Result × Nat) :=
  match exec i (start b a) with
  | .next t => some (t.trace.filterMap driven, t.trace.filterMap resultOf, t.answers.length)
  | .fault _ | .refused _ => none

/-- The block after it. -/
def blockAfter (i : Instr) (b : Block) (a : List Answer) : Option Block :=
  match exec i (start b a) with
  | .next t => some t.st
  | .fault _ | .refused _ => none

/-- A result without a value, and one with. -/
def done : Result := .ok none
def value (v : Word) : Result := .ok (some v)

/-- An error record with only the fields every error has, and its variants. -/
def failed (code : BitVec 8) (op : BitVec 4) (ap addr : Addr) : ErrorRecord :=
  ⟨code, op, ap, addr, none, 0, 0, none, none, false, none⟩

/-! ### Requests of the SWD format: the transactions of 95_test_vectors.md sections 3, 5 and 7 -/

/-- Section 3.2, DPIDR. -/
theorem test_dpR0 : see .dpR0 s1 (oks [0, 1, 1, 0x02BA01477, 1]) = some ([(8, 0xA5)], [value 0x2BA01477], 0) := by decide
/-- Section 5.4: STICKYORUN and STICKYERR seen, ABORT 0x14 written. -/
theorem test_dpR4 : see .dpR4 s1 (oks [0, 1, 1, 0x0F0000022, 1, 0, 1, 1, 1, 0]) =
    some ([(8, 0x8D), (8, 0x81), (33, 0x14)],
      [.err { failed 32 2 0 4 with cause := some .stickyObserved, ctrlStat := some 0xF0000022 }], 0) := by decide +kernel
/-- Section 3.6. -/
theorem test_dpR8 : see .dpR8 s1 (oks [0, 1, 1, 0x05A5A5A5A, 1]) = some ([(8, 0x95)], [value 0x5A5A5A5A], 0) := by decide
/-- Section 3.6. -/
theorem test_dpRC : see .dpRC s1 (oks [0, 1, 1, 0x120000000, 1]) = some ([(8, 0xBD)], [value 0x20000000], 0) := by decide
/-- Section 7.1, the ABORT write of CONNECT. -/
theorem test_dpW0 : see (.dpW0 0x1E) s1 (oks [0, 1, 1, 1, 0]) = some ([(8, 0x81), (33, 0x1E)], [done], 0) := by decide
/-- Section 3.6: the requests dropped, dp_powered is false after. -/
theorem test_dpW4 : (blockAfter (.dpW4 0) s1 (oks [0, 1, 1, 1, 0])).map (·.dpPowered) = some false := by decide
/-- Section 5.1, the refusal of ORUNDETECT over SWD. -/
theorem test_dpW4_orundetect : see (.dpW4 0x50000001) s2 [] =
    some ([], [.err { failed 50 3 0 4 with reason := some .orunDetect }], 0) := by decide
/-- Section 5.3, P11. -/
theorem test_dpW8 : (blockAfter (.dpW8 0x01000000) s1 (oks [0, 1, 1, 1, 0])).map (·.selectCache) =
    some (some 0x01000000) := by decide
/-- Section 5.1, the refusal of a TARGETSEL write. -/
theorem test_dpWC : see (.dpWC 0) s2 [] = some ([], [.err { failed 50 3 0 12 with reason := some .targetSel }], 0) := by
  decide
/-- Section 5.3's read, in the held bank of S1: the value is RDBUFF's, not the posted 0. -/
theorem test_apR0 : see .apR0 s1 (oks [0, 1, 1, 0, 1, 0, 1, 1, 0x023000002, 1]) =
    some ([(8, 0x87), (8, 0xBD)], [value 0x23000002], 0) := by decide
/-- Section 5.5, P14. -/
theorem test_apR1 : see .apR1 s1 (oks [0, 1, 1, 0, 1, 0, 1, 1, 0x120000000, 1]) =
    some ([(8, 0xAF), (8, 0xBD)], [value 0x20000000], 0) := by decide
/-- Section 7.2, under SELECT 0xF0. -/
theorem test_apR2 : see .apR2 { s1 with selectCache := some 0xF0 } (oks [0, 1, 1, 0x024770011, 1, 0, 1, 1, 0x1E00FF003, 1]) =
    some ([(8, 0xB7), (8, 0xBD)], [value 0xE00FF003], 0) := by decide
/-- Section 7.2. -/
theorem test_apR3 : see .apR3 s1 (oks [0, 1, 1, 0, 1, 0, 1, 1, 0x112345678, 1]) =
    some ([(8, 0x9F), (8, 0xBD)], [value 0x12345678], 0) := by decide
/-- 40_swd_link.md R141 with the data phase of section 2.1. -/
theorem test_apW0 : see (.apW0 0x23000002) s1 (oks [0, 1, 1, 1, 0, 0, 1, 1, 0, 1]) =
    some ([(8, 0xA3), (33, 0x023000002), (8, 0xBD)], [done], 0) := by decide
/-- Section 5.5, P14. -/
theorem test_apW1 : see (.apW1 0x20000000) s1 (oks [0, 1, 1, 1, 0, 0, 1, 1, 0, 1]) =
    some ([(8, 0x8B), (33, 0x120000000), (8, 0xBD)], [done], 0) := by decide
/-- 40_swd_link.md R141 with the data phase of section 2.1. -/
theorem test_apW2 : see (.apW2 0x80000000) s1 (oks [0, 1, 1, 1, 0, 0, 1, 1, 0, 1]) =
    some ([(8, 0x93), (33, 0x180000000), (8, 0xBD)], [done], 0) := by decide
/-- Section 7.3: FAULT on the flush, poll, ABORT 0x4. -/
theorem test_apW3 : see (.apW3 0xDEADBEEF) s1 (oks [0, 1, 1, 1, 0, 0, 1, 4, 1, 0, 1, 1, 0x1F0000020, 1, 0, 1, 1, 1, 0]) =
    some ([(8, 0xBB), (33, 0x0DEADBEEF), (8, 0xBD), (8, 0x8D), (8, 0x81), (33, 0x100000004)],
      [.err { failed 32 5 0 12 with cause := some .ackFault, ctrlStat := some 0xF0000020 }], 0) := by decide +kernel

/-! ### JTAG requests -/

/-- Sections 2.5 and 7.4: TDI is the code four bits up, and the cache follows. -/
theorem test_irAbort : see .irAbort s3 (oks [0x10]) = some ([(10, 0x80)], [done], 0) := by decide
theorem test_irDpacc : see .irDpacc s3 (oks [0x10]) = some ([(10, 0xA0)], [done], 0) := by decide
theorem test_irApacc : see .irApacc s3 (oks [0x10]) = some ([(10, 0xB0)], [done], 0) := by decide
theorem test_irIdcode : see .irIdcode s3 (oks [0x10]) = some ([(10, 0xE0)], [done], 0) := by decide
/-- 41_jtag_tap.md R178: never shifted, so no word is driven and nothing changes. -/
theorem test_irBypass : see .irBypass s3 [] = some ([], [done], 0) ∧ blockAfter .irBypass s3 [] = some s3 := by decide
/-- Section 4.1, J5: one WAIT, then the retry, then RDBUFF. -/
theorem test_dpaccR : see (.dpaccR 1) s3 (oks [0x8, 0x10, 0x3C00000010]) =
    some ([(40, 0x18), (40, 0x18), (40, 0x38)], [value 0xF0000000], 0) := by decide
/-- Section 7.4, J2. -/
theorem test_dpaccW : see (.dpaccW .ctrlStat 0x50000000) s3 (oks [0x10, 0x10]) =
    some ([(40, 0x1400000010), (40, 0x38)], [done], 0) := by decide
/-- Section 2.4, SELECT: the RDBUFF flush follows, and the cache is the value. -/
theorem test_dpaccW_select : (blockAfter (.dpaccW .select 0xF0) s3 (oks [0x10, 0x10])).map (·.selectCache) =
    some (some 0xF0) := by decide
/-- Section 7.4, J3, with SELECT 0xF0 already held. -/
theorem test_apaccR : see (.apaccR 3) { s3 with selectCache := some 0xF0 }
      (oks [0x10, 0x10, 0x10, 0x91DC00450, 0x10, 0x3C00000010]) =
    some ([(10, 0xB0), (40, 0x38), (10, 0xA0), (40, 0x38), (40, 0x18), (40, 0x38)], [value 0x24770011], 0) := by decide
/-- Section 7.4, J4: the poll sees STICKYERR, and the ABORT scan follows. -/
theorem test_apaccW : see (.apaccW 1 1) { s3 with selectCache := some 0xF0 }
      (oks [0x10, 0x10, 0x10, 0x10, 0x10, 0x3C00000810, 0x10, 0]) =
    some ([(10, 0xB0), (40, 0x50), (10, 0xA0), (40, 0x38), (40, 0x18), (40, 0x38), (10, 0x80), (40, 0x100)],
      [.err { failed 32 5 0 0xF4 with cause := some .stickyObserved, ctrlStat := some 0xF0000020 }], 0) := by decide
/-- Section 4.4, J8: no acknowledge is looked at. -/
theorem test_abortW : see (.abortW 1) s3 (oks [0x10, 0]) = some ([(10, 0x80), (40, 0x40)], [done], 0) := by decide
/-- Sections 2.4 and 7.4, the identity scan of J1. -/
theorem test_idcodeR : see .idcodeR s3 (oks [0x10, 0x25D0023B8]) =
    some ([(10, 0xE0), (37, 0)], [value 0x4BA00477], 0) := by decide

/-! ### Host commands -/

/-- Section 7.1. -/
theorem test_connectSwd :
    blockAfter .connectSwd Block.reset (oks [0, 0, 1, 1, 0x02BA01477, 1, 0, 1, 1, 1, 0, 0, 1, 1, 1, 0]) = some s2 := by decide
/-- Section 5.6, CF1: a FAULT on the DPIDR read ends it. -/
theorem test_connectSwd_fault : see .connectSwd Block.reset (oks [0, 0, 1, 4, 1]) =
    some ([(8, 0xA5)], [.err { failed 32 0 0 0 with cause := some .ackFault }], 0) := by decide
/-- Section 7.4, J1: the state after and the words driven. -/
theorem test_connectJtag :
    let a := oks [0, 0x10, 0x25D0023B8, 0x10, 0, 0x10, 0x10, 0x10]
    blockAfter .connectJtag Block.reset a = some { s3 with dpPowered := false, ctrlStatShadow := none } ∧
      see .connectJtag Block.reset a =
        some ([(6, 0), (10, 0xE0), (37, 0), (10, 0x80), (40, 0x780), (10, 0xA0), (40, 0x20), (40, 0x38)],
          [value 0x4BA00477], 0) := by decide +kernel
/-- What CONNECT leaves over JTAG (20_memory.md R75): the IR cache goes with an invalid acknowledge, and stays with a
timeout. -/
theorem test_connectJtag_ir_cache :
    (blockAfter .connectJtag Block.reset (oks [0, 0x10, 0x25D0023B8, 0x10, 0, 0x10, 0x20])).map
        (fun b => (b.link, b.irCache)) = some (.unconnected, none) ∧
      (blockAfter .connectJtag Block.reset (oks [0, 0x10, 0x25D0023B8, 0x10, 0, 0x10, 0x8, 0x8, 0x8, 0x8])).map
        (fun b => (b.link, b.irCache)) = some (.unconnected, some 0xA) := by decide +kernel
/-- Section 5.6, SC2. -/
theorem test_setClock_unsupported : (blockAfter (.setClock 4000000) s1 [.unsupported]).map (·.link) =
    some .unconnected := by decide
/-- Section 5.6, SC1. -/
theorem test_setClock : see (.setClock 4000000) Block.reset (oks [0]) = some ([], [done], 0) := by decide
/-- Section 3.3, P5: bad parity, the poll shows nothing sticky, no ABORT. -/
theorem test_readDp_parity : see (.readDp 0) s1 (oks [0, 1, 1, 0x12BA01477, 1, 0, 1, 1, 0x0F0000000, 1]) =
    some ([(8, 0xA5), (8, 0x8D)], [.err { failed 32 2 0 0 with cause := some .parity, ctrlStat := some 0xF0000000 }], 0) := by
  decide +kernel
/-- Section 3.1, P4: four WAITs. -/
theorem test_readDp_waits : see (.readDp 4) s1 (oks [0, 1, 2, 1, 0, 1, 2, 1, 0, 1, 2, 1, 0, 1, 2, 1]) =
    some ([(8, 0x8D), (8, 0x8D), (8, 0x8D), (8, 0x8D)], [.err { failed 16 2 0 4 with kind := some .wait, retries := 3 }], 0) := by
  decide
/-- Section 5.3, P11. -/
theorem test_writeDp : see (.writeDp 8 0x01000000) s1 (oks [0, 1, 1, 1, 0]) =
    some ([(8, 0xB1), (33, 0x101000000)], [done], 0) := by decide
/-- Section 5.1: DPBANKSEL is refused with no call. -/
theorem test_writeDp_dpbank : see (.writeDp 8 0xF1) s2 [] =
    some ([], [.err { failed 50 3 0 8 with reason := some .dpBank }], 0) := by decide
/-- Section 7.1: the bank is selected first. -/
theorem test_readAp : see (.readAp 0 0xFC) s1 (oks [0, 1, 1, 1, 0, 0, 1, 1, 0, 1, 0, 1, 1, 0x024770011, 1]) =
    some ([(8, 0xB1), (33, 0xF0), (8, 0x9F), (8, 0xBD)], [value 0x24770011], 0) := by decide
/-- Section 5.1: not powered up. -/
theorem test_readAp_unpowered : see (.readAp 0 0xFC) s2 [] = some ([], [.err (failed 49 4 0 0xFC)], 0) := by decide
/-- Section 5.5, P14. -/
theorem test_writeAp : see (.writeAp 0 4 0x20000000) s1 (oks [0, 1, 1, 1, 0, 0, 1, 1, 0, 1]) =
    some ([(8, 0x8B), (33, 0x120000000), (8, 0xBD)], [done], 0) := by decide
/-- Section 6.1, P7: the poll of the SCS is answered FAULT, and a clear is pending. -/
theorem test_writeAp_clear_fails : (blockAfter (.writeAp 0 12 1) s1 (oks [0, 1, 1, 1, 0, 0, 1, 4, 1, 0, 1, 4, 1])).map
    (fun b => (b.clearPending, b.selectCache)) = some (true, none) := by decide
/-- Section 7.1: the second poll shows the acknowledges. -/
theorem test_powerUp : see .powerUp s2 (oks [0, 1, 1, 1, 0, 0, 1, 1, 0x050000000, 1, 0, 1, 1, 0x0F0000000, 1]) =
    some ([(8, 0xA9), (33, 0x50000000), (8, 0x8D), (8, 0x8D)], [value 0xF0000000], 0) := by decide +kernel
/-- Section 5.2: three polls, then the timeout. -/
theorem test_powerUp_timeout : see .powerUp s2 (oks [0, 1, 1, 1, 0, 0, 1, 1, 0x050000000, 1, 0, 1, 1, 0x050000000, 1, 0, 1, 1,
      0x050000000, 1]) =
    some ([(8, 0xA9), (33, 0x50000000), (8, 0x8D), (8, 0x8D), (8, 0x8D)],
      [.err { failed 16 6 0 0 with kind := some .powerUp, retries := 3 }], 0) := by decide +kernel
/-- 30_encoding.md R102; section 5.1 has opcode 9. -/
theorem test_reserved_opcodes :
    see .reservedOp7 s2 [] = some ([], [.err { failed 50 7 0 0 with reason := some .badOpcode }], 0) ∧
      see .reservedOp9 s2 [] = some ([], [.err { failed 50 9 0 0 with reason := some .badOpcode }], 0) ∧
      see .reservedOp15 s2 [] = some ([], [.err { failed 50 15 0 0 with reason := some .badOpcode }], 0) := by decide
/-- The word put on the port is the next to run, from reset (70_reset_and_hazards.md R300, section 5.1). -/
theorem test_withFetchWord : (match step (State.reset.withFetchWord 96 0x00FC0004) with
    | .next t => t.trace | .fault _ | .refused _ => []) =
      [.result (.instr (.readAp 0 0xFC)) (.err (failed 48 4 0 0xFC))] := by decide

/-! ## Witnesses: states and operands that meet the hypotheses of the statements, clause by clause -/

/-- A state that meets an exchange: the transport is about to answer as the exchange has it. -/
def facing (b : Block) (x : Exchange) : State := start b x.answers

theorem facing_meets (b : Block) (x : Exchange) : (facing b x).meets x :=
  meets_written [] (by simp [facing, start])

/-- Samples nothing depends on, and transactions without a WAIT, with one, and with as many as the bound allows. -/
def junk : SwdJunk := ⟨0, 1, 0, 0xFF, 0⟩
def once : SwdTry := ⟨[], junk⟩
def twice : SwdTry := ⟨[junk], junk⟩
def atLimit : SwdTry := ⟨[junk, junk, junk], junk⟩
def waited : Capture := ⟨0xDEADBEEF, 0⟩
def scanned : JtagTry := ⟨[], 0⟩
def rescanned : JtagTry := ⟨[waited, waited, waited], 7⟩

/-- S1 and S3 with the bank of the AP registers 0xF0 to 0xFC of AP 0 selected. -/
def s1Bank : Block := { s1 with selectCache := some (requiredSelect 0 0xFC) }
def s3Bank : Block := { s3 with selectCache := some (requiredSelect 0 0xFC) }

/-- The states of one protocol with no clear pending. -/
theorem connected_swd (b : Block) (x : Exchange) (hl : b.link = .ready) (hp : b.proto = some .swd)
    (hc : b.clearPending = false) : Connected .swd (facing b x) := ⟨hl, hp, hc⟩
theorem connected_jtag (b : Block) (x : Exchange) (hl : b.link = .ready) (hp : b.proto = some .jtag)
    (hc : b.clearPending = false) (ht : b.tap = some .rti) : ConnectedJtag (facing b x) := ⟨⟨hl, hp, hc⟩, ht⟩

theorem witness_LinkWordsEncodeBack :
    (∀ h, PortWord.swd 0xA5 ≠ .host h) ∧ decode (.swd 0xA5) = .ok .dpR0 :=
  ⟨fun h e => PortWord.noConfusion e, by decide⟩

/-- A target whose DPACC and APACC capture the result and the ACK of 95_test_vectors.md section 2.4, and its WAIT. -/
def source : TargetSource := ⟨0b0001, 0x24770011, 0b010, 0, 0x4BA00477, 0xE⟩
def waiting : TargetSource := { source with ack := 0b001 }
def idle (ir : BitVec 4) : TargetTap := ⟨.rti, ir, [], [], false, []⟩
def scan35 (src : TargetSource) (ir : BitVec 4) (din : BitVec 35) : List (Option Bool) × TargetTap :=
  targetRun src (idle ir) (sequenceClocks (drScanLen 35) (drScanTms 35) (drScanTdi din))

/-- 41_jtag_tap.md R168: BYPASS is one bit that captures 0; the bits sent come back one clock later. -/
theorem test_target_bypass :
    ((scan35 source 0xF 0x5).1.drop 3).take 5 = [some false, some true, some false, some true, some false] := by decide
/-- 41_jtag_tap.md R168: WAIT bars the access that DPACC and APACC ask for; ABORT is written whatever ACK is. -/
theorem test_target_actions :
    (scan35 source 0xB 0xB).2.actions = [.apAccess true 1 1] ∧ (scan35 waiting 0xB 0xB).2.actions = [] ∧
      (scan35 source 0xA 0x784).2.actions = [.dpAccess false 2 0xF0] ∧ (scan35 waiting 0xA 0x784).2.actions = [] ∧
      (scan35 waiting 0x8 0xF0).2.actions = [.abortWrite 0x1E] ∧ (scan35 source 0x3 0x784).2.actions = [] := by
  decide +kernel

theorem witness_IrScanSelectsInstruction : (idle 0xE).state = .rti := rfl

/-- The TDO words of 95_test_vectors.md section 2.4, with a WAIT, and of the identity scan of J1; each IR code. -/
theorem witness_DrScanExchangesValues :
    (∀ ir, (idle ir).state = .rti ∧ (idle ir).ir = ir) ∧ waiting.ack = 0b001 ∧
      (∀ i, i < 38 → 3 ≤ i → (scan35 source 0xA (xpaccIn true 3 0)).1.getD i none = some ((0x91DC00450 : Wire).getLsbD i)) ∧
      (∀ i, i < 38 → 3 ≤ i → (scan35 source 0xB (xpaccIn false 1 1)).1.getD i none = some ((0x91DC00450 : Wire).getLsbD i)) ∧
      (∀ i, i < 38 → 3 ≤ i → (scan35 waiting 0xA (xpaccIn true 3 0)).1.getD i none = some ((0x91DC00448 : Wire).getLsbD i)) ∧
      ∀ i, i < 35 → 3 ≤ i → (targetRun source (idle 0xE) (sequenceClocks (drScanLen 32) (drScanTms 32)
        (drScanTdi (0 : BitVec 32)))).1.getD i none = some ((0x25D0023B8 : Wire).getLsbD i) := by
  refine ⟨fun _ => ⟨rfl, rfl⟩, rfl, ?_, ?_, ?_, ?_⟩ <;> decide +kernel

theorem witness_RequiredSelectValue : (0xFC : Addr).extractLsb' 0 2 = 0 := by decide

theorem witness_StepRunsDecodedInstruction :
    (start s1 []).port = [] ∧ ({ start s1 [] with port := [.swd 0xA5] } : State).port = [.swd 0xA5] ∧
      decode (.swd 0xA5) = .ok .dpR0 := ⟨rfl, rfl, by decide⟩

theorem witness_StepKeepsInvariants : BlockInv (start s1 []).st ∧ ∃ t, step (start s1 []) = .next t :=
  ⟨⟨fun _ h => by simp [start, s1] at h, fun h => by simp [start, s1] at h, fun h => absurd rfl h,
    fun v h => by cases h; decide⟩, _, rfl⟩

theorem witness_StepAnswersOnce :
    let s : State := { start s2 [] with port := [.host 0x00FC0004] }
    s.port = [.host 0x00FC0004] ∧ decode (.host 0x00FC0004) = .ok (.readAp 0 0xFC) ∧ ∃ t, step s = .next t :=
  ⟨rfl, by decide, _, rfl⟩

/-- Also for the bounds on calls and events, the signalling of SELECT and the constancy of the protocol. -/
theorem witness_NeverProducedEncodings :
    Instr.powerUp ≠ .connectSwd ∧ Instr.powerUp ≠ .connectJtag ∧ ∃ t, exec .powerUp (start s1 []) = .next t := by
  refine ⟨by decide, by decide, _, rfl⟩

/-- Data phases under 0xB1 and 0xA9, and a scan that writes A[3:2] = 2, as the clauses name them. -/
theorem test_dataWords :
    dataWords 0 (swdWriteOkX params0 false 2 0xF0 ⟨[], ⟨0, 1, 0, 0xFF, 0⟩⟩).obs = [(0xB1, 0x0F0)] ∧
      dataWords 0 (swdWriteOkX params0 false 1 0x50000000 ⟨[], ⟨0, 1, 0, 0xFF, 0⟩⟩).obs = [(0xA9, 0x050000000)] ∧
      ((xpaccIn false 2 0xF0).setWidth 40 <<< 3 : Wire).extractLsb' 3 3 = 0b100 := by decide

theorem witness_DisconnectedIsTerminal : (start { s1 with link := .disconnected } []).st.link = .disconnected := rfl

theorem witness_ClosedLinkAnswers :
    Instr.powerUp ≠ .connectSwd ∧ Instr.powerUp ≠ .connectJtag ∧ (∀ hz, Instr.powerUp ≠ .setClock hz) ∧
      refusalOf none .powerUp = none ∧ (start Block.reset []).st.link = .unconnected ∧
      (start { s1 with link := .desync } []).st.link = .desync :=
  ⟨by decide, by decide, fun hz e => Instr.noConfusion e, rfl, rfl, rfl⟩

theorem witness_UnpoweredApAccess :
    (0xFC : Addr).extractLsb' 0 2 = 0 ∧ (start s2 []).st.link = .ready ∧ (start s2 []).st.dpPowered = false := by decide

/-- The first and last addresses of each range the clauses name. -/
theorem witness_HostRefusals :
    (start s2 []).st.link ≠ .disconnected ∧
      [(0x1 : Addr), 0x3, 0x5, 0xB, 0xD, 0x10, 0xFC, 0xFF].all (fun a => a != 0x0 && a != 0x4 && a != 0x8 && a != 0xC) ∧
      [(0x1 : Addr), 0x2, 0x3, 0xFD, 0xFF].all (fun a => a.extractLsb' 0 2 != 0) ∧
      [(0x1 : Word), 0xF, 0xF8, 0xFFFFFFFF].all (fun v => v.extractLsb' 0 4 != 0) ∧
      (0x50000001 : Word).getLsbD 0 = true ∧ (start s2 []).st.proto = some .swd := by decide

theorem witness_BadProtocolRefused :
    let s : State := { start s2 [] with port := [.host 0x20] }
    s.port = [.host 0x20] ∧ decode (.host 0x20) = .error (.badProtocol 2) ∧
      decode (.host 0x30) = .error (.badProtocol 3) ∧ s.st.link ≠ .disconnected := by decide

/-- A held SELECT of no register, and none; the values the clauses on writes ask for. -/
theorem witness_LinkRequestsNeedTheirEncoder :
    let odd : Block → Block := fun b => { b with selectCache := some 0x00000100 }
    let none' : Block → Block := fun b => { b with selectCache := none }
    s1.link = .ready ∧ s1.dpPowered = true ∧ s1.proto = some .swd ∧ s3.link = .ready ∧ s3.dpPowered = true ∧
      s3.proto = some .jtag ∧ (0xFFFFFFFE : Word).getLsbD 0 = false ∧ (0xFFFFFFF0 : Word).extractLsb' 0 4 = 0 ∧
      ∀ ap addr, (odd s1).selectCache ≠ some (requiredSelect ap addr) ∧ (odd s3).selectCache ≠ some (requiredSelect ap addr) ∧
        (none' s1).selectCache ≠ some (requiredSelect ap addr) ∧ (none' s3).selectCache ≠ some (requiredSelect ap addr) := by
  have odd : ∀ ap addr, some (0x00000100 : Word) ≠ some (requiredSelect ap addr) := fun ap addr e => by
    have := congrArg (fun v : Word => v.getLsbD 8) (Option.some.inj e)
    rw [requiredSelect, BitVec.getLsbD_append, BitVec.getLsbD_append, BitVec.getLsbD_append] at this
    simp at this
  exact ⟨rfl, rfl, rfl, rfl, rfl, rfl, by decide, by decide,
    fun ap addr => ⟨odd ap addr, odd ap addr, Option.some_ne_none _ |>.symm, Option.some_ne_none _ |>.symm⟩⟩

theorem witness_SwdDpReadReturnsData :
    let x := swdReadOkX params0 false 0 0x2BA01477 atLimit
    Connected .swd (facing s1 x) ∧ atLimit.fits params0 ∧ (facing s1 x).meets x :=
  ⟨connected_swd _ _ rfl rfl rfl, by decide, facing_meets _ _⟩

/-- Each sticky bit alone, and a value with every bit but those. -/
theorem witness_SwdCtrlStatRead :
    let x := fun v => swdReadOkX params0 false 1 v twice
    let y := fun v => ((x v).andThen pulse).andThen (swdClearX params0 v once)
    (∀ v, Connected .swd (facing s1 (x v)) ∧ (facing s1 (x v)).meets (x v)) ∧
      (∀ v, Connected .swd (facing s1 (y v)) ∧ (facing s1 (y v)).meets (y v)) ∧
      twice.fits params0 ∧ once.fits params0 ∧ sticky 0xFFFFFF4D = false ∧
      [(0x2 : Word), 0x10, 0x20, 0x80].all sticky :=
  ⟨fun _ => ⟨connected_swd _ _ rfl rfl rfl, facing_meets _ _⟩, fun _ => ⟨connected_swd _ _ rfl rfl rfl, facing_meets _ _⟩,
    by decide, by decide, by decide, by decide⟩

theorem witness_SwdDpWrite :
    let x := fun (a : BitVec 2) (v : Word) => swdWriteOkX params0 false a v once
    (∀ a v, Connected .swd (facing s1 (x a v)) ∧ (facing s1 (x a v)).meets (x a v)) ∧ once.fits params0 ∧
      (0xFFFFFFFE : Word).getLsbD 0 = false ∧ (0xFFFFFFF0 : Word).extractLsb' 0 4 = 0 :=
  ⟨fun _ _ => ⟨connected_swd _ _ rfl rfl rfl, facing_meets _ _⟩, by decide, by decide, by decide⟩

theorem witness_SwdApRead :
    let x := (swdReadOkX params0 true (regA 0xFC) 7 twice).andThen (swdReadOkX params0 false 3 0x24770011 once)
    (0xFC : Addr).extractLsb' 0 2 = 0 ∧ regA 0xFC = 3 ∧ Connected .swd (facing s1Bank x) ∧ twice.fits params0 ∧
      once.fits params0 ∧ (facing s1Bank x).st.dpPowered = true ∧
      (facing s1Bank x).st.selectCache = some (requiredSelect 0 0xFC) ∧ (facing s1Bank x).meets x :=
  ⟨by decide, by decide, connected_swd _ _ rfl rfl rfl, by decide, by decide, rfl, rfl, facing_meets _ _⟩

theorem witness_SwdApWrite :
    let x := (swdWriteOkX params0 true (regA 0xF4) 1 twice).andThen (swdReadOkX params0 false 3 0 once)
    (0xF4 : Addr).extractLsb' 0 2 = 0 ∧ regA 0xF4 = 1 ∧ Connected .swd (facing s1Bank x) ∧ twice.fits params0 ∧
      once.fits params0 ∧ (facing s1Bank x).st.dpPowered = true ∧
      (facing s1Bank x).st.selectCache = some (requiredSelect 0 0xF4) ∧ (facing s1Bank x).meets x :=
  ⟨by decide, by decide, connected_swd _ _ rfl rfl rfl, by decide, by decide, rfl, by decide, facing_meets _ _⟩

theorem witness_SwdApAccessSelectsBank :
    let sel := (swdWriteOkX params0 false 2 (requiredSelect 0 0xFC) once).andThen pulse
    let rd := (sel.andThen (swdReadOkX params0 true (regA 0xFC) 7 once)).andThen (swdReadOkX params0 false 3 5 twice)
    let wr := (sel.andThen (swdWriteOkX params0 true (regA 0xFC) 9 once)).andThen (swdReadOkX params0 false 3 5 twice)
    Connected .swd (facing s1 rd) ∧ once.fits params0 ∧ twice.fits params0 ∧ s1.dpPowered = true ∧
      s1.selectCache ≠ some (requiredSelect 0 0xFC) ∧ (facing s1 rd).meets rd ∧ Connected .swd (facing s1 wr) ∧
      (facing s1 wr).meets wr :=
  ⟨connected_swd _ _ rfl rfl rfl, by decide, by decide, rfl, by decide, facing_meets _ _, connected_swd _ _ rfl rfl rfl,
    facing_meets _ _⟩

/-- With PWR_POLLS = 3: no poll before the last, two before it, and two before one that does not show the acknowledges, shows a
sticky bit, is answered FAULT or has a wrong parity. -/
theorem witness_SwdPowerUp :
    let before := fun qs : List (Word × SwdTry) =>
      (swdWriteOkX params0 false 1 0x50000000 twice).andThen (swdPollsX params0 qs)
    let x := fun (qs : List (Word × SwdTry)) (v : Word) => (before qs).andThen (swdReadOkX params0 false 1 v once)
    let bad : BitVec 33 := BitVec.ofBool (!parity (0xF0000000 : Word)) ++ (0xF0000000 : Word)
    let waiting := [((0x50000000 : Word), once), (0x70000000, once)]
    (∀ qs v, Connected .swd (facing s2 (x qs v)) ∧ (facing s2 (x qs v)).meets (x qs v)) ∧
      (∀ qs, ∀ e ∈ [((x qs 0xF0000020).andThen pulse).andThen (swdClearX params0 0xF0000020 twice),
        ((before qs).andThen (swdFaultX params0 false true 1 once)).andThen (swdScsX params0 0xF0000020 twice once),
        ((before qs).andThen (swdDataX params0 false 1 bad once)).andThen (swdScsX params0 0xF0000020 twice once)],
        Connected .swd (facing s2 e) ∧ (facing s2 e).meets e) ∧
      twice.fits params0 ∧ once.fits params0 ∧ sticky 0xF0000000 = false ∧ powered 0xF0000000 = true ∧
      sticky 0xD0000000 = false ∧ powered 0xD0000000 = false ∧ sticky 0xF0000020 = true ∧
      (∀ q ∈ waiting, sticky q.1 = false ∧ powered q.1 = false ∧ q.2 = once) ∧
      ([] : List (Word × SwdTry)).length < params0.pwrPolls ∧ waiting.length < params0.pwrPolls ∧
      waiting.length + 1 = params0.pwrPolls :=
  ⟨fun _ _ => ⟨connected_swd _ _ rfl rfl rfl, facing_meets _ _⟩,
    fun _ _ _ => ⟨connected_swd _ _ rfl rfl rfl, facing_meets _ _⟩, by decide, by decide, by decide, by decide, by decide,
    by decide, by decide, by simp [sticky, powered, stickyMask, pwrupAck], by decide, by decide, by decide⟩

theorem witness_SwdConnect :
    let x := (((pulse.andThen (lineResetX 0)).andThen (swdReadOkX params0 false 0 0x2BA01477 once)).andThen
      (swdWriteOkX params0 false 0 0x1E twice)).andThen (swdWriteOkX params0 false 2 0 once)
    (facing Block.reset x).st.link ≠ .disconnected ∧ params0.caps.swd = true ∧ once.fits params0 ∧ twice.fits params0 ∧
      (facing Block.reset x).meets x :=
  ⟨by decide, by decide, by decide, by decide, facing_meets _ _⟩

/-- The lowest rate and the highest. -/
theorem witness_SetClock :
    s1.link ≠ .disconnected ∧ (1 : Word) ≠ 0 ∧ (0xFFFFFFFF : Word) ≠ 0 ∧
      (∀ a, (facing s1 (setClockX 1 a)).meets (setClockX 1 a)) :=
  ⟨by decide, by decide, by decide, fun _ => facing_meets _ _⟩

theorem witness_JtagIrRequests :
    (∀ ir, ConnectedJtag (facing s3 (irScanX ir 0x10)) ∧ (facing s3 (irScanX ir 0x10)).meets (irScanX ir 0x10)) ∧
      Connected .jtag (facing s3 noExchange) :=
  ⟨fun _ => ⟨connected_jtag _ _ rfl rfl rfl rfl, facing_meets _ _⟩, ⟨rfl, rfl, rfl⟩⟩

/-- With the DPACC code cached, and with another. -/
theorem witness_JtagDpRead :
    let x := jtagReadDpX (some 0xA) 0 0 0x4BA00477 0 rescanned scanned
    let y := jtagReadDpX (some 0x8) 3 0 5 0x10 scanned rescanned
    ConnectedJtag (facing s3 x) ∧ rescanned.fits params0 ∧ scanned.fits params0 ∧ (facing s3 x).meets x ∧
      ConnectedJtag (facing { s3 with irCache := some 0x8 } y) ∧ (facing { s3 with irCache := some 0x8 } y).meets y :=
  ⟨connected_jtag _ _ rfl rfl rfl rfl, by decide, by decide, facing_meets _ _, connected_jtag _ _ rfl rfl rfl rfl,
    facing_meets _ _⟩

/-- Under both values of JTAG_STICKY_CLEAR. -/
theorem witness_JtagCtrlStatRead :
    let x := jtagReadDpX (some 0xA) 1 0 0xF0000000 0 scanned scanned
    let y := fun p : Params => ((jtagReadDpX (some 0xA) 1 0 0xF0000020 0 scanned scanned).andThen pulse).andThen
      (jtagClearX p 0xF0000020 0 0 0x10 0 0 scanned rescanned)
    ConnectedJtag (facing s3 x) ∧ scanned.fits params0 ∧ rescanned.fits params0 ∧ sticky 0xF0000000 = false ∧
      (facing s3 x).meets x ∧ sticky 0xF0000020 = true ∧
      ∀ c, let p := { params0 with jtagStickyClear := c }
        ConnectedJtag { facing s3 (y p) with params := p } ∧ State.meets { facing s3 (y p) with params := p } (y p) :=
  ⟨connected_jtag _ _ rfl rfl rfl rfl, by decide, by decide, by decide, facing_meets _ _, by decide,
    fun _ => ⟨⟨⟨rfl, rfl, rfl⟩, rfl⟩, meets_written [] (by simp [facing, start])⟩⟩

theorem witness_JtagDpWrite :
    let ab := jtagAbortX (some 0xA) 0x1E 0x10 0 0
    let cs := jtagWriteDpX (some 0xA) 1 0x50000000 0 0 0 scanned scanned
    let sel := (jtagWriteDpX (some 0xA) 2 0xFFFFFFF0 0 0 0 scanned rescanned).andThen pulse
    (∀ x, ConnectedJtag (facing s3 x)) ∧ scanned.fits params0 ∧ rescanned.fits params0 ∧ (facing s3 ab).meets ab ∧
      (facing s3 cs).meets cs ∧ (0xFFFFFFF0 : Word).extractLsb' 0 4 = 0 ∧ s3.selectCache ≠ some 0xFFFFFFF0 ∧
      (facing s3 sel).meets sel :=
  ⟨fun _ => connected_jtag _ _ rfl rfl rfl rfl, by decide, by decide, facing_meets _ _, facing_meets _ _, by decide,
    by decide, facing_meets _ _⟩

theorem witness_JtagIdcodeScan :
    let x := jtagIdcodeX (some 0xA) 0x4BA00477 0x10 0
    ConnectedJtag (facing s3 x) ∧ (facing s3 x).meets x :=
  ⟨connected_jtag _ _ rfl rfl rfl rfl, facing_meets _ _⟩

theorem witness_JtagApAccess :
    let q : JtagPoll := ⟨0xF0000000, 0, scanned, rescanned⟩
    let rd := (jtagApX (some 0xA) true (regA 0xFC) 0 0 0x24770011 0x10 0x10 rescanned scanned).andThen q.exchange
    let wr := (jtagApX (some 0xA) false (regA 0xFC) 1 0 0 0x10 0x10 rescanned scanned).andThen q.exchange
    (0xFC : Addr).extractLsb' 0 2 = 0 ∧ (∀ x, ConnectedJtag (facing s3Bank x)) ∧ rescanned.fits params0 ∧
      scanned.fits params0 ∧ q.fits params0 ∧ s3Bank.dpPowered = true ∧
      s3Bank.selectCache = some (requiredSelect 0 0xFC) ∧ sticky q.value = false ∧ (facing s3Bank rd).meets rd ∧
      (facing s3Bank wr).meets wr :=
  ⟨by decide, fun _ => connected_jtag _ _ rfl rfl rfl rfl, by decide, by decide, ⟨by decide, by decide⟩, rfl, rfl,
    by decide, facing_meets _ _, facing_meets _ _⟩

theorem witness_JtagApAccessSelectsBank :
    let q : JtagPoll := ⟨0xF0000000, 0, scanned, scanned⟩
    let x := fun (rnw : Bool) (v : Word) => ((jtagEnsureSelectX (some 0xA) (requiredSelect 0 0xFC) 0 0 rescanned).andThen
      (jtagApX (some 0xA) rnw (regA 0xFC) v 0 5 0x10 0x10 scanned scanned)).andThen q.exchange
    (∀ rnw v, ConnectedJtag (facing s3 (x rnw v)) ∧ (facing s3 (x rnw v)).meets (x rnw v)) ∧ rescanned.fits params0 ∧
      scanned.fits params0 ∧ q.fits params0 ∧ s3.dpPowered = true ∧ s3.selectCache ≠ some (requiredSelect 0 0xFC) ∧
      sticky q.value = false :=
  ⟨fun _ _ => ⟨connected_jtag _ _ rfl rfl rfl rfl, facing_meets _ _⟩, by decide, by decide, ⟨by decide, by decide⟩, rfl,
    by decide, by decide⟩

/-- Under both values of JTAG_STICKY_CLEAR. -/
theorem witness_JtagApAccessReportsSticky :
    let q : JtagPoll := ⟨0xF0000020, 0, scanned, scanned⟩
    let x := fun (p : Params) (rnw : Bool) (w : Word) => (((jtagApX (some 0xA) rnw (regA 0xFC) w 0 0 0x10 0x10 scanned
      scanned).andThen q.exchange).andThen pulse).andThen (jtagClearX p q.value 0 0 0x10 0 0 scanned scanned)
    scanned.fits params0 ∧ q.fits params0 ∧ ApReady 0 0xFC (start s3Bank []) ∧ sticky q.value = true ∧
      ∀ c rnw w, let p := { params0 with jtagStickyClear := c }
        ConnectedJtag { facing s3Bank (x p rnw w) with params := p } ∧
          State.meets { facing s3Bank (x p rnw w) with params := p } (x p rnw w) :=
  ⟨by decide, ⟨by decide, by decide⟩, ⟨rfl, rfl⟩, by decide,
    fun _ _ _ => ⟨⟨⟨rfl, rfl, rfl⟩, rfl⟩, meets_written [] (by simp [facing, start])⟩⟩

/-- With PWR_POLLS = 3, two polls before the last: one that shows the acknowledges, one that does not, and one with a sticky
bit, under both values of JTAG_STICKY_CLEAR. -/
theorem witness_JtagPowerUp :
    let q : Word → JtagPoll := fun v => ⟨v, 0, scanned, scanned⟩
    let r : JtagPoll := ⟨0x50000000, 0, scanned, rescanned⟩
    let x := fun v : Word => ((jtagWriteDpX (some 0xA) 1 0x50000000 0 0 0 scanned scanned).andThen
      (jtagPollsX [r, r])).andThen (q v).exchange
    let y := fun p : Params => ((x 0xF0000020).andThen pulse).andThen
      (jtagClearX p 0xF0000020 0 0 0x10 0 0 scanned rescanned)
    (∀ v, ConnectedJtag (facing s3 (x v)) ∧ (facing s3 (x v)).meets (x v) ∧ (q v).fits params0) ∧ scanned.fits params0 ∧
      rescanned.fits params0 ∧ sticky 0xF0000000 = false ∧ powered 0xF0000000 = true ∧ powered r.value = false ∧
      sticky r.value = false ∧ sticky 0xF0000020 = true ∧ r.fits params0 ∧ [r, r].length < params0.pwrPolls ∧
      [r, r].length + 1 = params0.pwrPolls ∧
      ∀ c, let p := { params0 with jtagStickyClear := c }
        ConnectedJtag { facing s3 (y p) with params := p } ∧ State.meets { facing s3 (y p) with params := p } (y p) :=
  ⟨fun _ => ⟨connected_jtag _ _ rfl rfl rfl rfl, facing_meets _ _, Nat.zero_le _, Nat.zero_le _⟩, by decide, by decide, by decide,
    by decide, by decide, by decide, by decide, ⟨by decide, by decide⟩, by decide, by decide,
    fun _ => ⟨⟨⟨rfl, rfl, rfl⟩, rfl⟩, meets_written [] (by simp [facing, start])⟩⟩

theorem witness_JtagConnect :
    let x := (((pulse.andThen (tapResetX 0)).andThen (jtagIdcodeX none 0x4BA00477 0x10 0)).andThen
      (jtagAbortX (some 0xE) 0x1E 0x10 0 0)).andThen (jtagWriteDpX (some 0x8) 2 0 0 0 0x10 scanned rescanned)
    (facing Block.reset x).st.link ≠ .disconnected ∧ params0.caps.jtag = true ∧ scanned.fits params0 ∧
      rescanned.fits params0 ∧ (facing Block.reset x).meets x :=
  ⟨by decide, by decide, by decide, by decide, facing_meets _ _⟩

/-- Each kind of first transaction, with the bank held, and the SELECT write, with another held. -/
theorem witness_SwdFaultRunsScs :
    let x := fun (apndp rnw : Bool) (a : BitVec 2) =>
      (swdFaultX params0 apndp rnw a atLimit).andThen (swdScsX params0 0xF0000020 once twice)
    (0xFC : Addr).extractLsb' 0 2 = 0 ∧ atLimit.fits params0 ∧ once.fits params0 ∧ twice.fits params0 ∧
      (0x50000000 : Word).getLsbD 0 = false ∧ (0xFF000010 : Word).extractLsb' 0 4 = 0 ∧ s1.dpPowered = true ∧
      s1.selectCache ≠ some (requiredSelect 0 0xFC) ∧ Connected .swd (facing s1 (x false false 2)) ∧
      (facing s1 (x false false 2)).meets (x false false 2) ∧
      ∀ apndp rnw a, Connected .swd (facing s1Bank (x apndp rnw a)) ∧ ApReady 0 0xFC (facing s1Bank (x apndp rnw a)) ∧
        (facing s1Bank (x apndp rnw a)).meets (x apndp rnw a) :=
  ⟨by decide, by decide, by decide, by decide, by decide, by decide, rfl, by decide, connected_swd _ _ rfl rfl rfl,
    facing_meets _ _, fun _ _ _ => ⟨connected_swd _ _ rfl rfl rfl, ⟨rfl, rfl⟩, facing_meets _ _⟩⟩

/-- A read and a write of the AP. -/
theorem witness_SwdApAccessFaultsOnRdbuff :
    let x := fun access : Exchange => (access.andThen (swdFaultX params0 false true 3 twice)).andThen
      (swdScsX params0 0xF0000020 once once)
    (0xFC : Addr).extractLsb' 0 2 = 0 ∧ regA 0xFC = 3 ∧ once.fits params0 ∧ twice.fits params0 ∧
      ∀ e ∈ [x (swdReadOkX params0 true (regA 0xFC) 7 once), x (swdWriteOkX params0 true (regA 0xFC) 0xDEADBEEF once)],
        Connected .swd (facing s1Bank e) ∧ ApReady 0 0xFC (facing s1Bank e) ∧ (facing s1Bank e).meets e :=
  ⟨by decide, by decide, by decide, by decide,
    fun _ _ => ⟨connected_swd _ _ rfl rfl rfl, ⟨rfl, rfl⟩, facing_meets _ _⟩⟩

/-- A DP read, the posted read of an AP, and the RDBUFF read after an AP read and an AP write. -/
theorem witness_SwdParityErrorRunsScs :
    let bad : BitVec 33 := BitVec.ofBool (!parity (0x2BA01477 : Word)) ++ (0x2BA01477 : Word)
    let x := fun read : Exchange => read.andThen (swdScsX params0 0xF0000000 once once)
    bad = 0x12BA01477 ∧ (0xFC : Addr).extractLsb' 0 2 = 0 ∧ regA 0xFC = 3 ∧ twice.fits params0 ∧ once.fits params0 ∧
      ∀ e ∈ [x (swdDataX params0 false 0 bad twice), x (swdDataX params0 true 3 bad twice),
        x ((swdReadOkX params0 true (regA 0xFC) 7 once).andThen (swdDataX params0 false 3 bad twice)),
        x ((swdWriteOkX params0 true (regA 0xFC) 9 once).andThen (swdDataX params0 false 3 bad twice))],
        Connected .swd (facing s1Bank e) ∧ ApReady 0 0xFC (facing s1Bank e) ∧ (facing s1Bank e).meets e :=
  ⟨by decide, by decide, by decide, by decide, by decide,
    fun _ _ => ⟨connected_swd _ _ rfl rfl rfl, ⟨rfl, rfl⟩, facing_meets _ _⟩⟩

/-- Four WAITs, the most a transaction can have, over each link. -/
def waits : List SwdJunk := [junk, junk, junk, junk]
def waitScans : List Capture := [waited, waited, waited, waited]

/-- Every failure of the poll and of the clear write over SWD, and a member of each list. -/
theorem witness_ClearSequenceFailures :
    let head := (swdFaultX params0 false true 0 once).andThen pulse
    let polled := head.andThen (swdReadOkX params0 false 1 0xF0000020 twice)
    let polls := swdPollFails params0 0x2BA01477 twice waits
    let clears := swdClearFails params0 twice waits
    let severe := fun (rnw : Bool) (a : BitVec 2) => swdSevere params0 rnw a 0b111 twice
    (0x0 : Addr) = 0#4 ++ 0#2 ++ 0#2 ∧ (∀ e, Connected .swd (facing s1 e)) ∧ once.fits params0 ∧ twice.fits params0 ∧
      waits.length = params0.waitRetries + 1 ∧ sticky 0xF0000020 = true ∧ polls.length = 3 ∧ clears.length = 2 ∧
      (severe true 1).length = 3 ∧ (severe false 0).length = 3 ∧
      ∀ e, (facing s1 (head.andThen e)).meets (head.andThen e) ∧ (facing s1 (polled.andThen e)).meets (polled.andThen e) :=
  ⟨by decide, fun _ => connected_swd _ _ rfl rfl rfl, by decide, by decide, rfl, by decide, rfl, rfl, rfl, rfl,
    fun _ => ⟨facing_meets _ _, facing_meets _ _⟩⟩

/-- Every failure of the clear write over JTAG, under both values of JTAG_STICKY_CLEAR. -/
theorem witness_ClearSequenceFailures_jtag :
    let byAbort := params0
    let byW1c := { params0 with jtagStickyClear := .ctrlStatW1C }
    let severe := fun p : Params => jtagClearSevere p 0xF0000020 5 0b100 0x10 rescanned
    (0x4 : Addr) = 0#4 ++ 1#2 ++ 0#2 ∧ scanned.fits params0 ∧ rescanned.fits params0 ∧
      waitScans.length = params0.waitRetries + 1 ∧ sticky 0xF0000020 = true ∧
      (jtagClearFails byW1c 0xF0000020 waitScans).length = 1 ∧ (severe byAbort).length = 4 ∧ (severe byW1c).length = 3 ∧
      ∀ c e, let p := { params0 with jtagStickyClear := c }
        ConnectedJtag { facing s3 e with params := p } ∧ State.meets { facing s3 e with params := p } e :=
  ⟨by decide, by decide, by decide, rfl, by decide, rfl, rfl, rfl,
    fun _ _ => ⟨⟨⟨rfl, rfl, rfl⟩, rfl⟩, meets_written [] (by simp [facing, start])⟩⟩

/-- A clear that succeeds and the commands after it over SWD, with the DP powered and not, and the clears that fail. -/
theorem witness_PendingClearRunsFirst :
    let b : Block := { s1 with clearPending := true, selectCache := none }
    (0xFC : Addr).extractLsb' 0 2 = 0 ∧ b.link = .ready ∧ b.proto = some .swd ∧ b.clearPending = true ∧
      b.selectCache = none ∧ b.dpPowered = true ∧ powered 0xF0000020 = true ∧ powered 0x70000020 = false ∧
      once.fits params0 ∧ twice.fits params0 ∧ waits.length = params0.waitRetries + 1 ∧ sticky 0xF0000020 = true ∧
      refusalOf (some .swd) (.readAp 0 0xFC) = none ∧ refusalOf (some .swd) (.writeDp 0x4 0x50000000) = none ∧
      (swdPollFails params0 0x2BA01477 twice waits).length = 3 ∧ (swdClearFails params0 twice waits).length = 2 ∧
      (swdSevere params0 true 1 0b111 twice).length = 3 ∧ ∀ e, (facing b e).meets e :=
  ⟨by decide, rfl, rfl, rfl, rfl, rfl, by decide, by decide, by decide, by decide, rfl, by decide, by decide, by decide, rfl,
    rfl, rfl, fun _ => facing_meets _ _⟩

/-- Over JTAG, with the DPACC code cached and with another, a sticky value and one that is not, under both values of
JTAG_STICKY_CLEAR. -/
theorem witness_PendingClearRunsFirst_jtag :
    let b : BitVec 4 → Block := fun ir => { s3 with clearPending := true, selectCache := none, irCache := some ir }
    (∀ ir, (b ir).link = .ready ∧ (b ir).proto = some .jtag ∧ (b ir).tap = some .rti ∧ (b ir).clearPending = true ∧
      (b ir).irCache = some ir) ∧ sticky 0xF0000020 = true ∧ sticky 0xF0000000 = false ∧ scanned.fits params0 ∧
      rescanned.fits params0 ∧ waitScans.length = params0.waitRetries + 1 ∧
      refusalOf (some .jtag) (.writeDp 0x4 0x50000001) = none ∧ (jtagSevere true 1 0 5 0b100 rescanned).length = 3 ∧
      ∀ k ir e, let p := { params0 with jtagStickyClear := k }
        State.meets { facing (b ir) e with params := p } e :=
  ⟨fun _ => ⟨rfl, rfl, rfl, rfl, rfl⟩, by decide, by decide, by decide, by decide, rfl, by decide, rfl,
    fun _ _ _ => meets_written [] (by simp [facing, start])⟩

/-- The first transactions the statements about WAIT, FAULT, parity and undecodable acknowledges range over. -/
theorem witness_firstTransactions :
    let swd := firstSwd 1 0 0xFC 0x50000000 0xFF000010 9
    let requests := requestsSwd 0x50000000 0xFF000010 9
    let jtag := firstJtag 1 0 0xFC 0xFF000010 9
    (0xFC : Addr).extractLsb' 0 2 = 0 ∧ (0x50000000 : Word).getLsbD 0 = false ∧ (0xFF000010 : Word).extractLsb' 0 4 = 0 ∧
      (Instr.readDp 0x4, false, true, (1 : BitVec 2)) ∈ swd ∧ (Instr.writeDp 0x0 9, false, false, (0 : BitVec 2)) ∈ swd ∧
      (Instr.readAp 0 0xFC, true, true, (3 : BitVec 2)) ∈ swd ∧ (Instr.writeAp 0 0xFC 9, true, false, (3 : BitVec 2)) ∈ swd ∧
      (Instr.powerUp, false, false, (1 : BitVec 2)) ∈ swd ∧ (Instr.dpRC, false, true, (3 : BitVec 2)) ∈ requests ∧
      (Instr.apW3 9, true, false, (3 : BitVec 2)) ∈ requests ∧
      (Instr.writeDp 0x8 0xFF000010, (0xA : BitVec 4), false, (2 : BitVec 2), (0xFF000010 : Word)) ∈ jtag ∧
      (Instr.writeAp 0 0xFC 9, (0xB : BitVec 4), false, (3 : BitVec 2), (9 : Word)) ∈ jtag ∧
      (Instr.powerUp, (0xA : BitVec 4), false, (1 : BitVec 2), (0x50000000 : Word)) ∈ jtag := by
  refine ⟨?_, ?_, ?_, ?_, ?_, ?_, ?_, ?_, ?_, ?_, ?_, ?_, ?_⟩ <;> decide

theorem witness_WaitTimeouts :
    let x := fun (apndp rnw : Bool) (a : BitVec 2) =>
      (swdWaitsX params0 apndp rnw a [junk, junk, junk, junk]).andThen pulse
    let y := fun (rnw : Bool) (a : BitVec 2) (d : Word) => (xpaccWaitsX rnw a d [waited, waited, waited, waited]).andThen pulse
    [junk, junk, junk, junk].length = params0.waitRetries + 1 ∧
      [waited, waited, waited, waited].length = params0.waitRetries + 1 ∧
      (∀ apndp rnw a, Connected .swd (facing s1Bank (x apndp rnw a)) ∧ ApReady 0 0xFC (facing s1Bank (x apndp rnw a)) ∧
        (facing s1Bank (x apndp rnw a)).meets (x apndp rnw a)) ∧
      ∀ ir rnw a d, let b := { s3Bank with irCache := some ir }
        ConnectedJtag (facing b (y rnw a d)) ∧ ApReady 0 0xFC (facing b (y rnw a d)) ∧
          (facing b (y rnw a d)).meets (y rnw a d) :=
  ⟨rfl, rfl, fun _ _ _ => ⟨connected_swd _ _ rfl rfl rfl, ⟨rfl, rfl⟩, facing_meets _ _⟩,
    fun _ _ _ _ => ⟨connected_jtag _ _ rfl rfl rfl rfl, ⟨rfl, rfl⟩, facing_meets _ _⟩⟩

theorem witness_InvalidAckDesyncs :
    let x := fun (apndp rnw : Bool) (a : BitVec 2) => (swdInvalidX params0 apndp rnw a 0b111 twice).andThen pulse
    let y := fun (rnw : Bool) (a : BitVec 2) (d : Word) => (xpaccInvalidX rnw a d 5 0b100 rescanned).andThen pulse
    twice.fits params0 ∧ rescanned.fits params0 ∧
      (∀ apndp rnw a, Connected .swd (facing s1Bank (x apndp rnw a)) ∧ ApReady 0 0xFC (facing s1Bank (x apndp rnw a)) ∧
        (facing s1Bank (x apndp rnw a)).meets (x apndp rnw a)) ∧
      ∀ ir rnw a d, let b := { s3Bank with irCache := some ir }
        ConnectedJtag (facing b (y rnw a d)) ∧ ApReady 0 0xFC (facing b (y rnw a d)) ∧
          (facing b (y rnw a d)).meets (y rnw a d) :=
  ⟨by decide, by decide, fun _ _ _ => ⟨connected_swd _ _ rfl rfl rfl, ⟨rfl, rfl⟩, facing_meets _ _⟩,
    fun _ _ _ _ => ⟨connected_jtag _ _ rfl rfl rfl rfl, ⟨rfl, rfl⟩, facing_meets _ _⟩⟩

theorem witness_TransportErrorsEndTheSession :
    (0x4 : Addr) = 0#4 ++ 1#2 ++ 0#2 ∧ (∀ x, Connected .swd (facing s1 x)) ∧ (∀ x, ConnectedJtag (facing s3 x)) ∧
      s3.irCache = some 0xA ∧
      (∀ a lost, (facing s1 (swdLostX false true a lost)).meets (swdLostX false true a lost)) ∧
      (∀ a lost, (facing s3 (jtagLostX true a 0 lost)).meets (jtagLostX true a 0 lost)) :=
  ⟨by decide, fun _ => connected_swd _ _ rfl rfl rfl, fun _ => connected_jtag _ _ rfl rfl rfl rfl, rfl,
    fun _ _ => facing_meets _ _, fun _ _ => facing_meets _ _⟩

/-- A probe without each protocol, and every failing exchange of each CONNECT. -/
theorem witness_ConnectFailures :
    let swd := fun x : Exchange => (pulse.andThen (lineResetX 0)).andThen x
    let jtag := fun x : Exchange => ((((pulse.andThen (tapResetX 0)).andThen (jtagIdcodeX none 0x4BA00477 0x10 0)).andThen
      (jtagAbortX (some 0xE) 0x1E 0x10 0 0)).andThen (irScanX 0xA 0x10)).andThen x
    let s : State := { start s1 [.ok 0] with params := { params0 with caps := ⟨false, false⟩ } }
    let bad : BitVec 33 := BitVec.ofBool (!parity (0x2BA01477 : Word)) ++ (0x2BA01477 : Word)
    s.st.link ≠ .disconnected ∧ s.params.caps.swd = false ∧ s.params.caps.jtag = false ∧ s.meets ⟨[.ok 0], []⟩ ∧
      s1.link ≠ .disconnected ∧ params0.caps.swd = true ∧ params0.caps.jtag = true ∧ twice.fits params0 ∧
      rescanned.fits params0 ∧ [junk, junk, junk, junk].length = params0.waitRetries + 1 ∧
      [waited, waited, waited, waited].length = params0.waitRetries + 1 ∧
      ∀ e ∈ [swd (swdFaultX params0 false true 0 twice), swd (swdDataX params0 false 0 bad twice),
        swd (swdWaitsX params0 false true 0 [junk, junk, junk, junk]), swd (swdInvalidX params0 false true 0 0b111 twice),
        swd (swdLostX false true 0 .disconnected), swd (swdLostX false true 0 .unsupported),
        jtag (xpaccWaitsX false 2 0 [waited, waited, waited, waited]), jtag (xpaccInvalidX false 2 0 5 0b100 rescanned),
        jtag (jtagLostX false 2 0 .disconnected), jtag (jtagLostX false 2 0 .unsupported)],
        (facing s1 e).meets e :=
  ⟨by decide, rfl, rfl, meets_written [] rfl, by decide, rfl, rfl, by decide, by decide, rfl, rfl,
    fun _ _ => facing_meets _ _⟩

/-- With WAITs and without, sticky and not, and no poll or two before the last. -/
theorem witness_ClockCounts :
    let q : JtagPoll := ⟨0xF0000000, 0, scanned, rescanned⟩
    let r : JtagPoll := ⟨0x50000000, 0, scanned, scanned⟩
    let select := requiredSelect 0 0xFC
    let rd := swdReadOkX params0 true (regA 0xFC) 7 once
    let wr := swdWriteOkX params0 true (regA 0xFC) 9 once
    let rdbuff := swdReadOkX params0 false 3 5 twice
    let sel := (swdWriteOkX params0 false 2 select once).andThen pulse
    let jsel := jtagEnsureSelectX (some 0xA) select 7 0x10 rescanned
    let ap := fun (c : BitVec 4) (rnw : Bool) (v : Word) =>
      jtagApX (some c) rnw (regA 0xFC) v 7 5 0x10 0x10 rescanned scanned
    (0xFC : Addr).extractLsb' 0 2 = 0 ∧ once.fits params0 ∧ twice.fits params0 ∧ scanned.fits params0 ∧
      rescanned.fits params0 ∧ q.fits params0 ∧ sticky q.value = false ∧ powered q.value = true ∧ r.fits params0 ∧
      sticky r.value = false ∧ powered r.value = false ∧ [r, r].length < params0.pwrPolls ∧
      (∀ x, Connected .swd (facing s1Bank x)) ∧ (∀ x, ApReady 0 0xFC (facing s1Bank x)) ∧
      (∀ x, ConnectedJtag (facing s3Bank x)) ∧ (∀ x, ApReady 0 0xFC (facing s3Bank x)) ∧ s1.dpPowered = true ∧
      s1.selectCache ≠ some select ∧ s3.dpPowered = true ∧ s3.selectCache ≠ some select ∧ s1.link ≠ .disconnected ∧
      params0.caps.swd = true ∧ params0.caps.jtag = true ∧
      (0x50000000 : Word).getLsbD 0 = false ∧ s1.selectCache = some 0 ∧ s1.selectCache ≠ some 0xF0 ∧
      ∀ b, ∀ e ∈ [swdReadOkX params0 false 0 5 twice, swdWriteOkX params0 false 0 9 once,
        swdWriteOkX params0 false 1 0x50000000 once, (swdWriteOkX params0 false 2 0 once).andThen noExchange,
        (swdWriteOkX params0 false 2 0xF0 once).andThen pulse,
        (jtagWriteDpX (some 0xA) 2 0 7 5 0 scanned rescanned).andThen noExchange,
        (jtagWriteDpX (some 0xA) 2 0xF0 7 5 0 scanned rescanned).andThen pulse,
        (swdFaultX params0 false true 0 twice).andThen (swdScsX params0 0xF0000020 once twice),
        (swdInvalidX params0 false true 0 0b111 twice).andThen pulse,
        ((swdWriteOkX params0 false 1 0x50000000 once).andThen (swdPollsX params0 [(0x50000000, once), (0x70000000, twice)])
          ).andThen (swdReadOkX params0 false 1 0xF0000000 once),
        rd.andThen rdbuff, wr.andThen rdbuff, (sel.andThen rd).andThen rdbuff, (sel.andThen wr).andThen rdbuff,
        (((pulse.andThen (lineResetX 0)).andThen (swdReadOkX params0 false 0 5 once)).andThen
          (swdWriteOkX params0 false 0 0x1E twice)).andThen (swdWriteOkX params0 false 2 0 once),
        jtagReadDpX (some 0xA) 0 7 5 0 rescanned scanned, jtagWriteDpX (some 0xA) 1 9 7 5 0 scanned rescanned,
        jtagAbortX (some 0xA) 9 0x10 0 0,
        ((jtagWriteDpX (some 0xA) 1 0x50000000 7 5 0 scanned rescanned).andThen (jtagPollsX [r, r])).andThen q.exchange,
        (ap 0xA true 0).andThen q.exchange, (ap 0xB false 9).andThen q.exchange,
        (jsel.andThen (ap 0xA true 0)).andThen q.exchange, (jsel.andThen (ap 0xA false 9)).andThen q.exchange,
        (((pulse.andThen (tapResetX 0)).andThen (jtagIdcodeX none 5 0x10 0)).andThen
          (jtagAbortX (some 0xE) 0x1E 0x10 0 0)).andThen (jtagWriteDpX (some 0x8) 2 0 7 5 0x10 scanned rescanned)],
        (facing b e).meets e :=
  ⟨by decide, by decide, by decide, by decide, by decide, ⟨by decide, by decide⟩, by decide, by decide,
    ⟨by decide, by decide⟩, by decide, by decide, by decide, fun _ => connected_swd _ _ rfl rfl rfl,
    fun _ => ⟨rfl, rfl⟩, fun _ => connected_jtag _ _ rfl rfl rfl rfl, fun _ => ⟨rfl, rfl⟩, rfl, by decide, rfl,
    by decide, by decide, rfl, rfl, by decide, rfl, by decide, fun _ _ _ => facing_meets _ _⟩

end Sys2Proof.Tests
end

section
/-! Proofs of the scope statements (00_scope.md): the step as a whole, and transport errors at a DP read. -/

namespace Sys2Proof.Machine

/-! ## The step and its port -/

theorem fetch_nil {s : State} (h : s.port = []) : fetch s = none := by
  rw [fetch, h]

theorem fetch_cons {s : State} {w : PortWord} {rest : List PortWord} (h : s.port = w :: rest) :
    fetch s = some (w, { s with port := rest }) := by
  rw [fetch, h]

/-- A step with nothing to fetch (70_reset_and_hazards.md R302; log 17). -/
theorem step_of_fetch_none {s : State} (h : fetch s = none) : step s = .next s := by
  rw [step, h]

/-- A step that fetches an instruction of the table (00_scope.md R6). -/
theorem step_of_decode {s s' : State} {w : PortWord} {i : Instr} (hf : fetch s = some (w, s')) (hd : decode w = .ok i) :
    step s = exec i s' := by
  simp only [step, hf, hd]

/-- Settles O15, by the two cases of the fetch. -/
theorem stepRunsDecodedInstruction : Obligations.StepRunsDecodedInstruction := by
  unfold Obligations.StepRunsDecodedInstruction
  constructor
  · intro s w rest i hport hdec
    exact step_of_decode (fetch_cons hport) hdec
  · intro s hport
    exact step_of_fetch_none (fetch_nil hport)

/-! ## READ_DP and transport errors -/

/-- The address a DP command names by A[3:2] is one the refusal table lets through (20_memory.md R63). -/
theorem dpAddrWF_ofA (a : BitVec 2) : dpAddrWF (0#4 ++ a ++ 0#2) = true := by
  revert a
  decide

theorem regA_ofA (a : BitVec 2) : regA (0#4 ++ a ++ 0#2) = a := by
  revert a
  decide

/-- The meaning of READ_DP (42_dpap_commands.md R210, R211). -/
theorem exec_readDp (addr : Addr) (s : State) : exec (.readDp addr) s = execReadDp addr s := rfl

/-- READ_DP while connected with no clear pending is the DP read of its register (42_dpap_commands.md R210). -/
theorem exec_readDp_connected {p : Protocol} {s : State} (hc : Connected p s) (a : BitVec 2) :
    exec (.readDp (0#4 ++ a ++ 0#2)) s = .next (finish (.instr (.readDp (0#4 ++ a ++ 0#2)))
      (ctxOf s.st.selectCache (.readDp (0#4 ++ a ++ 0#2))) (readDpReg a s)) := by
  have hr : refusalOf s.st.proto (.readDp (0#4 ++ a ++ 0#2)) = none := if_pos (dpAddrWF_ofA a)
  rw [exec_readDp, execReadDp, runReady_live hc.link hc.clear hr (by simp), regA_ofA]

/-- A DP read that Disconnected stops ends the command in LinkDisconnected (60_exceptions.md R262, R272). -/
theorem readDpReg_disconnected {a : BitVec 2} {s t : State} (h : dpRead a s = .stop .disconnected t) :
    readDpReg a s = .stop .disconnected (t.withBlock t.st.lost) := by
  rw [readDpReg, h, check_disconnected, linkDisconnected_eq, Run.bind_stop]

/-- A DP read that Unsupported stops ends the command in LinkUnsupported, with its event (60_exceptions.md R262, R273). -/
theorem readDpReg_unsupported {a : BitVec 2} {s t : State} (h : dpRead a s = .stop .unsupported t) :
    readDpReg a s = .stop .unsupported ((t.after pulse).withBlock t.st.unsupported) := by
  rw [readDpReg, h, check_unsupported, linkUnsupported_eq, Run.bind_stop]

/-- READ_DP when the exchange `x` loses its read, over whichever link, and whatever is left known of the TAP: both errors
forget the TAP anyway. -/
theorem exec_readDp_lost {p : Protocol} {s : State} {a : BitVec 2} {lost : Answer} {x : Exchange}
    (tap : Option TapState) (hc : Connected p s)
    (hread : (∀ bits, lost ≠ .ok bits) → s.meets x →
      dpRead a s = .stop (lostAs lost) ((s.after x).withBlock { s.st with tap := tap })) :
    (lost = .disconnected → s.meets x → exec (.readDp (0#4 ++ a ++ 0#2)) s =
      .next (((s.after x).withBlock s.st.lost).failed (.readDp (0#4 ++ a ++ 0#2)) s.st.selectCache .disconnected)) ∧
    (lost = .unsupported → s.meets x → exec (.readDp (0#4 ++ a ++ 0#2)) s =
      .next (((s.after (x.andThen pulse)).withBlock s.st.unsupported).failed (.readDp (0#4 ++ a ++ 0#2))
        s.st.selectCache .unsupported)) := by
  constructor
  · rintro rfl hm
    rw [exec_readDp_connected hc, readDpReg_disconnected (hread (by simp) hm), finish_stop, withBlock_twice]
    rfl
  · rintro rfl hm
    rw [exec_readDp_connected hc, readDpReg_unsupported (hread (by simp) hm), finish_stop, withBlock_after,
      withBlock_twice, after_after]
    rfl

/-- A DP read over SWD whose first call the transport fails keeps the whole block state. -/
theorem dpRead_swd_lost {s : State} {a : BitVec 2} {lost : Answer} (hp : s.st.proto = some .swd)
    (hn : ∀ bits, lost ≠ .ok bits) (h : s.meets (swdLostX false true a lost)) :
    dpRead a s = .stop (lostAs lost) (s.after (swdLostX false true a lost)) := by
  rw [dpRead_swd hp, swdXfer_lost hn h]

/-- A DP read over JTAG, its IR code held, whose first scan the transport fails loses track of the TAP
(41_jtag_tap.md R163). -/
theorem dpRead_jtag_lost {s : State} {a : BitVec 2} {lost : Answer} (hp : s.st.proto = some .jtag)
    (hi : s.st.irCache = some 0xA) (hn : ∀ bits, lost ≠ .ok bits) (h : s.meets (jtagLostX true a 0 lost)) :
    dpRead a s = .stop (lostAs lost) ((s.after (jtagLostX true a 0 lost)).withBlock { s.st with tap := none }) := by
  rw [dpRead_jtag hp, jtagReadDp, ensureIr_held (ir := irCodeDpacc) hi, Run.bind_ok, jtagXpacc_lost hn h, Run.bind_stop]

/-- Settles O58: over either link the lost call ends the DP read, and the check of its result does the rest. -/
theorem transportErrorsEndTheSession : Obligations.TransportErrorsEndTheSession := by
  unfold Obligations.TransportErrorsEndTheSession
  rintro s a _ rfl
  constructor
  · intro hc lost
    refine exec_readDp_lost s.st.tap hc fun hn hm => ?_
    rw [dpRead_swd_lost hc.proto hn hm, ← after_st s (swdLostX false true a lost)]
    rfl
  · intro hc hi lost
    exact exec_readDp_lost none hc.toConnected fun hn hm => dpRead_jtag_lost hc.proto hi hn hm

end Sys2Proof.Machine
end

section
/-! Proofs of the state statements (10_state.md): what each instruction but a CONNECT leaves of the protocol and the
identity, the flag values, reset, and the link requests that the model stops. -/

namespace Sys2Proof.Machine

/-! ## The refusal table and the gates of the link requests -/

/-- A WRITE_DP that no row of the table refuses (42_dpap_commands.md R219 rows 4, 6, 7, 8). -/
theorem writeDpRefusal_eq_none_iff {p : Option Protocol} {addr : Addr} {v : Word} :
    writeDpRefusal p addr v = none ↔ dpAddrWF addr = true ∧ addr ≠ 0xC ∧ (addr = 0x8 → v.extractLsb' 0 4 = 0) ∧
      (addr = 0x4 → p = some .swd → v.getLsbD 0 = false) := by
  unfold writeDpRefusal selectWF
  split_ifs <;> grind

/-- A CTRL/STAT write is refused only over SWD, with ORUNDETECT (42_dpap_commands.md R219 row 7). -/
theorem unrefused_ctrlStat {p : Option Protocol} {v : Word} (h : p = some .swd → v.getLsbD 0 = false) :
    writeDpRefusal p 0x4 v = none :=
  writeDpRefusal_eq_none_iff.mpr ⟨by decide, by decide, fun e => absurd e (by decide), fun _ => h⟩

/-- A SELECT write is refused only for its DPBANKSEL (42_dpap_commands.md R219 row 6). -/
theorem unrefused_select {p : Option Protocol} {v : Word} (h : v.extractLsb' 0 4 = 0) :
    writeDpRefusal p 0x8 v = none :=
  writeDpRefusal_eq_none_iff.mpr ⟨by decide, by decide, fun _ => h, fun e => absurd e (by decide)⟩

/-- Whether SELECT is held does not depend on A[3:2]: the held value must be RequiredSelect of some register. -/
theorem selectHeld_iff {a : BitVec 2} {s : State} :
    selectHeld a s = true ↔ ∃ ap addr, s.st.selectCache = some (requiredSelect ap addr) := by
  constructor
  · intro h
    cases hv : s.st.selectCache with
    | none => simp [selectHeld, hv] at h
    | some v =>
      simp only [selectHeld, hv, beq_iff_eq] at h
      exact ⟨selectAp v, selectAddr v a, by rw [h]⟩
  · rintro ⟨ap, addr, h⟩
    exact selectHeld_required a h

/-- An unrefused link request of the other protocol stops (log 6). -/
theorem runLink_otherProtocol {i : Instr} {p : Protocol} {body : State → Run Error (Option Word)} {s : State}
    (hl : s.st.link = .ready) (hp : s.st.proto ≠ some p) (hr : refusalOf s.st.proto i = none) :
    runLink i p body s = .refused .encoderNotSelected :=
  if_pos ⟨by rw [hr]; exact precheck_ready hl (by simp), hp⟩

/-- An AP link request of the other protocol stops, the DP powered (log 6). -/
theorem runLinkAp_otherProtocol {i : Instr} {p : Protocol} {a : BitVec 2} {body : State → Run Error (Option Word)}
    {s : State} (hl : s.st.link = .ready) (hd : s.st.dpPowered = true) (hp : s.st.proto ≠ some p)
    (hr : refusalOf s.st.proto i = none) : runLinkAp i p a body s = .refused .encoderNotSelected :=
  if_pos ⟨by rw [hr]; exact precheck_ready hl fun _ => hd, hp⟩

/-- An AP link request of the connected protocol stops while SELECT is not held, the DP powered (log 7). -/
theorem runLinkAp_selectNotHeld {i : Instr} {p : Protocol} {a : BitVec 2} {body : State → Run Error (Option Word)}
    {s : State} (hl : s.st.link = .ready) (hd : s.st.dpPowered = true) (hp : s.st.proto = some p)
    (hs : ∀ ap addr, s.st.selectCache ≠ some (requiredSelect ap addr)) (hr : refusalOf s.st.proto i = none) :
    runLinkAp i p a body s = .refused .selectNotHeld := by
  have held : ¬ selectHeld a s = true := fun h => by
    obtain ⟨ap, addr, e⟩ := selectHeld_iff.mp h
    exact hs ap addr e
  unfold runLinkAp
  rw [if_neg fun h => h.2 hp, if_pos ⟨by rw [hr]; exact precheck_ready hl fun _ => hd, by simpa using held⟩]

/-! ## What a command but CONNECT leaves alone -/

/-- The word that an AP write which may go over JTAG is given, and whose scan holds it whatever its low bits; 0 for the
other instructions (30_encoding.md R94). -/
def apWord : Instr → Word
  | .apaccW _ v => v
  | .writeAp _ _ v => v
  | _ => 0

/-- A bound on the calls of a command's body that goes on: POWER_UP makes most, its write and its polls
(42_dpap_commands.md R218, 70_reset_and_hazards.md R314). -/
def bodyCalls (p : Params) : Nat := (p.pwrPolls + 3) * xferCalls p

/-- What an instruction other than a CONNECT has done when it has answered: within the bound on its calls, one result; and
the protocol and the identity are as they were (10_state.md R22, R28). -/
structure Commanded (i : Instr) (s t : State) : Prop where
  answered : Answered (apWord i) (.instr i) (4 * xferCalls s.params + bodyCalls s.params) s t
  proto : t.st.proto = s.st.proto
  idcode : t.st.dpIdcode = s.st.dpIdcode

/-- What the body of an instruction has to do: it runs in a state u with the parameters of s, and stays
within the bound. -/
def BodyEnds (i : Instr) (s u : State) (r : Run Error (Option Word)) : Prop :=
  Ends (apWord i) (Live u) (bodyCalls s.params) (2 * xferCalls s.params) u r

/-- A body that makes the calls of k transactions, at most those of POWER_UP or of an AP access. -/
theorem Ends.body {i : Instr} {s u : State} {n : Nat} {r : Run Error (Option Word)} (k : Nat)
    (h : Ends (apWord i) (Live u) n (2 * xferCalls u.params) u r) (hu : u.params = s.params)
    (hn : n ≤ k * xferCalls u.params := by omega) (hk : k ≤ u.params.pwrPolls + 3 := by omega) : BodyEnds i s u r := by
  have hb : n ≤ bodyCalls u.params := hn.trans (Nat.mul_le_mul_right _ hk)
  unfold BodyEnds
  rw [← hu]
  exact h.le hb (by omega)

/-- A command that runs while Ready, from what its body does once the checks let it through. -/
theorem runReady_commanded {i : Instr} {ap : Bool} {body : State → Run Error (Option Word)} {s : State}
    (hb : precheck (refusalOf s.st.proto i) ap s = none → ∀ u : State, u.params = s.params → u.st.proto = s.st.proto →
      BodyEnds i s u (body u)) : Commanded i s (runReady i ap body s) := by
  obtain ⟨ha, hp, hi⟩ := runReady_answered hb
  exact ⟨ha, hp, hi⟩

/-- A host command, from what its body does once nothing refuses it. -/
theorem hostCommand_commanded {i : Instr} {ap : Bool} {body : State → Run Error (Option Word)} {s t : State}
    (h : (.next (runReady i ap body s) : Host.Outcome State Fault Refusal) = .next t)
    (hb : ∀ u : State, u.params = s.params → refusalOf u.st.proto i = none → BodyEnds i s u (body u)) :
    Commanded i s t := by
  injection h with h
  subst h
  exact runReady_commanded fun hc u hu hp => hb u hu (hp ▸ (precheck_none hc).2.1)

/-- A link request, from what its body does over its own protocol once nothing refuses it (log 5, log 6). -/
theorem runLink_commanded {i : Instr} {p : Protocol} {body : State → Run Error (Option Word)} {s t : State}
    (h : runLink i p body s = .next t)
    (hb : ∀ u : State, u.params = s.params → u.st.proto = some p → refusalOf u.st.proto i = none →
      BodyEnds i s u (body u)) : Commanded i s t := by
  obtain ⟨rfl, own⟩ := runLink_next h
  exact runReady_commanded fun hc u hu hp => hb u hu (hp.trans (own hc)) (hp ▸ (precheck_none hc).2.1)

/-- As `runLink_commanded`, for an AP link request (log 7). -/
theorem runLinkAp_commanded {i : Instr} {p : Protocol} {a : BitVec 2} {body : State → Run Error (Option Word)}
    {s t : State} (h : runLinkAp i p a body s = .next t)
    (hb : ∀ u : State, u.params = s.params → u.st.proto = some p → BodyEnds i s u (body u)) : Commanded i s t := by
  obtain ⟨rfl, own⟩ := runLinkAp_next h
  exact runReady_commanded fun hc u hu hp => hb u hu (hp.trans (own hc))

/-! ### The rows, by what their bodies do -/

/-- A DP address is the one its A[3:2] names (20_memory.md R63). -/
theorem eq_of_regA {addr : Addr} (h : dpAddrWF addr = true) {a : BitVec 2} (e : regA addr = a) :
    addr = 0#4 ++ a ++ 0#2 := by
  subst e
  revert addr
  decide

/-- A DP write that the table does not refuse (10_state.md R32, 30_encoding.md R94). -/
theorem writeDpReg_ends_of_unrefused (own : Word) {addr : Addr} {v : Word} {s : State}
    (h : writeDpRefusal s.st.proto addr v = none) :
    Ends own (Live s) (xferCalls s.params) (2 * xferCalls s.params) s (writeDpReg (regA addr) v s) := by
  obtain ⟨hwf, -, hselect, hctrl⟩ := writeDpRefusal_eq_none_iff.mp h
  exact writeDpReg_ends own (regA addr) v (fun e => hselect (eq_of_regA hwf e)) s fun e => hctrl (eq_of_regA hwf e)

/-- A DP write as a link request has the refusals of the WRITE_DP that makes the same transaction (log 9). -/
theorem linkWrite_commanded {i : Instr} {p : Protocol} {v : Word} {s t : State} (addr : Addr)
    (h : runLink i p (writeDpReg (regA addr) v) s = .next t)
    (hr : ∀ q, refusalOf q i = writeDpRefusal (some p) addr v) : Commanded i s t :=
  runLink_commanded h fun u hu hp hn =>
    (writeDpReg_ends_of_unrefused _ (by rw [hp, ← hr u.st.proto, hn])).body 1 hu

/-- An AP access behind EnsureSelect (42_dpap_commands.md R205). -/
theorem ensureSelect_bind_ends {own : Word} {ap addr : Addr} {body : State → Run Error (Option Word)} {s : State}
    (h : ∀ t : State, Ends own (Live t) (2 * xferCalls t.params) (2 * xferCalls t.params) t (body t)) :
    Ends own (Live s) (xferCalls s.params + 2 * xferCalls s.params) (2 * xferCalls s.params) s
      ((ensureSelect ap addr s).bind fun _ t => body t) :=
  (ensureSelect_ends own ap addr s).bind fun _ t ht => by
    rw [← ht]
    exact h t

/-- The result of a command leaves the block as its run did. -/
theorem finish_st (q : Request) (c : Ctx) (r : Run Error (Option Word)) : (finish q c r).st = r.state.st := by
  cases r <;> rfl

/-- CONNECT and SET_CLOCK leave a part f of the block as it was if their body does. -/
theorem runEarly_keeps {β : Type} (f : Block → β) {i : Instr} {body : State → Run Error (Option Word)} {s : State}
    (h : f (body s).state.st = f s.st) : f (runEarly i body s).st = f s.st := by
  unfold runEarly
  rw [finish_st]
  cases precheckEarly (refusalOf s.st.proto i) s with
  | some _ => rfl
  | none => exact h

/-- SET_CLOCK makes one call (42_dpap_commands.md R209). -/
theorem setClock_commanded {hz : Word} {s t : State} (h : exec (.setClock hz) s = .next t) :
    Commanded (.setClock hz) s t := by
  obtain ⟨w, signalled, keepsInv⟩ := setClockBody_ends (apWord (.setClock hz)) hz s
  have grows := w.toGrows.le (show 1 ≤ 4 * xferCalls s.params + bodyCalls s.params by unfold xferCalls; omega)
  injection h with h
  subst h
  exact ⟨runEarly_answered grows signalled keepsInv, runEarly_keeps Block.proto w.proto,
    runEarly_keeps Block.dpIdcode w.idcode⟩

/-- Every instruction but the CONNECTs, row by row. -/
theorem exec_commanded {i : Instr} {s t : State} (hs : i ≠ .connectSwd) (hj : i ≠ .connectJtag)
    (h : exec i s = .next t) : Commanded i s t := by
  cases i
  case connectSwd => exact absurd rfl hs
  case connectJtag => exact absurd rfl hj
  case setClock hz => exact setClock_commanded h
  case dpR0 | dpR4 | dpR8 | dpRC | dpaccR =>
    exact runLink_commanded h fun u hu _ _ => (readDpReg_ends _ _ u).body 1 hu
  case dpW0 v => exact linkWrite_commanded 0x0 h fun _ => rfl
  case dpW4 v => exact linkWrite_commanded 0x4 h fun _ => rfl
  case dpW8 v => exact linkWrite_commanded 0x8 h fun _ => rfl
  case dpWC v => exact linkWrite_commanded 0xC h fun _ => rfl
  case abortW v => exact linkWrite_commanded 0x0 h fun _ => rfl
  case dpaccW reg v =>
    cases reg with
    | ctrlStat => exact linkWrite_commanded 0x4 h fun _ => rfl
    | select => exact linkWrite_commanded 0x8 h fun _ => rfl
  case apR0 | apR1 | apR2 | apR3 | apaccR =>
    exact runLinkAp_commanded h fun u hu _ => (apReadReg_ends _ _ u).body 2 hu
  case apW0 | apW1 | apW2 | apW3 =>
    exact runLinkAp_commanded h fun u hu hp => (apWriteReg_ends _ _ u (.inl hp)).body 2 hu
  case apaccW a v => exact runLinkAp_commanded h fun u hu _ => (apWriteReg_ends a v u (.inr rfl)).body 2 hu
  case irAbort | irDpacc | irApacc | irIdcode =>
    exact runLink_commanded h fun u hu _ _ => (irBody_ends _ (by unfold ShiftedIr; decide) u).body 1 hu
  case irBypass => exact runLink_commanded h fun u hu _ _ => (Ends.pure none u).body 0 hu
  case idcodeR =>
    exact runLink_commanded h fun u hu _ _ =>
      ((check_at rfl (jtagIdcode_ends _ u)).bind (m := 0) fun id t _ => .pure (some id) t).body 1 hu
  case readDp addr => exact hostCommand_commanded h fun u hu _ => (readDpReg_ends _ _ u).body 1 hu
  case writeDp addr v => exact hostCommand_commanded h fun u hu hn => (writeDpReg_ends_of_unrefused _ hn).body 1 hu
  case readAp ap addr =>
    exact hostCommand_commanded h fun u hu _ => (ensureSelect_bind_ends fun t => apReadReg_ends _ _ t).body 3 hu
  case writeAp ap addr v =>
    exact hostCommand_commanded h fun u hu _ =>
      (ensureSelect_bind_ends fun t => apWriteReg_ends _ v t (.inr rfl)).body 3 hu
  case powerUp =>
    exact hostCommand_commanded h fun u hu _ =>
      (powerUpBody_ends _ u).body (u.params.pwrPolls + 1) hu le_rfl
  case reservedOp7 | reservedOp8 | reservedOp9 | reservedOp10 | reservedOp11 | reservedOp12 | reservedOp13 |
      reservedOp14 | reservedOp15 => exact hostCommand_commanded h fun _ _ hn => by cases hn

/-- Settles O23: every instruction but the CONNECTs runs as a command of the session, and those keep both fields. -/
theorem onlyConnectChangesProtocol : Obligations.OnlyConnectChangesProtocol := by
  unfold Obligations.OnlyConnectChangesProtocol
  intro i s t hs hj h
  have c := exec_commanded hs hj h
  exact ⟨c.proto, c.idcode⟩

/-! ## Link requests that the model stops (log 6, log 7) -/

/-- The AP requests of the SWD format, over the other protocol or without their SELECT. -/
theorem exec_swdAp_stops {s : State} (v : Word) (hl : s.st.link = .ready) (hd : s.st.dpPowered = true) :
    ∀ i ∈ [Instr.apR0, .apR1, .apR2, .apR3, .apW0 v, .apW1 v, .apW2 v, .apW3 v],
      (s.st.proto ≠ some .swd → exec i s = .refused .encoderNotSelected) ∧
      (s.st.proto = some .swd → (∀ ap addr, s.st.selectCache ≠ some (requiredSelect ap addr)) →
        exec i s = .refused .selectNotHeld) := by
  intro i hi
  fin_cases hi
  all_goals
    exact ⟨fun hp => runLinkAp_otherProtocol hl hd hp rfl, fun hp hs => runLinkAp_selectNotHeld hl hd hp hs rfl⟩

/-- The AP requests of the JTAG format, over the other protocol or without their SELECT. -/
theorem exec_jtagAp_stops {s : State} (v : Word) (a : BitVec 2) (hl : s.st.link = .ready)
    (hd : s.st.dpPowered = true) :
    ∀ i ∈ [Instr.apaccR a, .apaccW a v],
      (s.st.proto ≠ some .jtag → exec i s = .refused .encoderNotSelected) ∧
      (s.st.proto = some .jtag → (∀ ap addr, s.st.selectCache ≠ some (requiredSelect ap addr)) →
        exec i s = .refused .selectNotHeld) := by
  intro i hi
  fin_cases hi
  all_goals
    exact ⟨fun hp => runLinkAp_otherProtocol hl hd hp rfl, fun hp hs => runLinkAp_selectNotHeld hl hd hp hs rfl⟩

/-- The DP requests of the SWD format while JTAG is connected, the writes with an operand that no row refuses. -/
theorem exec_swdDp_stops {s : State} (v : Word) (hl : s.st.link = .ready) (hp : s.st.proto ≠ some .swd) :
    (∀ i ∈ [Instr.dpR0, .dpR4, .dpR8, .dpRC, .dpW0 v], exec i s = .refused .encoderNotSelected) ∧
    (v.getLsbD 0 = false → exec (.dpW4 v) s = .refused .encoderNotSelected) ∧
    (v.extractLsb' 0 4 = 0 → exec (.dpW8 v) s = .refused .encoderNotSelected) := by
  refine ⟨?_, fun hv => ?_, fun hv => ?_⟩
  · intro i hi
    fin_cases hi
    all_goals exact runLink_otherProtocol hl hp rfl
  · exact runLink_otherProtocol hl hp (unrefused_ctrlStat fun _ => hv)
  · exact runLink_otherProtocol hl hp (unrefused_select hv)

/-- The requests of the JTAG format but the AP ones while SWD is connected, the SELECT write with DPBANKSEL 0. -/
theorem exec_jtagDp_stops {s : State} (v : Word) (a : BitVec 2) (hl : s.st.link = .ready)
    (hp : s.st.proto ≠ some .jtag) :
    (∀ i ∈ [Instr.irAbort, .irDpacc, .irApacc, .irIdcode, .irBypass, .dpaccR a, .dpaccW .ctrlStat v, .abortW v,
      .idcodeR], exec i s = .refused .encoderNotSelected) ∧
    (v.extractLsb' 0 4 = 0 → exec (.dpaccW .select v) s = .refused .encoderNotSelected) := by
  refine ⟨?_, fun hv => ?_⟩
  · have ctrl : refusalOf s.st.proto (.dpaccW .ctrlStat v) = none :=
      unrefused_ctrlStat fun e => absurd e (by decide)
    simp only [List.forall_mem_cons]
    refine ⟨?_, ?_, ?_, ?_, ?_, ?_, runLink_otherProtocol hl hp ctrl, ?_, ?_, by simp⟩
    all_goals exact runLink_otherProtocol hl hp rfl
  · exact runLink_otherProtocol hl hp (unrefused_select hv)

/-- Settles O30, by the format of the request. -/
theorem linkRequestsNeedTheirEncoder : Obligations.LinkRequestsNeedTheirEncoder := by
  unfold Obligations.LinkRequestsNeedTheirEncoder
  intro s v a hl
  refine ⟨fun hp => ?_, fun hp => ?_, fun hsel hd => ⟨fun hp i hi => ?_, fun hp i hi => ?_⟩⟩
  · have other : s.st.proto ≠ some .swd := by simp [hp]
    obtain ⟨reads, ctrl, select⟩ := exec_swdDp_stops v hl other
    exact ⟨reads, fun hv => by simpa using ctrl hv, fun hv => by simpa using select hv,
      fun hd i hi => (exec_swdAp_stops v hl hd i hi).1 other⟩
  · have other : s.st.proto ≠ some .jtag := by simp [hp]
    obtain ⟨requests, select⟩ := exec_jtagDp_stops v a hl other
    exact ⟨requests, fun hv => by simpa using select hv, fun hd i hi => (exec_jtagAp_stops v a hl hd i hi).1 other⟩
  · exact (exec_swdAp_stops v hl hd i hi).2 hp hsel
  · exact (exec_jtagAp_stops v a hl hd i hi).2 hp hsel

/-! ## Reset, and the flags of a CTRL/STAT value -/

/-- Settles O16: the reset block is the record 10_state.md R45 states. -/
theorem resetState : Obligations.ResetState := by
  unfold Obligations.ResetState
  rfl

/-- A flag alone at bit i of a word. -/
def flag (b : Bool) (i : Nat) : Word := if b then BitVec.twoPow 32 i else 0

theorem and_twoPow_eq_flag (v : Word) (i : Nat) : v &&& BitVec.twoPow 32 i = flag (v.getLsbD i) i :=
  BitVec.and_twoPow v i

theorem flag_shiftLeft (b : Bool) (k : Nat) : flag b 0 <<< k = flag b k := by
  cases b <;> simp [flag, BitVec.twoPow]

theorem flag_getLsbD (b : Bool) (i j : Nat) (hi : i < 32) : (flag b i).getLsbD j = (b && decide (i = j)) := by
  cases b <;> simp [flag, hi]

/-- The sticky flags of a CTRL/STAT value, one by one (10_state.md R36). -/
theorem and_stickyMask (v : Word) :
    v &&& stickyMask = flag (v.getLsbD 7) 7 ||| flag (v.getLsbD 5) 5 ||| flag (v.getLsbD 4) 4 ||| flag (v.getLsbD 1) 1 := by
  have bits : stickyMask = BitVec.twoPow 32 7 ||| BitVec.twoPow 32 5 ||| BitVec.twoPow 32 4 ||| BitVec.twoPow 32 1 := by
    decide
  simp only [bits, BitVec.and_or_distrib_left, and_twoPow_eq_flag]

/-- The power-up acknowledges of a CTRL/STAT value, one by one (10_state.md R36). -/
theorem and_pwrupAck (v : Word) : v &&& pwrupAck = flag (v.getLsbD 31) 31 ||| flag (v.getLsbD 29) 29 := by
  have bits : pwrupAck = BitVec.twoPow 32 31 ||| BitVec.twoPow 32 29 := by decide
  simp only [bits, BitVec.and_or_distrib_left, and_twoPow_eq_flag]

/-- Settles O11, through the flags each mask keeps (10_state.md R36, R37). -/
theorem stickyAndPowerTests : Obligations.StickyAndPowerTests := by
  unfold Obligations.StickyAndPowerTests
  intro v
  have hs : sticky v = true ↔ v &&& stickyMask ≠ 0 := by simp [sticky]
  have hp : powered v = true ↔ v &&& pwrupAck = pwrupAck := by simp [powered]
  refine ⟨hs, hp, ?_, ?_⟩
  · rw [hs, and_stickyMask]
    generalize v.getLsbD 7 = wdataErr, v.getLsbD 5 = stickyErr, v.getLsbD 4 = stickyCmp, v.getLsbD 1 = stickyOrun
    revert wdataErr stickyErr stickyCmp stickyOrun
    decide
  · rw [hp, and_pwrupAck]
    generalize v.getLsbD 31 = system, v.getLsbD 29 = debugPower
    revert system debugPower
    decide

/-! ## ABORT -/

/-- One bit of a word, moved down to bit 0. -/
theorem ushiftRight_and_one (v : Word) (i : Nat) : v >>> i &&& 1 = flag (v.getLsbD i) 0 := by
  rw [show (1 : Word) = BitVec.twoPow 32 0 by decide, and_twoPow_eq_flag, BitVec.getLsbD_ushiftRight, Nat.add_zero]

/-- The clear bits of the ABORT value, one by one (10_state.md R39, R40). -/
theorem abortValue_flags (v : Word) :
    abortValue v = flag (v.getLsbD 4) 1 ||| flag (v.getLsbD 5) 2 ||| flag (v.getLsbD 7) 3 ||| flag (v.getLsbD 1) 4 := by
  unfold abortValue
  generalize v.getLsbD 7 = wdataErr, v.getLsbD 5 = stickyErr, v.getLsbD 4 = stickyCmp, v.getLsbD 1 = stickyOrun
  revert wdataErr stickyErr stickyCmp stickyOrun
  decide

/-- The ABORT value by the rule's formula (10_state.md R40). -/
theorem abortValue_eq (v : Word) :
    abortValue v =
      (v >>> 4 &&& 1) <<< 1 ||| (v >>> 5 &&& 1) <<< 2 ||| (v >>> 7 &&& 1) <<< 3 ||| (v >>> 1 &&& 1) <<< 4 := by
  simp only [abortValue_flags, ushiftRight_and_one, flag_shiftLeft]

/-- The flags an ABORT write of v clears (10_state.md R39). -/
def abortCleared (v : Word) : Word :=
  flag (v.getLsbD 3) 7 ||| flag (v.getLsbD 2) 5 ||| flag (v.getLsbD 1) 4 ||| flag (v.getLsbD 4) 1

/-- Clearing a flag where a clear bit asks for it. -/
theorem clear_eq_and_not_flag (b : Bool) (i : Nat) (w : Word) :
    (if b then w &&& ~~~(1#32 <<< i) else w) = w &&& ~~~flag b i := by
  cases b with
  | false =>
    have none_cleared : w &&& ~~~0#32 = w := by rw [BitVec.not_zero, BitVec.and_allOnes]
    exact none_cleared.symm
  | true => rfl

/-- An ABORT write clears the flags its clear bits name, and no other bit (10_state.md R39). -/
theorem targetAbort_eq (v cs : Word) : targetAbort v cs = cs &&& ~~~abortCleared v := by
  simp only [targetAbort, abortCleared, clear_eq_and_not_flag, BitVec.not_or]
  ac_rfl

/-- Settles O13: both ABORT values clear what their clear bits name. -/
theorem abortClearsWhatWasSeen : Obligations.AbortClearsWhatWasSeen := by
  unfold Obligations.AbortClearsWhatWasSeen
  intro v cs
  have seen : abortCleared (abortValue v) = v &&& stickyMask := by
    simp [abortCleared, abortValue_flags, flag_getLsbD, and_stickyMask, -BitVec.getLsbD_eq_getElem]
  have all : abortCleared abortAllClear = stickyMask := by decide
  exact ⟨abortValue_eq v, rfl, by rw [targetAbort_eq, seen]; rfl, by rw [targetAbort_eq, all]; rfl⟩

end Sys2Proof.Machine
end

section
/-! Proofs of the memory statements (20_memory.md): the SELECT value of an AP access, and a FAULT on the RDBUFF read that
ends one over SWD. -/

namespace Sys2Proof.Machine

/-! ## The SELECT value of an AP access -/

/-- The SELECT value by the rule's formula (20_memory.md R61). -/
theorem requiredSelect_eq (ap addr : Addr) :
    requiredSelect ap addr = ap.setWidth 32 <<< 24 ||| (addr.extractLsb' 4 4).setWidth 32 <<< 4 := by
  rw [← BitVec.setWidth_eq (requiredSelect ap addr), requiredSelect,
    BitVec.setWidth_append_append_append_eq_shiftLeft_setWidth_or]
  simp

/-- The bank of an AP register address, A[3:2] and two zeros are the address again, where it is aligned (20_memory.md R60,
R63). -/
theorem selectAddr_required {ap addr : Addr} (h : addr.extractLsb' 0 2 = 0) :
    selectAddr (requiredSelect ap addr) (regA addr) = addr := by
  calc selectAddr (requiredSelect ap addr) (regA addr)
      = addr.extractLsb' 4 4 ++ addr.extractLsb' 2 2 ++ addr.extractLsb' 0 2 := by
        rw [selectAddr, requiredSelect_bank, regA, h]; rfl
    _ = addr.extractLsb' 2 6 ++ addr.extractLsb' 0 2 := by
        rw [BitVec.extractLsb'_append_extractLsb'_eq_extractLsb' (by decide)]
    _ = addr := by
        rw [BitVec.extractLsb'_append_extractLsb'_eq_extractLsb' (by decide), BitVec.extractLsb'_eq_self]

/-- Settles O12: the formula, and the fields that lead back. -/
theorem requiredSelectValue : Obligations.RequiredSelectValue := by
  unfold Obligations.RequiredSelectValue
  intro ap addr
  exact ⟨requiredSelect_eq ap addr, rfl, selectAp_required ap addr, requiredSelect_bank ap addr,
    selectAp_required ap addr, selectAddr_required⟩

/-! ## AP accesses that run at once -/

/-- EnsureSelect makes no write where the SELECT it needs is held (42_dpap_commands.md R205). -/
theorem ensureSelect_held {ap addr : Addr} {s : State} (h : s.st.selectCache = some (requiredSelect ap addr)) :
    ensureSelect ap addr s = .ok () s :=
  if_pos h

/-- An AP host command with its SELECT held is its access in the selected bank (42_dpap_commands.md R216, R217). -/
theorem hostAp_ready {i : Instr} {p : Protocol} {ap addr : Addr} {access : State → Run Error (Option Word)} {s : State}
    (hc : Connected p s) (ha : ApReady ap addr s) (hr : refusalOf s.st.proto i = none) :
    (.next (runReady i true (fun s => (ensureSelect ap addr s).bind fun _ s => access s) s) :
      Host.Outcome State Fault Refusal) = .next (finish (.instr i) (ctxOf s.st.selectCache i) (access s)) := by
  rw [runReady_live hc.link hc.clear hr fun _ => ha.powered, ensureSelect_held ha.select, Run.bind_ok]

/-- An AP link request with SELECT held is its access too (log 5, log 7). -/
theorem runLinkAp_ready {i : Instr} {p : Protocol} {ap addr : Addr} {a : BitVec 2}
    {access : State → Run Error (Option Word)} {s : State} (hc : Connected p s) (ha : ApReady ap addr s)
    (hr : refusalOf s.st.proto i = none) :
    runLinkAp i p a access s = .next (finish (.instr i) (ctxOf s.st.selectCache i) (access s)) := by
  rw [runLinkAp_own hc.proto (selectHeld_required a ha.select),
    runReady_live hc.link hc.clear hr fun _ => ha.powered]

/-- The refusal table lets an aligned AP address through (42_dpap_commands.md R219 row 5). -/
theorem apAddrWF_of_aligned {addr : Addr} (h : addr.extractLsb' 0 2 = 0) : apAddrWF addr = true := by
  rw [apAddrWF, h]
  rfl

/-- Every AP read of the host and of the SWD format is the read in the selected bank. -/
theorem exec_swdApRead {i : Instr} {ap addr : Addr} {s : State} (haddr : addr.extractLsb' 0 2 = 0)
    (hc : Connected .swd s) (ha : ApReady ap addr s)
    (hi : (i, regA addr) ∈ [(Instr.apR0, 0), (.apR1, 1), (.apR2, 2), (.apR3, 3), (.readAp ap addr, regA addr)]) :
    exec i s = .next (finish (.instr i) (ctxOf s.st.selectCache i) (apReadReg (regA addr) s)) := by
  simp only [List.mem_cons, List.not_mem_nil, or_false, Prod.mk.injEq] at hi
  rcases hi with ⟨rfl, e⟩ | ⟨rfl, e⟩ | ⟨rfl, e⟩ | ⟨rfl, e⟩ | ⟨rfl, -⟩
  case inr.inr.inr.inr => exact hostAp_ready hc ha (if_pos (apAddrWF_of_aligned haddr))
  all_goals
    rw [e]
    exact runLinkAp_ready hc ha rfl

/-- Every AP write of the host and of the SWD format is the write in the selected bank. -/
theorem exec_swdApWrite {i : Instr} {ap addr : Addr} {val : Word} {s : State} (haddr : addr.extractLsb' 0 2 = 0)
    (hc : Connected .swd s) (ha : ApReady ap addr s)
    (hi : (i, regA addr) ∈ [(Instr.apW0 val, 0), (.apW1 val, 1), (.apW2 val, 2), (.apW3 val, 3),
      (.writeAp ap addr val, regA addr)]) :
    exec i s = .next (finish (.instr i) (ctxOf s.st.selectCache i) (apWriteReg (regA addr) val s)) := by
  simp only [List.mem_cons, List.not_mem_nil, or_false, Prod.mk.injEq] at hi
  rcases hi with ⟨rfl, e⟩ | ⟨rfl, e⟩ | ⟨rfl, e⟩ | ⟨rfl, e⟩ | ⟨rfl, -⟩
  case inr.inr.inr.inr => exact hostAp_ready hc ha (if_pos (apAddrWF_of_aligned haddr))
  all_goals
    rw [e]
    exact runLinkAp_ready hc ha rfl

/-! ## A FAULT on the RDBUFF read -/

/-- An AP access over SWD, the RDBUFF read that ends it answered FAULT, and the SCS that read starts, all OK. -/
abbrev rdbuffFaultX (p : Params) (access : Exchange) (v : Word) (f u w : SwdTry) : Exchange :=
  (access.andThen (swdFaultX p false true 3 f)).andThen (swdScsX p v u w)

section

variable {s : State} {v : Word} {f u w : SwdTry} (hp : s.st.proto = some .swd) (hf : f.fits s.params)
  (hu : u.fits s.params) (hw : w.fits s.params)

include hp hf hu hw

/-- An SWD transaction answered FAULT runs the SCS, which ends the command (60_exceptions.md R262, R264). -/
theorem check_swdXfer_fault {apndp rnw : Bool} {a : BitVec 2} {d : Word}
    (h : s.meets ((swdFaultX s.params apndp rnw a f).andThen (swdScsX s.params v u w))) :
    check (swdXfer apndp rnw a d s) = .stop (.accessFault .ackFault (some v) false)
      ((s.after ((swdFaultX s.params apndp rnw a f).andThen (swdScsX s.params v u w))).withBlock (s.st.cleared v)) := by
  obtain ⟨hfault, hscs⟩ := meets_andThen.mp h
  rw [swdXfer_fault rfl hf hfault, check_fault,
    scs_fault_swd (by simpa using hp) (by simpa using hu) (by simpa using hw) (by simpa using hscs)]
  simp

/-- Whatever transaction was answered OK before it, an RDBUFF read answered FAULT ends the access in its SCS
(20_memory.md R66, R67, 60_exceptions.md R264). -/
theorem bind_rdbuff_fault {r : Run LinkFail Word} {access : Exchange} {d : Word} {result : Word → Option Word}
    (haccess : s.meets access → r = .ok d (s.after access)) (h : s.meets (rdbuffFaultX s.params access v f u w)) :
    ((check r).bind fun _ t => (check (swdXfer false true aRdbuff 0 t)).bind fun d t => .ok (result d) t) =
      .stop (.accessFault .ackFault (some v) false)
        ((s.after (rdbuffFaultX s.params access v f u w)).withBlock (s.st.cleared v)) := by
  rw [rdbuffFaultX, andThen_assoc] at h
  obtain ⟨hok, hrdbuff⟩ := meets_andThen.mp h
  rw [haccess hok, check_ok, Run.bind_ok, aRdbuff,
    check_swdXfer_fault (by simpa using hp) (by simpa using hf) (by simpa using hu) (by simpa using hw)
      (by simpa using hrdbuff), Run.bind_stop]
  simp [andThen_assoc]

/-- The posted read of an AP answered OK and its RDBUFF read FAULT (42_dpap_commands.md R216). -/
theorem apReadReg_rdbuff_fault {a : BitVec 2} {old : Word} {t : SwdTry} (ht : t.fits s.params)
    (h : s.meets (rdbuffFaultX s.params (swdReadOkX s.params true a old t) v f u w)) :
    apReadReg a s = .stop (.accessFault .ackFault (some v) false)
      ((s.after (rdbuffFaultX s.params (swdReadOkX s.params true a old t) v f u w)).withBlock (s.st.cleared v)) := by
  rw [apReadReg, if_pos hp]
  exact bind_rdbuff_fault hp hf hu hw (swdXfer_readOk rfl ht) h

/-- A write of an AP answered OK and its RDBUFF flush FAULT (42_dpap_commands.md R217). -/
theorem apWriteReg_rdbuff_fault {a : BitVec 2} {val : Word} {t : SwdTry} (ht : t.fits s.params)
    (h : s.meets (rdbuffFaultX s.params (swdWriteOkX s.params true a val t) v f u w)) :
    apWriteReg a val s = .stop (.accessFault .ackFault (some v) false)
      ((s.after (rdbuffFaultX s.params (swdWriteOkX s.params true a val t) v f u w)).withBlock (s.st.cleared v)) := by
  rw [apWriteReg, if_pos hp]
  exact bind_rdbuff_fault hp hf hu hw (swdXfer_writeOk rfl ht) h

end

/-- Settles O52: the access in the selected bank stops in the SCS of its RDBUFF read, and the command fails with it. -/
theorem swdApAccessFaultsOnRdbuff : Obligations.SwdApAccessFaultsOnRdbuff := by
  unfold Obligations.SwdApAccessFaultsOnRdbuff
  intro ap addr s i val old v t f u w haddr hc ht hf hu hw ha
  refine ⟨fun hi hm => ?_, fun hi hm => ?_⟩
  · rw [exec_swdApRead haddr hc ha hi, apReadReg_rdbuff_fault hc.proto hf hu hw ht hm, finish_stop]
  · rw [exec_swdApWrite haddr hc ha hi, apWriteReg_rdbuff_fault hc.proto hf hu hw ht hm, finish_stop]

end Sys2Proof.Machine
end

section
/-! Proofs of the encoding statements (30_encoding.md): the words and what they decode to, what no instruction puts on the
wire, the reserved opcodes, and an undecodable acknowledge of a command's first transaction. -/

namespace Sys2Proof.Machine

/-- A word is its high and its low bits. -/
theorem exists_append {n m : Nat} (w : BitVec (n + m)) : ∃ (x : BitVec n) (y : BitVec m), w = x ++ y :=
  ⟨w.extractLsb' m n, w.extractLsb' 0 m, by
    rw [BitVec.extractLsb'_append_extractLsb'_eq_extractLsb' (Nat.zero_add m).symm, BitVec.extractLsb'_eq_self]⟩

theorem eq_ofBool (p : BitVec 1) : p = BitVec.ofBool (p.getLsbD 0) := by
  revert p
  decide

/-! ## The data phase (30_encoding.md R85) -/

/-- An exclusive-or over a list is the parity of the number of its true values. -/
theorem toNat_foldl_xor {α : Type} (f : α → Bool) (l : List α) :
    ∀ b : Bool, (l.foldl (fun p i => p ^^ f i) b).toNat = (b.toNat + l.countP f) % 2 := by
  induction l with
  | nil => intro b; cases b <;> rfl
  | cons x l ih =>
    intro b
    rw [List.foldl_cons, ih, List.countP_cons]
    cases b <;> cases f x <;> simp <;> omega

theorem parity_toNat {n : Nat} (v : BitVec n) :
    (parity v).toNat = ((List.range n).countP fun i => v.getLsbD i) % 2 := by
  rw [parity, toNat_foldl_xor, Bool.toNat_false, Nat.zero_add]

/-- Bit 32 of the data phase is the parity of the data. -/
theorem swdData_parity (d : Word) : (swdData d).getLsbD 32 = parity d := by
  rw [swdData, BitVec.getLsbD_append]
  simp

/-- The words that pass the parity test are the data phases (40_swd_link.md R124). -/
theorem swdDataOk_iff {w : BitVec 33} : swdDataOk w = true ↔ w = swdData (w.extractLsb' 0 32) := by
  constructor
  · intro h
    obtain ⟨p, d, rfl⟩ := exists_append (n := 1) (m := 32) w
    rw [swdDataOk, BitVec.getLsbD_append, BitVec.extractLsb'_append_eq_right, beq_iff_eq] at h
    rw [BitVec.extractLsb'_append_eq_right, swdData, ← h]
    exact congrArg (· ++ d) (eq_ofBool p)
  · intro h
    rw [h]
    exact swdData_ok _

/-- Settles O6: the parity of the model counts ones, and the test compares it with bit 32. -/
theorem dataPhaseParity : Obligations.DataPhaseParity := by
  unfold Obligations.DataPhaseParity
  exact ⟨fun d => ⟨swdData_low d, by rw [swdData_parity, parity_toNat]⟩, fun w => swdDataOk_iff⟩

/-- Settles O5, over all sixteen requests. -/
theorem requestPacketBits : Obligations.RequestPacketBits := by
  unfold Obligations.RequestPacketBits
  decide

/-! ## SWD words (30_encoding.md R81 to R86) -/

/-- The decoder of an SWD word, of the data phase x and the request r side by side (log 11). -/
theorem decodeSwd_append (x : BitVec 33) (r : BitVec 8) :
    decodeSwd (x ++ r) =
      if !(r.getLsbD 0 && !r.getLsbD 6 && r.getLsbD 7) then .error .swdFraming
      else if r.getLsbD 5 !=
          (r.getLsbD 1 ^^ r.getLsbD 2 ^^ (r.extractLsb' 3 2).getLsbD 0 ^^ (r.extractLsb' 3 2).getLsbD 1) then
        .error .swdRequestParity
      else if r.getLsbD 2 then
        if x = 0 then .ok (swdReadRow (r.getLsbD 1) (r.extractLsb' 3 2)) else .error .swdReadDrivesData
      else if !swdDataOk x then .error .swdDataParity
      else .ok (swdWriteRow (r.getLsbD 1) (r.extractLsb' 3 2) (x.extractLsb' 0 32)) := by
  have low {i : Nat} (hi : i < 8) : (x ++ r).getLsbD i = r.getLsbD i := by rw [BitVec.getLsbD_append, if_pos hi]
  have high : (x ++ r).getLsbD 40 = x.getLsbD 32 := by rw [BitVec.getLsbD_append]; rfl
  have a : (x ++ r).extractLsb' 3 2 = r.extractLsb' 3 2 := BitVec.extractLsb'_append_eq_of_add_le (by decide)
  have phase : (x ++ r).extractLsb' 8 33 = x := BitVec.extractLsb'_append_eq_left
  have data : (x ++ r).extractLsb' 8 32 = x.extractLsb' 0 32 := BitVec.extractLsb'_append_eq_of_le (by decide)
  simp only [decodeSwd, swdDataOk, low (i := 0) (by decide), low (i := 1) (by decide), low (i := 2) (by decide),
    low (i := 5) (by decide), low (i := 6) (by decide), low (i := 7) (by decide), high, a, phase, data]
  rfl

/-- The fields of a request (30_encoding.md R81). -/
theorem swdRequest_fields : ∀ (apndp rnw : Bool) (a : BitVec 2),
    let r := swdRequest apndp rnw a
    r.getLsbD 0 = true ∧ r.getLsbD 1 = apndp ∧ r.getLsbD 2 = rnw ∧ r.extractLsb' 3 2 = a ∧
      r.getLsbD 5 = (apndp ^^ rnw ^^ a.getLsbD 0 ^^ a.getLsbD 1) ∧ r.getLsbD 6 = false ∧ r.getLsbD 7 = true := by
  decide

/-- A byte with the framing and the parity of a request is one (30_encoding.md R81, R82). -/
theorem eq_swdRequest : ∀ r : BitVec 8, (r.getLsbD 0 && !r.getLsbD 6 && r.getLsbD 7) = true →
    r.getLsbD 5 = (r.getLsbD 1 ^^ r.getLsbD 2 ^^ (r.extractLsb' 3 2).getLsbD 0 ^^ (r.extractLsb' 3 2).getLsbD 1) →
      r = swdRequest (r.getLsbD 1) (r.getLsbD 2) (r.extractLsb' 3 2) := by
  decide

theorem decodeSwd_read (x : BitVec 33) (apndp : Bool) (a : BitVec 2) :
    decodeSwd (x ++ swdRequest apndp true a) =
      if x = 0 then .ok (swdReadRow apndp a) else .error .swdReadDrivesData := by
  obtain ⟨start, isAp, isRead, addr, parityBit, stop, park⟩ := swdRequest_fields apndp true a
  simp [-BitVec.getLsbD_eq_getElem, decodeSwd_append, start, isAp, isRead, addr, parityBit, stop, park]

theorem decodeSwd_write (x : BitVec 33) (apndp : Bool) (a : BitVec 2) :
    decodeSwd (x ++ swdRequest apndp false a) =
      if swdDataOk x then .ok (swdWriteRow apndp a (x.extractLsb' 0 32)) else .error .swdDataParity := by
  obtain ⟨start, isAp, isRead, addr, parityBit, stop, park⟩ := swdRequest_fields apndp false a
  cases h : swdDataOk x <;>
    simp [-BitVec.getLsbD_eq_getElem, decodeSwd_append, start, isAp, isRead, addr, parityBit, stop, park, h]

/-- What is not framed as a request does not decode. -/
theorem exists_swdRequest {x : BitVec 33} {r : BitVec 8} {i : Instr} (h : decodeSwd (x ++ r) = .ok i) :
    ∃ apndp rnw a, r = swdRequest apndp rnw a := by
  rw [decodeSwd_append] at h
  split_ifs at h with framing parityBit
  all_goals exact ⟨_, _, _, eq_swdRequest r (by simpa using framing) (by simpa using parityBit)⟩

/-- The rows of the requests encode to their words (30_encoding.md R83). -/
theorem encode_swdReadRow (apndp : Bool) (a : BitVec 2) : encode (swdReadRow apndp a) = swdReadWord apndp a := by
  revert apndp a
  decide

theorem encode_swdWriteRow (apndp : Bool) (a : BitVec 2) (d : Word) :
    encode (swdWriteRow apndp a d) = swdWriteWord apndp a d := by
  obtain h | h | h | h : a = 0 ∨ a = 1 ∨ a = 2 ∨ a = 3 := by revert a; decide
  all_goals
    subst h
    cases apndp <;> rfl

theorem decode_swdReadWord (apndp : Bool) (a : BitVec 2) : decode (swdReadWord apndp a) = .ok (swdReadRow apndp a) := by
  rw [swdReadWord, decode, decodeSwd_read]
  rfl

theorem decode_swdWriteWord (apndp : Bool) (a : BitVec 2) (d : Word) :
    decode (swdWriteWord apndp a d) = .ok (swdWriteRow apndp a d) := by
  rw [swdWriteWord, decode, decodeSwd_write, if_pos (swdData_ok d), swdData_low]

/-- An SWD word that decodes is the word of its row. -/
theorem encode_decodeSwd {w : BitVec 41} {i : Instr} (h : decodeSwd w = .ok i) : encode i = .swd w := by
  obtain ⟨x, r, rfl⟩ := exists_append (n := 33) (m := 8) w
  obtain ⟨apndp, rnw, a, rfl⟩ := exists_swdRequest h
  cases rnw with
  | true =>
    rw [decodeSwd_read] at h
    split_ifs at h with zeros
    injection h with h
    rw [← h, encode_swdReadRow, swdReadWord, zeros]
    rfl
  | false =>
    rw [decodeSwd_write] at h
    split_ifs at h with ok
    injection h with h
    rw [← h, encode_swdWriteRow, swdWriteWord, ← swdDataOk_iff.mp ok]

/-! ## JTAG words (30_encoding.md R87 to R92) -/

/-- A JTAG instruction code that decodes is the code of its row. -/
theorem encode_decodeIr {w : BitVec 4} {i : Instr} (h : decodeIr w = .ok i) : encode i = .ir w := by
  unfold decodeIr at h
  split_ifs at h with abort dpacc apacc idcode bypass
  all_goals
    injection h with h
    subst h
    simp only [encode, *]

/-- Every 35-bit value is the shift-in of its fields (30_encoding.md R89). -/
theorem exists_xpaccIn (w : BitVec 35) : ∃ rnw a data, w = xpaccIn rnw a data := by
  obtain ⟨high, low, rfl⟩ := exists_append (n := 34) (m := 1) w
  obtain ⟨data, a, rfl⟩ := exists_append (n := 32) (m := 2) high
  exact ⟨low.getLsbD 0, a, data, by rw [xpaccIn, ← eq_ofBool low]⟩

theorem xpaccIn_rnw (rnw : Bool) (a : BitVec 2) (data : Word) : (xpaccIn rnw a data).getLsbD 0 = rnw := by
  rw [xpaccIn, BitVec.getLsbD_append]
  simp

theorem xpaccIn_a (rnw : Bool) (a : BitVec 2) (data : Word) : (xpaccIn rnw a data).extractLsb' 1 2 = a := by
  rw [xpaccIn, BitVec.extractLsb'_append_eq_of_le (by decide)]
  exact BitVec.extractLsb'_append_eq_right

theorem xpaccIn_data (rnw : Bool) (a : BitVec 2) (data : Word) : (xpaccIn rnw a data).extractLsb' 3 32 = data := by
  rw [xpaccIn, BitVec.extractLsb'_append_eq_of_le (by decide)]
  exact BitVec.extractLsb'_append_eq_left

/-- The decoders of the two access registers, by the fields of the shift-in. -/
theorem decodeDpacc_xpaccIn (rnw : Bool) (a : BitVec 2) (data : Word) :
    decodeDpacc (xpaccIn rnw a data) =
      if rnw then if data = 0 then .ok (.dpaccR a) else .error .jtagReadDrivesData
      else if a = aCtrlStat then .ok (.dpaccW .ctrlStat data)
      else if a = aSelect then .ok (.dpaccW .select data)
      else .error (.dpaccWriteAddress a) := by
  simp only [decodeDpacc, xpaccIn_rnw, xpaccIn_a, xpaccIn_data]

theorem decodeApacc_xpaccIn (rnw : Bool) (a : BitVec 2) (data : Word) :
    decodeApacc (xpaccIn rnw a data) =
      if rnw then if data = 0 then .ok (.apaccR a) else .error .jtagReadDrivesData
      else .ok (.apaccW a data) := by
  simp only [decodeApacc, xpaccIn_rnw, xpaccIn_a, xpaccIn_data]

theorem encode_decodeDpacc {w : BitVec 35} {i : Instr} (h : decodeDpacc w = .ok i) :
    encode i = .dr35 irCodeDpacc w := by
  obtain ⟨rnw, a, data, rfl⟩ := exists_xpaccIn w
  rw [decodeDpacc_xpaccIn] at h
  split_ifs at h with read zero ctrlStat select
  all_goals
    injection h with h
    subst h
    simp_all only [encode, DpaccReg.a]

theorem encode_decodeApacc {w : BitVec 35} {i : Instr} (h : decodeApacc w = .ok i) :
    encode i = .dr35 irCodeApacc w := by
  obtain ⟨rnw, a, data, rfl⟩ := exists_xpaccIn w
  rw [decodeApacc_xpaccIn] at h
  split_ifs at h with read zero
  all_goals
    injection h with h
    subst h
    simp_all only [encode]

theorem encode_decodeDr35 {ir : BitVec 4} {w : BitVec 35} {i : Instr} (h : decodeDr35 ir w = .ok i) :
    encode i = .dr35 ir w := by
  unfold decodeDr35 at h
  split_ifs at h with dpacc apacc abort low
  · exact dpacc ▸ encode_decodeDpacc h
  · exact apacc ▸ encode_decodeApacc h
  · injection h with h
    obtain ⟨v, zeros, rfl⟩ := exists_append (n := 32) (m := 3) w
    rw [BitVec.extractLsb'_append_eq_right] at low
    rw [← h, encode, BitVec.extractLsb'_append_eq_left, abortIn, abort, low]
    rfl

theorem encode_decodeDr32 {ir : BitVec 4} {w : BitVec 32} {i : Instr} (h : decodeDr32 ir w = .ok i) :
    encode i = .dr32 ir w := by
  unfold decodeDr32 at h
  split_ifs at h with idcode zero
  injection h with h
  rw [← h, encode, idcode, zero]

/-- Settles O3, by the format of the word. -/
theorem linkWordsEncodeBack : Obligations.LinkWordsEncodeBack := by
  unfold Obligations.LinkWordsEncodeBack
  intro w i link h
  cases w with
  | host w => exact absurd rfl (link w)
  | swd w => exact encode_decodeSwd h
  | ir w => exact encode_decodeIr h
  | dr35 ir w => exact encode_decodeDr35 h
  | dr32 ir w => exact encode_decodeDr32 h

/-! ## Command words (30_encoding.md R100 to R102) -/

/-- A command word with its reserved bits. -/
def commandWord (r₁ : BitVec 2) (r₂ : BitVec 8) (op : BitVec 4) (proto : BitVec 2) (ap addr : Addr) (data hz : Word) :
    BitVec 96 :=
  hz ++ data ++ r₂ ++ addr ++ ap ++ r₁ ++ proto ++ op

/-- The instruction that the fields of a command word stand for. -/
def commandRow (op : BitVec 4) (proto : BitVec 2) (ap addr : Addr) (data hz : Word) : Except DecodeError Instr :=
  match op.toNat with
  | 0 => if proto = 0 then .ok .connectSwd else if proto = 1 then .ok .connectJtag else .error (.badProtocol proto)
  | 1 => .ok (.setClock hz)
  | 2 => .ok (.readDp addr)
  | 3 => .ok (.writeDp addr data)
  | 4 => .ok (.readAp ap addr)
  | 5 => .ok (.writeAp ap addr data)
  | 6 => .ok .powerUp
  | 7 => .ok .reservedOp7
  | 8 => .ok .reservedOp8
  | 9 => .ok .reservedOp9
  | 10 => .ok .reservedOp10
  | 11 => .ok .reservedOp11
  | 12 => .ok .reservedOp12
  | 13 => .ok .reservedOp13
  | 14 => .ok .reservedOp14
  | _ => .ok .reservedOp15

theorem decodeHost_eq (w : BitVec 96) :
    decodeHost w = commandRow (w.extractLsb' 0 4) (w.extractLsb' 4 2) (w.extractLsb' 8 8) (w.extractLsb' 16 8)
      (w.extractLsb' 32 32) (w.extractLsb' 64 32) := rfl

/-- The fields of a command word (30_encoding.md R100). -/
theorem commandWord_fields (r₁ : BitVec 2) (r₂ : BitVec 8) (op : BitVec 4) (proto : BitVec 2) (ap addr : Addr)
    (data hz : Word) :
    let w := commandWord r₁ r₂ op proto ap addr data hz
    w.extractLsb' 0 4 = op ∧ w.extractLsb' 4 2 = proto ∧ w.extractLsb' 8 8 = ap ∧ w.extractLsb' 16 8 = addr ∧
      w.extractLsb' 32 32 = data ∧ w.extractLsb' 64 32 = hz := by
  refine ⟨BitVec.extractLsb'_append_eq_right, ?_, ?_, ?_, ?_, ?_⟩
  all_goals
    rw [commandWord]
    repeat rw [BitVec.extractLsb'_append_eq_of_le (by decide)]
  case refine_5 => exact BitVec.extractLsb'_eq_self
  all_goals exact BitVec.extractLsb'_append_eq_right

/-- A command word is read by its fields alone. -/
theorem decode_commandWord (r₁ : BitVec 2) (r₂ : BitVec 8) (op : BitVec 4) (proto : BitVec 2) (ap addr : Addr)
    (data hz : Word) :
    decode (.host (commandWord r₁ r₂ op proto ap addr data hz)) = commandRow op proto ap addr data hz := by
  obtain ⟨isOp, isProto, isAp, isAddr, isData, isHz⟩ := commandWord_fields r₁ r₂ op proto ap addr data hz
  rw [decode, decodeHost_eq, isOp, isProto, isAp, isAddr, isData, isHz]

/-- The command word of an instruction has its reserved bits 0. -/
theorem decode_hostWord (op : BitVec 4) (proto : BitVec 2) (ap addr : Addr) (data hz : Word) :
    decode (.host (hostWord op proto ap addr data hz)) = commandRow op proto ap addr data hz :=
  decode_commandWord 0 0 op proto ap addr data hz

/-- Settles O4, opcode by opcode. -/
theorem hostWordFields : Obligations.HostWordFields := by
  unfold Obligations.HostWordFields
  intro hz data r₂ addr ap r₁ proto word
  have row (op : BitVec 4) : decode (word op) = commandRow op proto ap addr data hz :=
    decode_commandWord r₁ r₂ op proto ap addr data hz
  exact ⟨row 0, row 1, row 2, row 3, row 4, row 5, row 6, row 7, row 8, row 9, row 10, row 11, row 12, row 13, row 14,
    row 15⟩

/-! ## The round trip -/

/-- An ABORT scan decodes to the write of its word (30_encoding.md R91). -/
theorem decode_abortIn (v : Word) : decode (.dr35 irCodeAbort (abortIn v)) = .ok (.abortW v) := by
  have low : (abortIn v).extractLsb' 0 3 = 0 := BitVec.extractLsb'_append_eq_right
  have data : (abortIn v).extractLsb' 3 32 = v := BitVec.extractLsb'_append_eq_left
  rw [decode, decodeDr35, if_neg (by decide), if_neg (by decide), if_pos rfl, if_pos low, data]

/-- Settles O2, by the format of the instruction's word. -/
theorem decodeEncodeRoundTrip : Obligations.DecodeEncodeRoundTrip := by
  unfold Obligations.DecodeEncodeRoundTrip
  intro i
  cases i
  case dpR0 | dpR4 | dpR8 | dpRC | apR0 | apR1 | apR2 | apR3 => exact decode_swdReadWord _ _
  case dpW0 v | dpW4 v | dpW8 v | dpWC v | apW0 v | apW1 v | apW2 v | apW3 v => exact decode_swdWriteWord _ _ v
  case irAbort | irDpacc | irApacc | irIdcode | irBypass => rfl
  case dpaccR a => exact decodeDpacc_xpaccIn true a 0
  case dpaccW reg v =>
    cases reg with
    | ctrlStat => exact decodeDpacc_xpaccIn false aCtrlStat v
    | select => exact decodeDpacc_xpaccIn false aSelect v
  case apaccR a => exact decodeApacc_xpaccIn true a 0
  case apaccW a v => exact decodeApacc_xpaccIn false a v
  case abortW v => exact decode_abortIn v
  case idcodeR => rfl
  case connectSwd | connectJtag | setClock | readDp | writeDp | readAp | writeAp | powerUp | reservedOp7 | reservedOp8 |
      reservedOp9 | reservedOp10 | reservedOp11 | reservedOp12 | reservedOp13 | reservedOp14 | reservedOp15 =>
    exact decode_hostWord _ _ _ _ _ _

/-- Settles O1, word by word. -/
theorem writtenWordsDecode : Obligations.WrittenWordsDecode := by
  unfold Obligations.WrittenWordsDecode
  decide

/-! ## What is never sent -/

/-- A CONNECT makes plain calls too, and no word of an AP write. -/
theorem connect_answered {i : Instr} {p : Protocol} {n : Nat} {body : State → Run Error (Option Word)} {s t : State}
    (hbody : Keeps 0 n (connectStart p s) (body s))
    (h : (.next (runEarly i body s) : Host.Outcome State Fault Refusal) = .next t) :
    Answered 0 (.instr i) n s t := by
  obtain ⟨grows, signalled, keepsInv⟩ := hbody.connect
  injection h with h
  exact h ▸ runEarly_answered grows signalled keepsInv

/-- Every instruction that answers has made plain calls, and then gives its result (30_encoding.md R83, R93, R94). -/
theorem exec_clean {i : Instr} {s t : State} (h : exec i s = .next t) :
    ∃ l r, t.trace = s.trace ++ l ++ [.result (.instr i) r] ∧ Clean (apWord i) l := by
  have clean {n : Nat} (a : Answered (apWord i) (.instr i) n s t) :
      ∃ l r, t.trace = s.trace ++ l ++ [.result (.instr i) r] ∧ Clean (apWord i) l := by
    obtain ⟨l, r, ht, hl, -⟩ := a.trace
    exact ⟨l, r, ht, hl⟩
  by_cases hs : i = .connectSwd
  · subst hs
    exact clean (connect_answered (connectSwdBody_keeps 0 s) h)
  by_cases hj : i = .connectJtag
  · subst hj
    exact clean (connect_answered (connectJtagBody_keeps 0 s) h)
  exact clean (exec_commanded hs hj h).answered

/-- A byte sent is one of the fifteen requests that may be issued, or 0 (30_encoding.md R83, R94). -/
theorem PlainObs.byte {own : Word} {v : BitVec 33} {c : CallStatus} (h : PlainObs own (.sendBits 8 v c)) :
    v ∈ [0#33, 0xA5, 0x8D, 0x95, 0xBD, 0x81, 0xA9, 0xB1, 0x87, 0xAF, 0xB7, 0x9F, 0xA3, 0x8B, 0x93, 0xBB] := by
  rcases h with ⟨-, apndp, rnw, a, rfl, issued⟩ | ⟨h33, -⟩ | rfl
  · revert apndp rnw a
    decide
  · cases h33
  · simp

/-- A field of a field. -/
theorem extractLsb'_field {w : Nat} (x : BitVec w) {start len k n : Nat} (h : k + n ≤ len) :
    (x.extractLsb' start len).extractLsb' k n = x.extractLsb' (start + k) n := by
  apply BitVec.eq_of_getLsbD_eq
  intro i hi
  simp [-BitVec.getLsbD_eq_getElem, hi, show k + i < len by omega, Nat.add_assoc]

/-- The data register bits of a 35-bit scan's TDI word (41_jtag_tap.md R167). -/
theorem drScanTdi_extract (din : BitVec 35) {k n : Nat} (h : k + n ≤ 35) :
    (din.setWidth 40 <<< 3).extractLsb' (3 + k) n = din.extractLsb' k n := by
  apply BitVec.eq_of_getLsbD_eq
  intro i hi
  have low : ¬ 3 + k + i < 3 := by omega
  have shifted : 3 + k + i - 3 = k + i := by omega
  simp [-BitVec.getLsbD_eq_getElem, low, shifted, hi, show 3 + k + i < 40 by omega, show k + i < 40 by omega]

/-- A scan that writes A[3:2] = 2 holds zeros in bits [3:0] of its data, or the word of the command's own AP write. -/
theorem ScanOk.data {own : Word} {din : BitVec 35} (h : ScanOk own din) {tdi : Wire} (e : tdi = din.setWidth 40 <<< 3)
    (hw : tdi.extractLsb' 3 3 = 0b100) :
    (tdi.extractLsb' 6 32).extractLsb' 0 4 = 0 ∨ tdi.extractLsb' 6 32 = own := by
  have data : tdi.extractLsb' 6 32 = din.extractLsb' 3 32 := e ▸ drScanTdi_extract din (k := 3) (by decide)
  rw [data, extractLsb'_field din (by decide)]
  exact h (by rw [← hw, e]; exact (drScanTdi_extract din (k := 0) (by decide)).symm)

/-- The word of an instruction's own AP write has bits [3:0] = 0, unless the instruction is an AP write that was given it. -/
theorem apWord_low (i : Instr) : (apWord i).extractLsb' 0 4 = 0 ∨
    ∃ (a : BitVec 2) (ap addr : Addr), i = .apaccW a (apWord i) ∨ i = .writeAp ap addr (apWord i) := by
  cases i
  case apaccW a v => exact .inr ⟨a, 0, 0, .inl rfl⟩
  case writeAp ap addr v => exact .inr ⟨0, ap, addr, .inr rfl⟩
  all_goals exact .inl rfl

/-- The TAP sequences a command makes are the four of 30_encoding.md R93, with the codes and words R94 lets through. -/
theorem PlainObs.sequence {i : Instr} {n : Nat} {tms tdi : Wire} {ans : Answer}
    (h : PlainObs (apWord i) (.jtagSeq n tms tdi ans)) :
    (n = 6 ∧ tms = 0x1F ∧ tdi = 0) ∨ (n = 10 ∧ tms = 0x183 ∧ tdi ∈ [0x80#40, 0xA0, 0xB0, 0xE0]) ∨
      (n = 40 ∧ tms = 0x6000000001 ∧ (tdi.extractLsb' 3 3 = 0b100 → (tdi.extractLsb' 6 32).extractLsb' 0 4 = 0 ∨
        ∃ (a : BitVec 2) (ap addr : Addr),
          i = .apaccW a (tdi.extractLsb' 6 32) ∨ i = .writeAp ap addr (tdi.extractLsb' 6 32))) ∨
      (n = 37 ∧ tms = 0xC00000001 ∧ tdi = 0) := by
  rcases h with reset | ⟨hn, ht, ir, rfl, code⟩ | ⟨hn, ht, din, e, ok⟩ | idcode
  · exact .inl reset
  · exact .inr (.inl ⟨hn, ht, by rcases code with rfl | rfl | rfl | rfl <;> decide⟩)
  · refine .inr (.inr (.inl ⟨hn, ht, fun hw => ?_⟩))
    rcases ok.data e hw with low | own
    · exact .inl low
    · rw [own]
      exact apWord_low i
  · exact .inr (.inr (.inr idcode))

/-- Settles O20: an instruction's calls are plain, and its result is none of them. -/
theorem neverProducedEncodings : Obligations.NeverProducedEncodings := by
  unfold Obligations.NeverProducedEncodings
  intro i s t h
  obtain ⟨l, r, ht, clean⟩ := exec_clean h
  have plain {o : Obs} (ho : o ∈ l ++ [.result (.instr i) r]) (hr : o ≠ .result (.instr i) r) :
      PlainObs (apWord i) o := by
    rcases List.mem_append.mp ho with ho | ho
    · exact clean.plain o ho
    · exact absurd (List.mem_singleton.mp ho) hr
  refine ⟨l ++ [.result (.instr i) r], by rw [ht, List.append_assoc], fun v c ho => ?_, fun request word hq => ?_,
    fun n tms tdi ans ho => ?_⟩
  · exact (plain ho (by simp)).byte
  · obtain ⟨request', e⟩ := dataWords_append l [.result (.instr i) r] 0
    rw [e, show dataWords request' [.result (.instr i) r] = [] from rfl, List.append_nil] at hq
    exact clean.pairs 0 _ hq
  · exact (plain ho (by simp)).sequence

/-! ## Refused commands -/

/-- A command that the table refuses answers so, and does nothing else; Disconnected is answered first
(42_dpap_commands.md R200, R219). -/
theorem runReady_refused {i : Instr} {ap : Bool} {body : State → Run Error (Option Word)} {s : State} {reason : Reason}
    (h : refusalOf s.st.proto i = some reason) :
    runReady i ap body s =
      s.failed i s.st.selectCache (if s.st.link = .disconnected then .disconnected else .refused reason) := by
  have stops : precheck (refusalOf s.st.proto i) ap s =
      some (if s.st.link = .disconnected then .disconnected else .refused reason) := by
    rw [h, precheck]
    split_ifs <;> rfl
  rw [runReady, stops]
  exact finish_stop i s.st.selectCache _ s

/-- Settles O29: the first row of the refusal table stops each of the nine. -/
theorem reservedOpcodesRefused : Obligations.ReservedOpcodesRefused := by
  unfold Obligations.ReservedOpcodesRefused
  intro i s hi
  fin_cases hi
  all_goals exact congrArg Host.Outcome.next (runReady_refused rfl)

/-! ## The first transaction of a command -/

/-- The command runs at once, and what it does first is the link operation that ends as r does; its result is checked
before anything follows (42_dpap_commands.md R200, 60_exceptions.md R262). -/
def Begins (i : Instr) (s : State) (r : Run LinkFail Word) : Prop :=
  ∃ f, exec i s = .next (finish (.instr i) (ctxOf s.st.selectCache i) ((check r).bind f))

theorem Begins.of_eq {i : Instr} {s : State} {r r' : Run LinkFail Word} (h : Begins i s r) (e : r = r') : Begins i s r' :=
  e ▸ h

/-- A command that runs as `body` begins with what the body begins with. -/
theorem Begins.of_exec {i : Instr} {s : State} {r : Run LinkFail Word} {body : Run Error (Option Word)}
    {f : Word → State → Run Error (Option Word)}
    (h : exec i s = .next (finish (.instr i) (ctxOf s.st.selectCache i) body)) (hb : body = (check r).bind f) :
    Begins i s r :=
  ⟨f, hb ▸ h⟩

/-- A first operation whose check stops ends the command. -/
theorem Begins.stop {i : Instr} {s t : State} {r : Run LinkFail Word} {e : Error} (h : Begins i s r)
    (hr : check r = .stop e t) : exec i s = .next (t.failed i s.st.selectCache e) := by
  obtain ⟨f, h⟩ := h
  rw [h, hr, Run.bind_stop, finish_stop]

/-- An undecodable acknowledge of the first transaction desynchronises the link, its event after the exchange
(60_exceptions.md R274). -/
theorem Begins.desync {i : Instr} {s : State} {r : Run LinkFail Word} {k : BitVec 3} {x : Exchange} (h : Begins i s r)
    (hr : r = .stop (.invalidAck k) (s.after x)) :
    exec i s = .next (((s.after (x.andThen pulse)).withBlock s.st.desynced).failed i s.st.selectCache (.invalidAck k)) := by
  refine h.stop ?_
  rw [hr, check_invalidAck, linkDesync_eq, after_after, after_st]

/-- READ_DP begins with its DP read (42_dpap_commands.md R210). -/
theorem begins_readDp {p : Protocol} {s : State} (hc : Connected p s) (a : BitVec 2) :
    Begins (.readDp (0#4 ++ a ++ 0#2)) s (dpRead a s) :=
  .of_exec (exec_readDp_connected hc a) rfl

/-- WRITE_DP begins with its DP write, where no row of the table refuses it (42_dpap_commands.md R212 to R214). -/
theorem begins_writeDp {p : Protocol} {s : State} (hc : Connected p s) {addr : Addr} {v : Word}
    (hr : writeDpRefusal s.st.proto addr v = none) : Begins (.writeDp addr v) s (dpWrite (regA addr) v s) := by
  obtain ⟨hwf, htarget, -⟩ := writeDpRefusal_eq_none_iff.mp hr
  have ha : regA addr ≠ aRdbuff := fun e => htarget (eq_of_regA hwf e)
  exact .of_exec (congrArg Host.Outcome.next (runReady_live hc.link hc.clear hr (by simp))) (if_neg ha)

/-- POWER_UP begins with its CTRL/STAT write (42_dpap_commands.md R218). -/
theorem begins_powerUp {p : Protocol} {s : State} (hc : Connected p s) :
    Begins .powerUp s (dpWrite aCtrlStat pwrupReq s) :=
  .of_exec (congrArg Host.Outcome.next (runReady_live hc.link hc.clear rfl (by simp))) rfl

section

variable {ap addr : Addr} {s : State} (haddr : addr.extractLsb' 0 2 = 0) (ha : ApReady ap addr s)

include haddr ha

/-- READ_AP with its SELECT held begins with the access itself (42_dpap_commands.md R216). -/
theorem begins_readAp {p : Protocol} (hc : Connected p s) :
    Begins (.readAp ap addr) s
      (if p = .swd then swdXfer true true (regA addr) 0 s else jtagApScans true (regA addr) 0 s) := by
  have runs : exec (.readAp ap addr) s = _ := hostAp_ready hc ha (if_pos (apAddrWF_of_aligned haddr))
  cases p with
  | swd => exact .of_exec runs (if_pos hc.proto)
  | jtag => exact .of_exec runs (if_neg (by simp [hc.proto]))

/-- WRITE_AP with its SELECT held begins with the access itself (42_dpap_commands.md R217). -/
theorem begins_writeAp {p : Protocol} (hc : Connected p s) (v : Word) :
    Begins (.writeAp ap addr v) s
      (if p = .swd then swdXfer true false (regA addr) v s else jtagApScans false (regA addr) v s) := by
  have runs : exec (.writeAp ap addr v) s = _ := hostAp_ready hc ha (if_pos (apAddrWF_of_aligned haddr))
  cases p with
  | swd => exact .of_exec runs (if_pos hc.proto)
  | jtag => exact .of_exec runs (if_neg (by simp [hc.proto]))

end

/-- Each host command over SWD begins with its transaction. -/
theorem firstSwd_begins {i : Instr} {apndp rnw : Bool} {a a' : BitVec 2} {ap addr : Addr} {cs sel v : Word} {s : State}
    (haddr : addr.extractLsb' 0 2 = 0) (hcs : cs.getLsbD 0 = false) (hsel : sel.extractLsb' 0 4 = 0)
    (hi : (i, apndp, rnw, a') ∈ firstSwd a ap addr cs sel v) (hc : Connected .swd s)
    (ha : apndp = true → ApReady ap addr s) : ∃ d, Begins i s (swdXfer apndp rnw a' d s) := by
  simp only [firstSwd, List.mem_cons, List.not_mem_nil, or_false, Prod.mk.injEq] at hi
  rcases hi with ⟨rfl, rfl, rfl, rfl⟩ | ⟨rfl, rfl, rfl, rfl⟩ | ⟨rfl, rfl, rfl, rfl⟩ | ⟨rfl, rfl, rfl, rfl⟩ |
    ⟨rfl, rfl, rfl, rfl⟩ | ⟨rfl, rfl, rfl, rfl⟩ | ⟨rfl, rfl, rfl, rfl⟩
  · exact ⟨0, (begins_readDp hc a').of_eq (dpRead_swd hc.proto a')⟩
  · exact ⟨v, (begins_writeDp hc rfl).of_eq (dpWrite_swd hc.proto 0 v)⟩
  · exact ⟨cs, (begins_writeDp hc (unrefused_ctrlStat fun _ => hcs)).of_eq (dpWrite_swd hc.proto 1 cs)⟩
  · exact ⟨sel, (begins_writeDp hc (unrefused_select hsel)).of_eq (dpWrite_swd hc.proto 2 sel)⟩
  · exact ⟨0, begins_readAp haddr (ha rfl) hc⟩
  · exact ⟨v, begins_writeAp haddr (ha rfl) hc v⟩
  · exact ⟨pwrupReq, (begins_powerUp hc).of_eq (dpWrite_swd hc.proto 1 pwrupReq)⟩

/-- A DP or AP transaction over JTAG whose IR code is held begins with its scan (41_jtag_tap.md R169). -/
theorem jtagReadDp_held {s : State} (h : s.st.irCache = some irCodeDpacc) (a : BitVec 2) :
    jtagReadDp a s = (jtagXpacc true a 0 s).bind fun _ t => jtagRdbuff t := by
  rw [jtagReadDp, ensureIr_held h, Run.bind_ok]

theorem jtagWriteDp_held {s : State} (h : s.st.irCache = some irCodeDpacc) (a : BitVec 2) (v : Word) :
    jtagWriteDp a v s = (jtagXpacc false a v s).bind fun _ t => (jtagRdbuff t).bind fun _ t => .ok 0 t := by
  rw [jtagWriteDp, ensureIr_held h, Run.bind_ok]

theorem jtagApScans_held {s : State} (h : s.st.irCache = some irCodeApacc) (rnw : Bool) (a : BitVec 2) (v : Word) :
    jtagApScans rnw a v s =
      (jtagXpacc rnw a v s).bind fun _ t => (ensureIr irCodeDpacc t).bind fun _ t => jtagRdbuff t := by
  rw [jtagApScans, ensureIr_held h, Run.bind_ok]

/-- Each host command over JTAG begins with its first scan, the IR code held. -/
theorem firstJtag_begins {i : Instr} {ir : BitVec 4} {rnw : Bool} {a a' : BitVec 2} {ap addr : Addr} {data sel v : Word}
    {s : State} (haddr : addr.extractLsb' 0 2 = 0) (hsel : sel.extractLsb' 0 4 = 0)
    (hi : (i, ir, rnw, a', data) ∈ firstJtag a ap addr sel v) (hc : Connected .jtag s) (hir : s.st.irCache = some ir)
    (ha : ir = 0xB → ApReady ap addr s) : ∃ g, Begins i s ((jtagXpacc rnw a' data s).bind g) := by
  have write (hd : s.st.irCache = some irCodeDpacc) {a : BitVec 2} (h0 : a ≠ 0) (w : Word) :=
    (dpWrite_jtag hc.proto h0 w).trans (jtagWriteDp_held hd a w)
  simp only [firstJtag, List.mem_cons, List.not_mem_nil, or_false, Prod.mk.injEq] at hi
  rcases hi with ⟨rfl, rfl, rfl, rfl, rfl⟩ | ⟨rfl, rfl, rfl, rfl, rfl⟩ | ⟨rfl, rfl, rfl, rfl, rfl⟩ |
    ⟨rfl, rfl, rfl, rfl, rfl⟩ | ⟨rfl, rfl, rfl, rfl, rfl⟩ | ⟨rfl, rfl, rfl, rfl, rfl⟩
  · exact ⟨_, (begins_readDp hc a').of_eq ((dpRead_jtag hc.proto a').trans (jtagReadDp_held hir a'))⟩
  · exact ⟨_, (begins_writeDp hc (unrefused_ctrlStat (by simp [hc.proto]))).of_eq (write hir (by decide) data)⟩
  · exact ⟨_, (begins_writeDp hc (unrefused_select hsel)).of_eq (write hir (by decide) data)⟩
  · exact ⟨_, (begins_readAp haddr (ha rfl) hc).of_eq (jtagApScans_held hir true (regA addr) 0)⟩
  · exact ⟨_, (begins_writeAp haddr (ha rfl) hc data).of_eq (jtagApScans_held hir false (regA addr) data)⟩
  · exact ⟨_, (begins_powerUp hc).of_eq (write hir (by decide) pwrupReq)⟩

/-- The acknowledges with no meaning on SWD (30_encoding.md R84). -/
theorem swdAck_invalid : ∀ k ∈ [0b000#3, 0b011, 0b101, 0b110, 0b111], swdAck k = .invalid k := by
  decide

/-- The acknowledges with no meaning of a JTAG-DP, FAULT among them (30_encoding.md R90). -/
theorem jtagAck_invalid : ∀ k ∈ [0b000#3, 0b011, 0b100, 0b101, 0b110, 0b111], jtagAck k = .invalid k := by
  decide

/-- Settles O57: over either link the transaction stops with the acknowledge, and the command with the transaction. -/
theorem invalidAckDesyncs : Obligations.InvalidAckDesyncs := by
  unfold Obligations.InvalidAckDesyncs
  intro s i rnw a a' ap addr cs sel v k haddr hcs hsel
  constructor
  · intro apndp t hi hc ha ht hk hm
    obtain ⟨d, begins⟩ := firstSwd_begins haddr hcs hsel hi hc ha
    exact begins.desync (swdXfer_invalid rfl ht (swdAck_invalid k hk) (meets_andThen.mp hm).1)
  · intro ir data d t hi hc hir ha ht hk hm
    obtain ⟨g, begins⟩ := firstJtag_begins haddr hsel hi hc.toConnected hir ha
    refine begins.desync ?_
    rw [jtagXpacc_invalid ht hc.tap (jtagAck_invalid k hk) (meets_andThen.mp hm).1, Run.bind_stop]

end Sys2Proof.Machine
end

section
/-! Proofs of the SWD link statements (40_swd_link.md): a read whose data has the wrong parity, and a transaction that is
answered WAIT on every attempt. -/

namespace Sys2Proof.Machine

/-! ## The first transaction of a request of the SWD format -/

section

variable {i : Instr} {s : State} {body : State → Run Error (Option Word)} {r : Run LinkFail Word}
  {f : Word → State → Run Error (Option Word)} (hc : Connected .swd s) (hr : refusalOf s.st.proto i = none)
  (hb : body s = (check r).bind f)

include hc hr hb

/-- A DP request that no row of the table refuses begins with what its body begins with (log 5). -/
theorem begins_dpRequest (he : exec i s = runLink i .swd body s) : Begins i s r :=
  .of_exec (by rw [he, runLink_own hc.proto, runReady_live hc.link hc.clear hr (by simp)]) hb

/-- An AP request does so where SELECT is held (log 5, log 7). -/
theorem begins_apRequest {ap addr : Addr} {a : BitVec 2} (ha : ApReady ap addr s)
    (he : exec i s = runLinkAp i .swd a body s) : Begins i s r :=
  .of_exec (he.trans (runLinkAp_ready hc ha hr)) hb

end

/-- Each request of the SWD format begins with its transaction, as the host commands do (`firstSwd_begins`). -/
theorem requestsSwd_begins {i : Instr} {apndp rnw : Bool} {a : BitVec 2} {ap addr : Addr} {cs sel v : Word} {s : State}
    (hcs : cs.getLsbD 0 = false) (hsel : sel.extractLsb' 0 4 = 0) (hi : (i, apndp, rnw, a) ∈ requestsSwd cs sel v)
    (hc : Connected .swd s) (ha : apndp = true → ApReady ap addr s) : ∃ d, Begins i s (swdXfer apndp rnw a d s) := by
  have read {i : Instr} {a : BitVec 2} (hr : refusalOf s.st.proto i = none)
      (he : exec i s = runLink i .swd (readDpReg a) s) : ∃ d, Begins i s (swdXfer false true a d s) :=
    ⟨0, (begins_dpRequest hc hr rfl he).of_eq (dpRead_swd hc.proto a)⟩
  have write {i : Instr} {a : BitVec 2} {w : Word} (hr : refusalOf s.st.proto i = none) (h3 : a ≠ aRdbuff)
      (he : exec i s = runLink i .swd (writeDpReg a w) s) : ∃ d, Begins i s (swdXfer false false a d s) :=
    ⟨w, (begins_dpRequest hc hr (if_neg h3) he).of_eq (dpWrite_swd hc.proto a w)⟩
  have readAp {i : Instr} {a : BitVec 2} (ready : ApReady ap addr s) (hr : refusalOf s.st.proto i = none)
      (he : exec i s = runLinkAp i .swd a (apReadReg a) s) : ∃ d, Begins i s (swdXfer true true a d s) :=
    ⟨0, begins_apRequest hc hr (if_pos hc.proto) ready he⟩
  have writeAp {i : Instr} {a : BitVec 2} {w : Word} (ready : ApReady ap addr s) (hr : refusalOf s.st.proto i = none)
      (he : exec i s = runLinkAp i .swd a (apWriteReg a w) s) : ∃ d, Begins i s (swdXfer true false a d s) :=
    ⟨w, begins_apRequest hc hr (if_pos hc.proto) ready he⟩
  simp only [requestsSwd, List.mem_cons, List.not_mem_nil, or_false, Prod.mk.injEq] at hi
  rcases hi with ⟨rfl, rfl, rfl, rfl⟩ | ⟨rfl, rfl, rfl, rfl⟩ | ⟨rfl, rfl, rfl, rfl⟩ | ⟨rfl, rfl, rfl, rfl⟩ |
    ⟨rfl, rfl, rfl, rfl⟩ | ⟨rfl, rfl, rfl, rfl⟩ | ⟨rfl, rfl, rfl, rfl⟩ | ⟨rfl, rfl, rfl, rfl⟩ | ⟨rfl, rfl, rfl, rfl⟩ |
    ⟨rfl, rfl, rfl, rfl⟩ | ⟨rfl, rfl, rfl, rfl⟩ | ⟨rfl, rfl, rfl, rfl⟩ | ⟨rfl, rfl, rfl, rfl⟩ | ⟨rfl, rfl, rfl, rfl⟩ |
    ⟨rfl, rfl, rfl, rfl⟩
  iterate 4 exact read rfl rfl
  · exact write rfl (by decide) rfl
  · exact write (unrefused_ctrlStat fun _ => hcs) (by decide) rfl
  · exact write (unrefused_select hsel) (by decide) rfl
  iterate 4 exact readAp (ha rfl) rfl rfl
  iterate 4 exact writeAp (ha rfl) rfl rfl

/-! ## A read with the wrong parity -/

/-- A data phase of 33 bits whose parity bit does not match its data (30_encoding.md R85). -/
abbrev badData (data : Word) : BitVec 33 := BitVec.ofBool (!parity data) ++ data

/-- A read over SWD with the wrong parity is not retried: it runs the SCS, which ends the command (40_swd_link.md R124,
60_exceptions.md R262, R264). -/
theorem check_swdXfer_parity {apndp : Bool} {a : BitVec 2} {d data v : Word} {t u w : SwdTry} {s : State}
    (hp : s.st.proto = some .swd) (ht : t.fits s.params) (hu : u.fits s.params) (hw : w.fits s.params)
    (h : s.meets ((swdDataX s.params apndp a (badData data) t).andThen (swdScsX s.params v u w))) :
    check (swdXfer apndp true a d s) = .stop (.accessFault .parity (some v) false)
      ((s.after ((swdDataX s.params apndp a (badData data) t).andThen (swdScsX s.params v u w))).withBlock
        (s.st.cleared v)) := by
  obtain ⟨hread, hscs⟩ := meets_andThen.mp h
  rw [swdXfer_parity rfl ht (swdData_bad data) hread, check_parity,
    scs_fault_swd (by simpa using hp) (by simpa using hu) (by simpa using hw) (by simpa using hscs)]
  simp

/-- Whatever the access that was answered OK before it, an RDBUFF read whose check stops ends the AP access
(20_memory.md R66, R67). -/
theorem bind_rdbuff_stop {r : Run LinkFail Word} {access x : Exchange} {d : Word} {result : Word → Option Word} {e : Error}
    {b : Block} {s : State} (haccess : s.meets access → r = .ok d (s.after access))
    (hrdbuff : (s.after access).meets x → check (swdXfer false true aRdbuff 0 (s.after access)) =
      .stop e (((s.after access).after x).withBlock b))
    (h : s.meets (access.andThen x)) :
    ((check r).bind fun _ t => (check (swdXfer false true aRdbuff 0 t)).bind fun d t => .ok (result d) t) =
      .stop e ((s.after (access.andThen x)).withBlock b) := by
  obtain ⟨hok, hx⟩ := meets_andThen.mp h
  rw [haccess hok, check_ok, Run.bind_ok, hrdbuff hx, Run.bind_stop, after_after]

/-- An AP access answered OK whose RDBUFF read has the wrong parity ends in the SCS of that read. -/
theorem bind_rdbuff_parity {r : Run LinkFail Word} {access : Exchange} {d data v : Word} {result : Word → Option Word}
    {f u w : SwdTry} {s : State} (hp : s.st.proto = some .swd) (hf : f.fits s.params) (hu : u.fits s.params)
    (hw : w.fits s.params) (haccess : s.meets access → r = .ok d (s.after access))
    (h : s.meets ((access.andThen (swdDataX s.params false 3 (badData data) f)).andThen (swdScsX s.params v u w))) :
    ((check r).bind fun _ t => (check (swdXfer false true aRdbuff 0 t)).bind fun d t => .ok (result d) t) =
      .stop (.accessFault .parity (some v) false)
        ((s.after ((access.andThen (swdDataX s.params false 3 (badData data) f)).andThen
          (swdScsX s.params v u w))).withBlock (s.st.cleared v)) := by
  rw [andThen_assoc] at h ⊢
  refine bind_rdbuff_stop haccess (fun hx => ?_) h
  simpa [aRdbuff] using check_swdXfer_parity (a := 3) (d := 0) (s := s.after access) (by simpa using hp)
    (by simpa using hf) (by simpa using hu) (by simpa using hw) (by simpa using hx)

/-- Settles O53: the command's first transaction, or the RDBUFF read after its access, stops in the SCS. -/
theorem swdParityErrorRunsScs : Obligations.SwdParityErrorRunsScs := by
  unfold Obligations.SwdParityErrorRunsScs
  intro s i ap addr data val old v t f u w haddr hc ht hf hu hw
  refine ⟨fun apndp a a' hi ha hm => ?_, fun ha => ⟨fun hi hm => ?_, fun hi hm => ?_⟩⟩
  · have ⟨d, begins⟩ : ∃ d, Begins i s (swdXfer apndp true a' d s) := by
      rcases List.mem_append.mp hi with hi | hi
      · exact firstSwd_begins haddr (by decide) (by decide) hi hc ha
      · exact requestsSwd_begins (by decide) (by decide) hi hc ha
    exact begins.stop (check_swdXfer_parity hc.proto ht hu hw hm)
  · rw [exec_swdApRead haddr hc ha hi, apReadReg, if_pos hc.proto,
      bind_rdbuff_parity hc.proto hf hu hw (swdXfer_readOk rfl ht) hm, finish_stop]
  · rw [exec_swdApWrite haddr hc ha hi, apWriteReg, if_pos hc.proto,
      bind_rdbuff_parity hc.proto hf hu hw (swdXfer_writeOk rfl ht) hm, finish_stop]

/-! ## WAIT to the end -/

/-- A first transaction answered WAIT to the end forgets SELECT, its event after the exchange (60_exceptions.md R271). -/
theorem Begins.timeout {i : Instr} {s : State} {r : Run LinkFail Word} {n : Nat} {x : Exchange} (h : Begins i s r)
    (hr : r = .stop (.timeout n) (s.after x)) :
    exec i s = .next (((s.after (x.andThen pulse)).withBlock { s.st with selectCache := none }).failed i s.st.selectCache
      (.timeout .wait n)) := by
  refine h.stop ?_
  rw [hr, check_timeout, waitTimeout_eq, after_after, after_st]

/-- Settles O56: over either link the transaction uses up its retries, and the command fails with it. -/
theorem waitTimeouts : Obligations.WaitTimeouts := by
  unfold Obligations.WaitTimeouts
  intro s i rnw a a' ap addr cs sel v haddr hcs hsel
  constructor
  · intro apndp js hi hc ha hlen hm
    obtain ⟨d, begins⟩ := firstSwd_begins haddr hcs hsel hi hc ha
    exact begins.timeout (swdXfer_timeout rfl hlen (meets_andThen.mp hm).1)
  · intro ir data scans hi hc hir ha hlen hm
    obtain ⟨g, begins⟩ := firstJtag_begins haddr hsel hi hc.toConnected hir ha
    refine begins.timeout ?_
    rw [jtagXpacc_timeout hlen hc.tap (meets_andThen.mp hm).1, Run.bind_stop]

end Sys2Proof.Machine
end

section
/-! Proofs of the statements about the TAP controller and the target's shift registers (41_jtag_tap.md sections 1 to 3; the
target is the reference model of log 22). -/

namespace Sys2Proof.Machine

/-! ## The controller's walks -/

/-- Five clocks with TMS 1 end in Test-Logic-Reset, wherever they start (41_jtag_tap.md R162). -/
theorem tapRun_fiveOnes (s : TapState) : tapRun s [true, true, true, true, true] = .tlr := by
  cases s <;> rfl

/-- Settles O7, over all sixteen states. -/
theorem fiveOnesReachReset : Obligations.FiveOnesReachReset := by
  unfold Obligations.FiveOnesReachReset
  exact ⟨tapRun_fiveOnes, rfl, by decide, by decide⟩

/-- TapReset ends in Run-Test/Idle whatever was known of the TAP (41_jtag_tap.md R163, R165). -/
theorem trackTap_tapReset (tap : Option TapState) : trackTap tap (tmsBits tapResetLen tapResetTms) = some .rti := by
  cases tap with
  | none => decide
  | some s => cases s <;> decide

/-- A clock moves the target's TAP as the controller's transitions have it (41_jtag_tap.md R161). -/
theorem targetClock_state (src : TargetSource) (t : TargetTap) (tms tdi : Bool) :
    (targetClock src t tms tdi).2.state = tapNext t.state tms := by
  obtain ⟨state, ir, irShift, drShift, waited, actions⟩ := t
  cases state <;> rfl

theorem targetRun_state (src : TargetSource) (clocks : List (Bool × Bool)) :
    ∀ t : TargetTap, (targetRun src t clocks).2.state = tapRun t.state (clocks.map Prod.fst) := by
  induction clocks with
  | nil => intro t; rfl
  | cons c clocks ih =>
    intro t
    rw [List.map_cons, tapRun, List.foldl_cons, ← targetClock_state src t c.1 c.2]
    exact ih _

/-- A clock that starts in Test-Logic-Reset loads the reset instruction (41_jtag_tap.md R165; log 22). -/
theorem targetRun_leaveReset (src : TargetSource) {t : TargetTap} (h : t.state = .tlr) (tdi : Bool) :
    targetRun src t [(false, tdi)] = ([none], { t with state := .rti, ir := src.resetIr }) := by
  obtain ⟨state, ir, irShift, drShift, waited, actions⟩ := t
  subst h
  rfl

theorem sequenceClocks_tapReset :
    sequenceClocks tapResetLen tapResetTms 0 = List.replicate 5 (true, false) ++ [(false, false)] := by
  decide

/-- TapReset on the target, from any of its states: Run-Test/Idle with the reset instruction (41_jtag_tap.md R165). -/
theorem targetRun_tapReset (src : TargetSource) (t : TargetTap) :
    (targetRun src t (sequenceClocks tapResetLen tapResetTms 0)).2.state = .rti ∧
      (targetRun src t (sequenceClocks tapResetLen tapResetTms 0)).2.ir = src.resetIr := by
  have reset : (targetRun src t (List.replicate 5 (true, false))).2.state = .tlr := by
    rw [targetRun_state]
    exact tapRun_fiveOnes t.state
  rw [sequenceClocks_tapReset, targetRun_append, targetRun_leaveReset src reset]
  exact ⟨rfl, rfl⟩

/-- Settles O8: the walks of the sequences, and TapReset on the target. -/
theorem sequencesEndIdle : Obligations.SequencesEndIdle := by
  unfold Obligations.SequencesEndIdle
  exact ⟨trackTap_tapReset, by decide, by decide, by decide, targetRun_tapReset⟩

/-! ## IrScan on the target -/

theorem sequenceClocks_irScan (ir : BitVec 4) :
    sequenceClocks irScanLen irScanTms (irScanTdi ir) =
      [(true, false), (true, false), (false, false), (false, false)] ++
        [(false, ir.getLsbD 0), (false, ir.getLsbD 1), (false, ir.getLsbD 2), (true, ir.getLsbD 3)] ++
        [(true, false), (false, false)] := by
  revert ir
  decide

/-- Into Shift-IR from Run-Test/Idle: the instruction register is captured (41_jtag_tap.md R164). -/
theorem targetRun_captureIr (src : TargetSource) {t : TargetTap} (h : t.state = .rti) (a b c d : Bool) :
    targetRun src t [(true, a), (true, b), (false, c), (false, d)] =
      ([none, none, none, none], { t with state := .shIR, irShift := lsbFirst src.irCapture }) := by
  obtain ⟨state, ir, irShift, drShift, waited, actions⟩ := t
  subst h
  rfl

/-- Four clocks in Shift-IR replace a register of four bits, the last of them leaving the state (41_jtag_tap.md R164). -/
theorem targetRun_shiftIr (src : TargetSource) {t : TargetTap} (h : t.state = .shIR) {w x y z : Bool}
    (hr : t.irShift = [w, x, y, z]) (a b c d : Bool) :
    targetRun src t [(false, a), (false, b), (false, c), (true, d)] =
      ([some w, some x, some y, some z], { t with state := .ex1IR, irShift := [a, b, c, d] }) := by
  obtain ⟨state, ir, irShift, drShift, waited, actions⟩ := t
  subst h hr
  rfl

/-- Out of Exit1-IR: what was shifted in becomes the instruction (41_jtag_tap.md R164). -/
theorem targetRun_updateIr (src : TargetSource) {t : TargetTap} (h : t.state = .ex1IR) (a b : Bool) :
    targetRun src t [(true, a), (false, b)] =
      ([none, none], { t with state := .rti, ir := ofLsbFirst 4 t.irShift }) := by
  obtain ⟨state, ir, irShift, drShift, waited, actions⟩ := t
  subst h
  rfl

/-- IrScan on the target changes its instruction and its instruction shift register only (41_jtag_tap.md R166). -/
theorem targetRun_irScan (src : TargetSource) {t : TargetTap} (h : t.state = .rti) (ir : BitVec 4) :
    (targetRun src t (sequenceClocks irScanLen irScanTms (irScanTdi ir))).2 =
      { t with ir := ir, irShift := lsbFirst ir } := by
  have code : ofLsbFirst 4 [ir.getLsbD 0, ir.getLsbD 1, ir.getLsbD 2, ir.getLsbD 3] = ir := ofLsbFirst_lsbFirst ir
  rw [sequenceClocks_irScan, targetRun_append, targetRun_append, targetRun_captureIr src h,
    targetRun_shiftIr src rfl rfl, targetRun_updateIr src rfl]
  simp only [code, ← h]
  rfl

/-- Settles O9, from what IrScan changes of the target. -/
theorem irScanSelectsInstruction : Obligations.IrScanSelectsInstruction := by
  unfold Obligations.IrScanSelectsInstruction
  intro src t ir h
  have run := targetRun_irScan src h ir
  exact ⟨(congrArg TargetTap.state run).trans h, congrArg TargetTap.ir run, (congrArg TargetTap.actions run :)⟩

/-! ## DrScan on the target -/

/-- What TDO carries in a scan of a data register that captured `cap`: its bits at the shift clocks, which begin with clock 3
(41_jtag_tap.md R164, R167). -/
def scanTdo (cap : List Bool) : List (Option Bool) := [none, none, none] ++ cap.map some ++ [none, none]

theorem scanTdo_getD (cap : List Bool) (i : Nat) :
    (scanTdo cap).getD i none = if 3 ≤ i then cap[i - 3]? else none := by
  match i with
  | 0 | 1 | 2 => rfl
  | k + 3 =>
    have shift : (scanTdo cap).getD (k + 3) none = (cap.map some ++ [none, none]).getD k none := rfl
    rw [shift, if_pos (by omega), Nat.add_sub_cancel, List.getD_eq_getElem?_getD]
    by_cases hk : k < cap.length
    · rw [List.getElem?_append_left (by simpa using hk), List.getElem?_map, List.getElem?_eq_getElem hk]
      rfl
    · rw [List.getElem?_append_right (by simpa using hk), List.getElem?_eq_none (l := cap) (by omega)]
      match k - (cap.map some).length with
      | 0 | 1 => rfl
      | n + 2 => rfl

theorem length_lsbFirst {n : Nat} (v : BitVec n) : (lsbFirst v).length = n := by
  simp [lsbFirst]

theorem getElem?_lsbFirst {n : Nat} (v : BitVec n) {i : Nat} (h : i < n) : (lsbFirst v)[i]? = some (v.getLsbD i) := by
  simp [lsbFirst, h]

/-- TDO is driven at the shift clocks only: as many as the register is long, from clock 3 on. -/
theorem scanTdo_isSome_iff {n : Nat} (v : BitVec n) (i : Nat) :
    ((scanTdo (lsbFirst v)).getD i none).isSome = true ↔ 3 ≤ i ∧ i < n + 3 := by
  rw [scanTdo_getD]
  split_ifs with h
  · rw [Option.isSome_iff_ne_none, ne_eq, List.getElem?_eq_none_iff, length_lsbFirst]
    omega
  · simp [h]

/-- A TDO word that agrees with the target at the shift clocks yields what the register captured (41_jtag_tap.md R167). -/
theorem drScanOut_of_agrees {n : Nat} {v : BitVec n} {tdo : Wire}
    (h : ∀ i, 3 ≤ i → i < n + 3 → (scanTdo (lsbFirst v)).getD i none = some (tdo.getLsbD i)) : drScanOut n tdo = v := by
  apply BitVec.eq_of_getLsbD_eq
  intro i hi
  have agrees := h (3 + i) (by omega) (by omega)
  rw [scanTdo_getD, if_pos (by omega), Nat.add_sub_cancel_left, getElem?_lsbFirst v hi, Option.some_inj] at agrees
  rw [drScanOut, BitVec.getLsbD_setWidth, BitVec.getLsbD_ushiftRight, agrees]
  simp [hi]

/-- `DrScan(35, din)` through a register of 35 bits: its capture comes out, and the update acts on din
(41_jtag_tap.md R167, R168). -/
theorem targetRun_dr35 (src : TargetSource) {t : TargetTap} {out : BitVec 35} (h : t.state = .rti)
    (hc : drCapture src t.ir = some (lsbFirst out)) (din : BitVec 35) :
    targetRun src t (sequenceClocks (drScanLen 35) (drScanTms 35) (drScanTdi din)) =
      (scanTdo (lsbFirst out), { t with
        drShift := lsbFirst din, waited := src.ack == 0b001,
        actions := t.actions ++ drUpdate (src.ack == 0b001) t.ir din }) := by
  have sent : (List.range 34).map din.getLsbD ++ [din.getLsbD 34] = lsbFirst din := rfl
  rw [sequenceClocks_dr35, targetRun_scan src t _ _ _ _ _ _ _ _ h hc (by simp [length_lsbFirst]), sent,
    ofLsbFirst_lsbFirst]
  rfl

/-- `DrScan(32, 0)` through a register of 32 bits (41_jtag_tap.md R167, R168). -/
theorem targetRun_dr32 (src : TargetSource) {t : TargetTap} {out : Word} (h : t.state = .rti)
    (hc : drCapture src t.ir = some (lsbFirst out)) :
    targetRun src t (sequenceClocks (drScanLen 32) (drScanTms 32) (drScanTdi (0 : BitVec 32))) =
      (scanTdo (lsbFirst out), { t with
        drShift := lsbFirst (0 : Word), waited := src.ack == 0b001,
        actions := t.actions ++ drUpdate (src.ack == 0b001) t.ir 0 }) := by
  have sent : List.replicate 31 false ++ [false] = lsbFirst (0 : Word) := by decide
  have word : ofLsbFirst 35 (lsbFirst (0 : Word)) = 0 := by decide
  rw [sequenceClocks_dr32, targetRun_scan src t _ _ _ _ _ _ _ _ h hc (by simp [length_lsbFirst]), sent, word]
  rfl

/-- DPACC and APACC capture the result and the acknowledge (30_encoding.md R90). -/
theorem drCapture_xpacc (src : TargetSource) {ir : BitVec 4} (h : ir = 0xA ∨ ir = 0xB) :
    drCapture src ir = some (lsbFirst (src.result ++ src.ack)) :=
  if_pos h

/-- The access that DPACC and APACC start, barred by an ACK of WAIT (41_jtag_tap.md R168, R171). -/
theorem drUpdate_xpacc {ir : BitVec 4} (h : ir = 0xA ∨ ir = 0xB) (waited : Bool) (rnw : Bool) (a : BitVec 2) (v : Word) :
    drUpdate waited ir (xpaccIn rnw a v) =
      if waited then [] else if ir = 0xA then [.dpAccess rnw a v] else [.apAccess rnw a v] := by
  simp only [drUpdate, xpaccIn_rnw, xpaccIn_a, xpaccIn_data]
  rcases h with rfl | rfl <;> cases waited <;> rfl

theorem drUpdate_abort (waited : Bool) (v : Word) : drUpdate waited 0x8 (abortIn v) = [.abortWrite v] := by
  have data : (abortIn v).extractLsb' 3 32 = v := BitVec.extractLsb'_append_eq_left
  simp only [drUpdate, data]
  rfl

/-- Settles O10, register by register. -/
theorem drScanExchangesValues : Obligations.DrScanExchangesValues := by
  unfold Obligations.DrScanExchangesValues
  intro src t rnw a v h
  refine ⟨fun hir => ?_, fun hir => ?_, fun hir => ?_⟩
  · simp only [targetRun_dr35 src h (drCapture_xpacc src hir), drUpdate_xpacc hir, beq_iff_eq, true_and]
    exact ⟨h, fun i => (scanTdo_isSome_iff _ i).trans (by omega),
      fun tdo agrees => drScanOut_of_agrees fun i lo hi => agrees i lo (by omega)⟩
  · have captured : drCapture src t.ir = some (lsbFirst src.abortCapture) := by rw [hir]; rfl
    simp only [targetRun_dr35 src h captured, true_and]
    exact ⟨h, by rw [hir, drUpdate_abort]⟩
  · have captured : drCapture src t.ir = some (lsbFirst src.idcode) := by rw [hir]; rfl
    have nothing : drUpdate (src.ack == 0b001) t.ir 0 = [] := by rw [hir]; rfl
    simp only [targetRun_dr32 src h captured, nothing, List.append_nil, true_and]
    exact ⟨h, fun i => (scanTdo_isSome_iff _ i).trans (by omega),
      fun tdo agrees => drScanOut_of_agrees fun i lo hi => agrees i lo (by omega)⟩

/-! ## The CTRL/STAT clear write -/

/-- The clear value rewrites the read-write fields as they were read (41_jtag_tap.md R186). -/
theorem w1cValue_and_rw (v : Word) : w1cValue v &&& csRwMask = v &&& csRwMask := by
  have apart : stickyMask &&& csRwMask = 0#32 := by decide
  have same : csRwMask &&& csRwMask = csRwMask := BitVec.and_self
  rw [w1cValue, BitVec.and_or_distrib_right, BitVec.and_assoc, BitVec.and_assoc, apart, same, BitVec.and_zero,
    BitVec.or_zero]

/-- It has a 1 at each flag of a JTAG-DP that was seen, and at no other (41_jtag_tap.md R186). -/
theorem w1cValue_and_flags (v : Word) : w1cValue v &&& 0x32 = v &&& 0x32 := by
  have apart : csRwMask &&& 0x32 = 0#32 := by decide
  have within : stickyMask &&& 0x32 = 0x32 := by decide
  rw [w1cValue, BitVec.and_or_distrib_right, BitVec.and_assoc, BitVec.and_assoc, apart, within, BitVec.and_zero,
    BitVec.zero_or]

/-- Clearing the bits of m that are set clears all bits of m. -/
theorem and_not_and_self (v m : Word) : v &&& ~~~(v &&& m) = v &&& ~~~m := by
  rw [BitVec.not_and, BitVec.and_or_distrib_left, BitVec.and_not_self]
  exact BitVec.zero_or

/-- Settles O14: the read-write fields are kept by the value, and the flags seen are the flags there. -/
theorem w1cKeepsControl : Obligations.W1cKeepsControl := by
  unfold Obligations.W1cKeepsControl
  intro v
  have rest : csRwMask ||| ~~~csRwMask &&& ~~~0x32 = ~~~0x32#32 := by decide
  calc targetCtrlStatW1C (w1cValue v) v
      = v &&& csRwMask ||| v &&& ~~~csRwMask &&& ~~~(v &&& 0x32) := by
        rw [targetCtrlStatW1C, w1cValue_and_rw, w1cValue_and_flags]
    _ = v &&& csRwMask ||| v &&& ~~~(v &&& 0x32) &&& ~~~csRwMask := by ac_rfl
    _ = v &&& csRwMask ||| v &&& (~~~csRwMask &&& ~~~0x32) := by
        rw [and_not_and_self]
        ac_rfl
    _ = v &&& ~~~0x32#32 := by rw [← BitVec.and_or_distrib_left, rest]

end Sys2Proof.Machine
end

section
/-! Proofs of the statements about the requests and commands over JTAG (41_jtag_tap.md sections 4 to 6): IR codes, DP reads
and writes, the identity scan, AP accesses with the poll at their end. -/

namespace Sys2Proof.Machine

/-! ## Commands that run at once -/

/-- The command runs at once, as the body that ends as r does (42_dpap_commands.md R200). -/
def RunsAs (i : Instr) (s : State) (r : Run Error (Option Word)) : Prop :=
  exec i s = .next (finish (.instr i) (ctxOf s.st.selectCache i) r)

theorem RunsAs.replied {i : Instr} {s t : State} {r : Run Error (Option Word)} {v : Option Word} (h : RunsAs i s r)
    (hr : r = .ok v t) : exec i s = .next (t.replied i v) := by
  rw [h, hr, finish_ok]

theorem RunsAs.failed {i : Instr} {s t : State} {r : Run Error (Option Word)} {e : Error} (h : RunsAs i s r)
    (hr : r = .stop e t) : exec i s = .next (t.failed i s.st.selectCache e) := by
  rw [h, hr, finish_stop]

section

variable {i : Instr} {p : Protocol} {s : State} {body : State → Run Error (Option Word)} (hc : Connected p s)
  (hr : refusalOf s.st.proto i = none)

include hc hr

/-- A host command that no row of the table refuses (42_dpap_commands.md R200). -/
theorem runsAs_host {ap : Bool} (hp : ap = true → s.st.dpPowered = true) (he : exec i s = .next (runReady i ap body s)) :
    RunsAs i s (body s) := by
  rw [RunsAs, he, runReady_live hc.link hc.clear hr hp]

/-- A link request of the connected protocol that no row refuses (log 5). -/
theorem runsAs_request (he : exec i s = runLink i p body s) : RunsAs i s (body s) := by
  rw [RunsAs, he, runLink_own hc.proto, runReady_live hc.link hc.clear hr (by simp)]

/-- An AP request does so where SELECT is held (log 5, log 7). -/
theorem runsAs_apRequest {ap addr : Addr} {a : BitVec 2} (ha : ApReady ap addr s)
    (he : exec i s = runLinkAp i p a body s) : RunsAs i s (body s) :=
  he.trans (runLinkAp_ready hc ha hr)

end

/-! ## IR codes -/

/-- An IR request scans its code in and caches it (41_jtag_tap.md R166, R169; log 21). -/
theorem irBody_X {s : State} {ir : BitVec 4} {tdo : Wire} (ht : s.st.tap = some .rti) (h : s.meets (irScanX ir tdo)) :
    irBody ir s = .ok none ((s.after (irScanX ir tdo)).withBlock { s.st with irCache := some ir }) := by
  rw [irBody, irScan_X h ht, check_ok, Run.bind_ok]

/-- Settles O41: four codes are scanned in, BYPASS has no transaction. -/
theorem jtagIrRequests : Obligations.JtagIrRequests := by
  unfold Obligations.JtagIrRequests
  refine ⟨fun i ir hi s tdo hc hm => ?_, fun s hc => (runsAs_request hc rfl rfl).replied rfl⟩
  simp only [List.mem_cons, List.not_mem_nil, or_false, Prod.mk.injEq] at hi
  rcases hi with ⟨rfl, rfl⟩ | ⟨rfl, rfl⟩ | ⟨rfl, rfl⟩ | ⟨rfl, rfl⟩
  all_goals exact (runsAs_request hc.toConnected rfl rfl).replied (irBody_X hc.tap hm)

/-! ## The identity scan -/

/-- Settles O45: the scan, and the value it shifts out. -/
theorem jtagIdcodeScan : Obligations.JtagIdcodeScan := by
  unfold Obligations.JtagIdcodeScan
  intro s id ir junk hc hm
  refine (runsAs_request hc.toConnected rfl rfl).replied ?_
  rw [jtagIdcode_X rfl hc.tap hm, check_ok, Run.bind_ok]

/-! ## DP reads and writes -/

/-- A DP read over JTAG, CTRL/STAT apart (41_jtag_tap.md R180, 42_dpap_commands.md R210). -/
theorem readDpReg_jtag {s : State} {a : BitVec 2} {prev d : Word} {ir : Wire} {t u : JtagTry} (ha : a ≠ 1)
    (hc : ConnectedJtag s) (ht : t.fits s.params) (hu : u.fits s.params)
    (h : s.meets (jtagReadDpX s.st.irCache a prev d ir t u)) :
    readDpReg a s = .ok (some d)
      ((s.after (jtagReadDpX s.st.irCache a prev d ir t u)).withBlock { s.st with irCache := some 0xA }) := by
  rw [readDpReg, dpRead_jtag hc.proto, jtagReadDp_X rfl ht hu hc.tap h, check_ok, Run.bind_ok, aCtrlStat, if_neg ha]

/-- READ_DP of an address the table lets through is the DP read of its register. -/
theorem runsAs_readDp {p : Protocol} {s : State} {addr : Addr} (hc : Connected p s) (h : dpAddrWF addr = true) :
    RunsAs (.readDp addr) s (readDpReg (regA addr) s) :=
  runsAs_host hc (if_pos h) (by simp) rfl

/-- Settles O42: the request and the three host commands make the same read. -/
theorem jtagDpRead : Obligations.JtagDpRead := by
  unfold Obligations.JtagDpRead
  intro i a ha hi s prev d ir t u hc ht hu hm
  have runs : RunsAs i s (readDpReg a s) := by
    simp only [List.mem_cons, List.not_mem_nil, or_false, Prod.mk.injEq] at hi
    rcases hi with ⟨rfl, -⟩ | ⟨rfl, rfl⟩ | ⟨rfl, rfl⟩ | ⟨rfl, rfl⟩
    · exact runsAs_request hc.toConnected rfl rfl
    all_goals exact runsAs_readDp hc.toConnected rfl
  exact runs.replied (readDpReg_jtag ha hc ht hu hm)

/-- WRITE_DP that no row of the table refuses is the DP write of its register. -/
theorem runsAs_writeDp {p : Protocol} {s : State} {addr : Addr} {v : Word} (hc : Connected p s)
    (hr : writeDpRefusal s.st.proto addr v = none) : RunsAs (.writeDp addr v) s (writeDpReg (regA addr) v s) :=
  runsAs_host hc hr (by simp) rfl

/-- An ABORT write over JTAG (41_jtag_tap.md R172, 42_dpap_commands.md R212). -/
theorem writeDpReg_jtagAbort {s : State} {v : Word} {ir junk : Wire} {out : BitVec 35} (hc : ConnectedJtag s)
    (h : s.meets (jtagAbortX s.st.irCache v ir out junk)) :
    writeDpReg 0 v s = .ok none
      ((s.after (jtagAbortX s.st.irCache v ir out junk)).withBlock { s.st with irCache := some 0x8 }) := by
  rw [writeDpReg, if_neg (by decide), dpWrite_abort hc.proto, jtagAbort_X rfl hc.tap h, check_ok, Run.bind_ok,
    if_neg (by decide), if_neg (by decide)]

/-- A CTRL/STAT write that drops a power-up request ends the power session (42_dpap_commands.md R213). -/
theorem setPowered_dropsPower (v : Word) (s : State) :
    (if dropsPower v then setPowered false s else s) =
      s.withBlock { s.st with dpPowered := s.st.dpPowered && v.getLsbD 28 && v.getLsbD 30 } := by
  have kept : (s.st.dpPowered && v.getLsbD 28 && v.getLsbD 30) = if dropsPower v then false else s.st.dpPowered := by
    unfold dropsPower
    cases v.getLsbD 28 <;> cases v.getLsbD 30 <;> simp
  rw [kept]
  split_ifs
  · exact setPowered_eq false s
  · rfl

/-- A CTRL/STAT write over JTAG (41_jtag_tap.md R181, 42_dpap_commands.md R213). -/
theorem writeDpReg_jtagCtrlStat {s : State} {v prev d : Word} {ir : Wire} {t u : JtagTry} (hc : ConnectedJtag s)
    (ht : t.fits s.params) (hu : u.fits s.params) (h : s.meets (jtagWriteDpX s.st.irCache 1 v prev d ir t u)) :
    writeDpReg 1 v s = .ok none ((s.after (jtagWriteDpX s.st.irCache 1 v prev d ir t u)).withBlock { s.st with
      irCache := some 0xA, dpPowered := s.st.dpPowered && v.getLsbD 28 && v.getLsbD 30 }) := by
  rw [writeDpReg, if_neg (by decide), dpWrite_jtag hc.proto (by decide), jtagWriteDp_X rfl ht hu hc.tap h, check_ok,
    Run.bind_ok, aCtrlStat, if_pos rfl, setPowered_dropsPower]
  rfl

/-- A SELECT write is cached, its event where the cache held another value (42_dpap_commands.md R214). -/
theorem adoptSelect_eq (v : Word) (s : State) :
    adoptSelect v s = (s.after (if s.st.selectCache = some v then noExchange else pulse)).withBlock
      { s.st with selectCache := some v } := by
  unfold adoptSelect
  split_ifs
  · rw [after_none, setSelect_eq]
  · rw [emitInvalidate_eq, setSelect_eq, after_st]

/-- A SELECT write over JTAG (41_jtag_tap.md R181, 42_dpap_commands.md R214). -/
theorem writeDpReg_jtagSelect {s : State} {v prev d : Word} {ir : Wire} {t u : JtagTry} (hc : ConnectedJtag s)
    (ht : t.fits s.params) (hu : u.fits s.params) (h : s.meets (jtagWriteDpX s.st.irCache 2 v prev d ir t u)) :
    writeDpReg 2 v s = .ok none ((s.after ((jtagWriteDpX s.st.irCache 2 v prev d ir t u).andThen
      (if s.st.selectCache = some v then noExchange else pulse))).withBlock { s.st with
        irCache := some 0xA, selectCache := some v }) := by
  rw [writeDpReg, if_neg (by decide), dpWrite_jtag hc.proto (by decide), jtagWriteDp_X rfl ht hu hc.tap h, check_ok,
    Run.bind_ok, if_neg (by decide), aSelect, if_pos rfl, adoptSelect_eq, withBlock_after, after_after]
  rfl

/-- Settles O44: the request and the host command make the same write. -/
theorem jtagDpWrite : Obligations.JtagDpWrite := by
  unfold Obligations.JtagDpWrite
  intro s v prev d ir junk out t u hc ht hu
  have connected := hc.toConnected
  refine ⟨fun hm => ?_, fun hm => ?_, fun hv hm => ?_⟩
  · have write := writeDpReg_jtagAbort hc hm
    simp only [List.forall_mem_cons]
    exact ⟨(runsAs_request connected rfl rfl).replied write, (runsAs_writeDp connected rfl).replied write, by simp⟩
  · have write := writeDpReg_jtagCtrlStat hc ht hu hm
    have request : RunsAs (.dpaccW .ctrlStat v) s (writeDpReg 1 v s) :=
      runsAs_request connected (unrefused_ctrlStat (p := some .jtag) (by simp)) rfl
    have host : RunsAs (.writeDp 0x4 v) s (writeDpReg 1 v s) :=
      runsAs_writeDp connected (unrefused_ctrlStat (by simp [hc.proto]))
    simp only [List.forall_mem_cons]
    exact ⟨request.replied write, host.replied write, by simp⟩
  · have write := writeDpReg_jtagSelect hc ht hu (meets_andThen.mp hm).1
    have request : RunsAs (.dpaccW .select v) s (writeDpReg 2 v s) :=
      runsAs_request connected (unrefused_select (p := some .jtag) hv) rfl
    have host : RunsAs (.writeDp 0x8 v) s (writeDpReg 2 v s) := runsAs_writeDp connected (unrefused_select hv)
    simp only [List.forall_mem_cons]
    exact ⟨request.replied write, host.replied write, by simp⟩

/-! ## The poll at the end of an AP access -/

/-- A poll with DPACC held that sees no sticky bit (60_exceptions.md R263). -/
theorem checkedPoll_jtag {s : State} {q : JtagPoll} (hp : s.st.proto = some .jtag) (hr : s.st.tap = some .rti)
    (hi : s.st.irCache = some 0xA) (hq : q.fits s.params) (hs : sticky q.value = false) (h : s.meets q.exchange) :
    checkedPoll s = .ok q.value ((s.after q.exchange).withBlock { s.st.observed q.value with irCache := some 0xA }) := by
  rw [checkedPoll, poll_jtag hp hi hq.1 hq.2 hr h, check_ok, Run.bind_ok, stickyStop, if_neg (by simp [hs])]
  rfl

/-- The clear write over JTAG, DPACC held (41_jtag_tap.md R186). -/
theorem writeClear_jtag {s : State} {v prev d : Word} {ir junk : Wire} {out : BitVec 35} {t u : JtagTry}
    (hp : s.st.proto = some .jtag) (hr : s.st.tap = some .rti) (hi : s.st.irCache = some 0xA) (ht : t.fits s.params)
    (hu : u.fits s.params) (h : s.meets (jtagClearX s.params v prev d ir out junk t u)) :
    writeClear v s = .ok 0 ((s.after (jtagClearX s.params v prev d ir out junk t u)).withBlock
      { s.st with irCache := some (clearIr s.params) }) := by
  rw [writeClear, if_neg (by simp [hp])]
  unfold jtagClearX clearIr at *
  cases hk : s.params.jtagStickyClear with
  | abortWrite =>
    simp only [hk] at h ⊢
    exact jtagAbort_X hi hr h
  | ctrlStatW1C =>
    simp only [hk] at h ⊢
    exact jtagWriteDp_X hi ht hu hr h

/-- The SCS over JTAG that a polled sticky bit starts, its clear OK (60_exceptions.md R264). -/
theorem scs_polled_jtag {α : Type} {cause : FaultCause} {s : State} {v prev d : Word} {ir junk : Wire} {out : BitVec 35}
    {t u : JtagTry} (hp : s.st.proto = some .jtag) (hr : s.st.tap = some .rti) (hi : s.st.irCache = some 0xA)
    (ht : t.fits s.params) (hu : u.fits s.params) (hs : sticky v = true)
    (h : s.meets (pulse.andThen (jtagClearX s.params v prev d ir out junk t u))) :
    (scs cause (some v) s : Run Error α) = .stop (.accessFault cause (some v) false)
      ((s.after (pulse.andThen (jtagClearX s.params v prev d ir out junk t u))).withBlock
        { s.st with selectCache := none, clearPending := false, irCache := some (clearIr s.params) }) := by
  obtain ⟨-, hclear⟩ := meets_andThen.mp h
  simp only [scs, scsClear]
  rw [emitInvalidate_eq, setSelect_eq, withBlock_after, if_pos hs,
    writeClear_jtag (by simpa using hp) (by simpa using hr) (by simpa using hi) (by simpa using ht) (by simpa using hu)
      (by simpa using hclear), clearStep_ok, scsDone, setPending_eq]
  simp

/-- A poll with DPACC held that sees a sticky bit ends in the SCS (60_exceptions.md R263, R264). -/
theorem checkedPoll_jtag_sticky {s : State} {q : JtagPoll} {prev d : Word} {ir junk : Wire} {out : BitVec 35}
    {t u : JtagTry} (hp : s.st.proto = some .jtag) (hr : s.st.tap = some .rti) (hi : s.st.irCache = some 0xA)
    (hq : q.fits s.params) (ht : t.fits s.params) (hu : u.fits s.params) (hs : sticky q.value = true)
    (h : s.meets ((q.exchange.andThen pulse).andThen (jtagClearX s.params q.value prev d ir out junk t u))) :
    checkedPoll s = .stop (.accessFault .stickyObserved (some q.value) false)
      ((s.after ((q.exchange.andThen pulse).andThen (jtagClearX s.params q.value prev d ir out junk t u))).withBlock
        { s.st.cleared q.value with irCache := some (clearIr s.params) }) := by
  rw [andThen_assoc] at h ⊢
  obtain ⟨hpoll, hscs⟩ := meets_andThen.mp h
  rw [checkedPoll, poll_jtag hp hi hq.1 hq.2 hr hpoll, check_ok, Run.bind_ok, stickyStop, if_pos hs,
    scs_polled_jtag (by simpa [Block.observed] using hp) (by simpa [Block.observed] using hr) rfl (by simpa using ht)
      (by simpa using hu) hs (by simpa [JtagPoll.exchange] using hscs)]
  simp [Block.cleared, Block.observed, JtagPoll.exchange]

/-! ## AP accesses -/

/-- An AP access over JTAG in the selected bank: its scans, and the poll at the end; `result` of what the RDBUFF scan
captured is its value (41_jtag_tap.md R182, R183, R185). -/
def jtagAccess (rnw : Bool) (a : BitVec 2) (v : Word) (result : Word → Option Word) (s : State) :
    Run Error (Option Word) :=
  (check (jtagApScans rnw a v s)).bind fun d s => (checkedPoll s).bind fun _ s => .ok (result d) s

theorem apReadReg_jtag {s : State} (h : s.st.proto = some .jtag) (a : BitVec 2) :
    apReadReg a s = jtagAccess true a 0 some s :=
  if_neg (by simp [h])

theorem apWriteReg_jtag {s : State} (h : s.st.proto = some .jtag) (a : BitVec 2) (v : Word) :
    apWriteReg a v s = jtagAccess false a v (fun _ => none) s :=
  if_neg (by simp [h])

section

variable {s : State} {c : Option (BitVec 4)} {rnw : Bool} {a : BitVec 2} {v prev d : Word} {irB irA : Wire} {t u : JtagTry}
  {q : JtagPoll} {result : Word → Option Word} (hp : s.st.proto = some .jtag) (hr : s.st.tap = some .rti)
  (hc : s.st.irCache = c) (ht : t.fits s.params) (hu : u.fits s.params) (hq : q.fits s.params)

include hp hr hc ht hu hq

/-- An access whose poll sees no sticky bit. -/
theorem jtagAccess_ok (hs : sticky q.value = false)
    (h : s.meets ((jtagApX c rnw a v prev d irB irA t u).andThen q.exchange)) :
    jtagAccess rnw a v result s = .ok (result d) ((s.after ((jtagApX c rnw a v prev d irB irA t u).andThen
      q.exchange)).withBlock { s.st.observed q.value with irCache := some 0xA }) := by
  obtain ⟨hscans, hpoll⟩ := meets_andThen.mp h
  rw [jtagAccess, jtagApScans_X hc ht hu hr hscans, check_ok, Run.bind_ok,
    checkedPoll_jtag (by simpa using hp) (by simpa using hr) rfl (by simpa using hq) hs (by simpa using hpoll),
    Run.bind_ok, withBlock_after, after_after]
  rfl

/-- An access whose poll sees a sticky bit fails, and what its RDBUFF scan captured is lost (41_jtag_tap.md R185,
60_exceptions.md R264, R269). -/
theorem jtagAccess_sticky {prev' d' : Word} {ir' junk' : Wire} {out' : BitVec 35} {t' u' : JtagTry}
    (ht' : t'.fits s.params) (hu' : u'.fits s.params) (hs : sticky q.value = true)
    (h : s.meets ((((jtagApX c rnw a v prev d irB irA t u).andThen q.exchange).andThen pulse).andThen
      (jtagClearX s.params q.value prev' d' ir' out' junk' t' u'))) :
    jtagAccess rnw a v result s = .stop (.accessFault .stickyObserved (some q.value) false)
      ((s.after ((((jtagApX c rnw a v prev d irB irA t u).andThen q.exchange).andThen pulse).andThen
        (jtagClearX s.params q.value prev' d' ir' out' junk' t' u'))).withBlock
          { s.st.cleared q.value with irCache := some (clearIr s.params) }) := by
  rw [andThen_assoc, andThen_assoc, ← andThen_assoc q.exchange] at h ⊢
  obtain ⟨hscans, hpoll⟩ := meets_andThen.mp h
  rw [jtagAccess, jtagApScans_X hc ht hu hr hscans, check_ok, Run.bind_ok,
    checkedPoll_jtag_sticky (by simpa using hp) (by simpa using hr) rfl (by simpa using hq) (by simpa using ht')
      (by simpa using hu') hs (by simpa using hpoll), Run.bind_stop, withBlock_after]
  simp [Block.cleared, Block.observed]

end

section

variable {ap addr : Addr} {s : State} (haddr : addr.extractLsb' 0 2 = 0) (hc : Connected .jtag s)

include haddr hc

/-- Behind the power gate READ_AP makes its SELECT write, if one is due, and then its access (42_dpap_commands.md R216). -/
theorem runsAs_readAp (hd : s.st.dpPowered = true) :
    RunsAs (.readAp ap addr) s ((ensureSelect ap addr s).bind fun _ t => apReadReg (regA addr) t) := by
  have hr : refusalOf s.st.proto (.readAp ap addr) = none := if_pos (apAddrWF_of_aligned haddr)
  exact runsAs_host hc hr (fun _ => hd) rfl

/-- So does WRITE_AP (42_dpap_commands.md R217). -/
theorem runsAs_writeAp (hd : s.st.dpPowered = true) (v : Word) :
    RunsAs (.writeAp ap addr v) s ((ensureSelect ap addr s).bind fun _ t => apWriteReg (regA addr) v t) := by
  have hr : refusalOf s.st.proto (.writeAp ap addr v) = none := if_pos (apAddrWF_of_aligned haddr)
  exact runsAs_host hc hr (fun _ => hd) rfl

variable (ha : ApReady ap addr s)

include ha

/-- With SELECT held, the request and the host command make the same read. -/
theorem jtagApRead_runsAs :
    ∀ i ∈ [Instr.apaccR (regA addr), .readAp ap addr], RunsAs i s (jtagAccess true (regA addr) 0 some s) := by
  have host := runsAs_readAp (ap := ap) haddr hc ha.powered
  rw [ensureSelect_held ha.select, Run.bind_ok, apReadReg_jtag hc.proto] at host
  have request : RunsAs (.apaccR (regA addr)) s (apReadReg (regA addr) s) := runsAs_apRequest hc rfl ha rfl
  rw [apReadReg_jtag hc.proto] at request
  simp only [List.forall_mem_cons]
  exact ⟨request, host, by simp⟩

/-- With SELECT held, the request and the host command make the same write. -/
theorem jtagApWrite_runsAs (v : Word) :
    ∀ i ∈ [Instr.apaccW (regA addr) v, .writeAp ap addr v],
      RunsAs i s (jtagAccess false (regA addr) v (fun _ => none) s) := by
  have host := runsAs_writeAp (ap := ap) haddr hc ha.powered v
  rw [ensureSelect_held ha.select, Run.bind_ok, apWriteReg_jtag hc.proto] at host
  have request : RunsAs (.apaccW (regA addr) v) s (apWriteReg (regA addr) v s) := runsAs_apRequest hc rfl ha rfl
  rw [apWriteReg_jtag hc.proto] at request
  simp only [List.forall_mem_cons]
  exact ⟨request, host, by simp⟩

end

/-- Settles O46: the access in the held bank, its poll without a sticky bit. -/
theorem jtagApAccess : Obligations.JtagApAccess := by
  unfold Obligations.JtagApAccess
  intro ap addr s v prev d irB irA t u q haddr hc ht hu hq hd hsel hs
  have ready : ApReady ap addr s := ⟨hd, hsel⟩
  exact ⟨fun i hi hm => (jtagApRead_runsAs haddr hc.toConnected ready i hi).replied
      (jtagAccess_ok hc.proto hc.tap rfl ht hu hq hs hm),
    fun i hi hm => (jtagApWrite_runsAs haddr hc.toConnected ready v i hi).replied
      (jtagAccess_ok hc.proto hc.tap rfl ht hu hq hs hm)⟩

/-- Settles O48: the access in the held bank, a sticky bit in its poll. -/
theorem jtagApAccessReportsSticky : Obligations.JtagApAccessReportsSticky := by
  unfold Obligations.JtagApAccessReportsSticky
  intro ap addr s v prev d prev' d' irB irA ir' junk' out' t u t' u' q haddr hc ht hu ht' hu' hq ready hs
  refine ⟨fun i hi hm => ?_, fun i hi hm => ?_⟩
  · have runs := jtagApWrite_runsAs haddr hc.toConnected ready v i (by simpa [or_comm] using hi)
    exact runs.failed (jtagAccess_sticky hc.proto hc.tap rfl ht hu hq ht' hu' hs hm)
  · have runs := jtagApRead_runsAs haddr hc.toConnected ready i (by simpa [or_comm] using hi)
    exact runs.failed (jtagAccess_sticky hc.proto hc.tap rfl ht hu hq ht' hu' hs hm)

/-! ## AP accesses in another bank -/

/-- EnsureSelect over JTAG where another value is held, or none: the write, the event, the cache (42_dpap_commands.md R205,
41_jtag_tap.md R184). -/
theorem ensureSelect_jtag {ap addr : Addr} {s : State} {prev : Word} {ir : Wire} {t : JtagTry} (hc : ConnectedJtag s)
    (ht : t.fits s.params) (hs : s.st.selectCache ≠ some (requiredSelect ap addr))
    (h : s.meets (jtagEnsureSelectX s.st.irCache (requiredSelect ap addr) prev ir t)) :
    ensureSelect ap addr s = .ok ()
      ((s.after (jtagEnsureSelectX s.st.irCache (requiredSelect ap addr) prev ir t)).withBlock
        { s.st with irCache := some 0xA, selectCache := some (requiredSelect ap addr) }) := by
  rw [ensureSelect, if_neg hs, selectWrite_jtag hc.proto, jtagSelect_X rfl ht hc.tap (meets_andThen.mp h).1, check_ok,
    Run.bind_ok, setSelect_eq, emitInvalidate_eq, withBlock_after, withBlock_after, after_after]
  rfl

/-- An access behind its SELECT write, its poll without a sticky bit. -/
theorem ensureSelect_jtagAccess {ap addr : Addr} {s : State} {rnw : Bool} {a : BitVec 2} {v prev₀ prev d : Word}
    {ir₀ irB irA : Wire} {t₀ t u : JtagTry} {q : JtagPoll} {result : Word → Option Word}
    {access : State → Run Error (Option Word)}
    (haccess : ∀ w : State, w.st.proto = some .jtag → access w = jtagAccess rnw a v result w)
    (hc : ConnectedJtag s) (ht₀ : t₀.fits s.params) (ht : t.fits s.params) (hu : u.fits s.params) (hq : q.fits s.params)
    (hsel : s.st.selectCache ≠ some (requiredSelect ap addr)) (hs : sticky q.value = false)
    (h : s.meets (((jtagEnsureSelectX s.st.irCache (requiredSelect ap addr) prev₀ ir₀ t₀).andThen
      (jtagApX (some 0xA) rnw a v prev d irB irA t u)).andThen q.exchange)) :
    ((ensureSelect ap addr s).bind fun _ w => access w) = .ok (result d)
      ((s.after (((jtagEnsureSelectX s.st.irCache (requiredSelect ap addr) prev₀ ir₀ t₀).andThen
        (jtagApX (some 0xA) rnw a v prev d irB irA t u)).andThen q.exchange)).withBlock
          { s.st.observed q.value with irCache := some 0xA, selectCache := some (requiredSelect ap addr) }) := by
  rw [andThen_assoc] at h ⊢
  obtain ⟨hselect, hrest⟩ := meets_andThen.mp h
  rw [ensureSelect_jtag hc ht₀ hsel hselect, Run.bind_ok, haccess _ (by exact hc.proto),
    jtagAccess_ok (by exact hc.proto) (by exact hc.tap) rfl (by simpa using ht) (by simpa using hu) (by simpa using hq) hs
      (by simpa using hrest), withBlock_after, after_after]
  rfl

/-- Settles O47: the SELECT write, then the access as in the held bank. -/
theorem jtagApAccessSelectsBank : Obligations.JtagApAccessSelectsBank := by
  unfold Obligations.JtagApAccessSelectsBank
  intro ap addr s v prev₀ prev d ir₀ irB irA t₀ t u q haddr hc ht₀ ht hu hq hd hsel hs
  refine ⟨fun hm => ?_, fun hm => ?_⟩
  · exact (runsAs_readAp haddr hc.toConnected hd).replied
      (ensureSelect_jtagAccess (fun _ hp => apReadReg_jtag hp _) hc ht₀ ht hu hq hsel hs hm)
  · exact (runsAs_writeAp haddr hc.toConnected hd v).replied
      (ensureSelect_jtagAccess (fun _ hp => apWriteReg_jtag hp _ _) hc ht₀ ht hu hq hsel hs hm)

end Sys2Proof.Machine
end

section
/-! Proofs of the statements about the command frame (42_dpap_commands.md section 1): the invariants between commands,
the one result of a command, what is answered before any transport call, and SET_CLOCK. -/

namespace Sys2Proof.Machine

/-! ## The invariants between commands and the one result (42_dpap_commands.md R201, R202) -/

/-- Settles O17: at reset no link is Ready, no clear is pending and no SELECT is held. -/
theorem resetMeetsInvariants : Obligations.ResetMeetsInvariants := by
  unfold Obligations.ResetMeetsInvariants
  exact .closed (by decide) rfl

/-- What an instruction that answers has done, within some bound on its calls: a CONNECT by its own body, any other as a
command of the session. -/
theorem exec_answered {i : Instr} {s t : State} (h : exec i s = .next t) :
    ∃ own n, Answered own (.instr i) n s t := by
  by_cases hs : i = .connectSwd
  · subst hs
    exact ⟨0, _, connect_answered (connectSwdBody_keeps 0 s) h⟩
  by_cases hj : i = .connectJtag
  · subst hj
    exact ⟨0, _, connect_answered (connectJtagBody_keeps 0 s) h⟩
  exact ⟨_, _, (exec_commanded hs hj h).answered⟩

/-- The refusal of a CONNECT word leaves the block as it was (42_dpap_commands.md R219 row 2). -/
theorem rejectConnect_st (proto : BitVec 2) (s : State) : (rejectConnect proto s).st = s.st := rfl

/-- A rejected word that gets an answer is a CONNECT word with another proto (log 13, log 15). -/
theorem rejectWord_next {e : DecodeError} {s t : State} (h : rejectWord e s = .next t) :
    ∃ proto, e = .badProtocol proto ∧ t = rejectConnect proto s := by
  cases e
  case badProtocol proto =>
    injection h with h
    exact ⟨proto, rfl, h.symm⟩
  all_goals cases h

/-- What a step that answers can have been: nothing to do, an instruction, or the refusal of a CONNECT word. -/
theorem step_next {s t : State} (h : step s = .next t) :
    t = s ∨ ∃ (w : PortWord) (rest : List PortWord), s.port = w :: rest ∧
      ((∃ i, decode w = .ok i ∧ exec i { s with port := rest } = .next t) ∨
        ∃ proto, decode w = .error (.badProtocol proto) ∧ t = rejectConnect proto { s with port := rest }) := by
  cases hp : s.port with
  | nil =>
    rw [step_of_fetch_none (fetch_nil hp)] at h
    injection h with h
    exact .inl h.symm
  | cons w rest =>
    refine .inr ⟨w, rest, rfl, ?_⟩
    cases hd : decode w with
    | ok i =>
      rw [step_of_decode (fetch_cons hp) hd] at h
      exact .inl ⟨i, rfl, h⟩
    | error e =>
      simp only [step, fetch_cons hp, hd] at h
      obtain ⟨proto, rfl, ht⟩ := rejectWord_next h
      exact .inr ⟨proto, rfl, ht⟩

/-- Settles O18, by what a step can have been: only an instruction changes the block, and it keeps the invariants. -/
theorem stepKeepsInvariants : Obligations.StepKeepsInvariants := by
  unfold Obligations.StepKeepsInvariants
  intro s t hinv h
  rcases step_next h with rfl | ⟨w, rest, -, ⟨i, -, he⟩ | ⟨proto, -, rfl⟩⟩
  · exact hinv
  · obtain ⟨own, n, answered⟩ := exec_answered he
    exact answered.inv hinv
  · rw [rejectConnect_st]
    exact hinv

/-- A plain observation is no result. -/
theorem PlainObs.not_result {own : Word} {o : Obs} (h : PlainObs own o) : isResult o = false := by
  cases o with
  | result q r => exact h.elim
  | _ => rfl

/-- Settles O19: the word taken is an instruction's, which adds its plain observations and then its result. -/
theorem stepAnswersOnce : Obligations.StepAnswersOnce := by
  unfold Obligations.StepAnswersOnce
  intro s t w rest i hport hdec h
  rw [step_of_decode (fetch_cons hport) hdec] at h
  obtain ⟨own, n, answered⟩ := exec_answered h
  obtain ⟨l, r, htrace, hclean, -⟩ := answered.trace
  exact ⟨answered.port, answered.params, l, r, htrace, fun o ho => (hclean.plain o ho).not_result⟩

/-! ## What is answered before any transport call (42_dpap_commands.md R200, R219) -/

/-- Whether an instruction is an AP access, which waits for the DP to be powered (42_dpap_commands.md R200). -/
def isApAccess : Instr → Bool
  | .apR0 | .apR1 | .apR2 | .apR3 | .apW0 _ | .apW1 _ | .apW2 _ | .apW3 _ => true
  | .apaccR _ | .apaccW _ _ | .readAp _ _ | .writeAp _ _ _ => true
  | _ => false

section

variable {i : Instr} {ap : Bool} {s : State} {e : Error} {body : State → Run Error (Option Word)}

/-- A command that a check stops answers that error and does nothing else. -/
theorem runReady_stopped (h : precheck (refusalOf s.st.proto i) ap s = some e) :
    runReady i ap body s = s.failed i s.st.selectCache e := by
  rw [runReady, h]
  exact finish_stop i s.st.selectCache e s

/-- So does a link request, whatever protocol is connected (log 5). -/
theorem runLink_stopped {p : Protocol} (h : precheck (refusalOf s.st.proto i) false s = some e) :
    runLink i p body s = .next (s.failed i s.st.selectCache e) := by
  rw [runLink, if_neg (by simp [h]), runReady_stopped h]

/-- And an AP link request, whatever SELECT is held. -/
theorem runLinkAp_stopped {p : Protocol} {a : BitVec 2} (h : precheck (refusalOf s.st.proto i) true s = some e) :
    runLinkAp i p a body s = .next (s.failed i s.st.selectCache e) := by
  rw [runLinkAp, if_neg (by simp [h]), if_neg (by simp [h]), runReady_stopped h]

end

/-- Every instruction but CONNECT and SET_CLOCK answers what its checks answer, before any transport call. -/
theorem exec_stopped {i : Instr} {s : State} {e : Error} (hs : i ≠ .connectSwd) (hj : i ≠ .connectJtag)
    (hk : ∀ hz, i ≠ .setClock hz) (h : precheck (refusalOf s.st.proto i) (isApAccess i) s = some e) :
    exec i s = .next (s.failed i s.st.selectCache e) := by
  cases i
  case connectSwd => exact absurd rfl hs
  case connectJtag => exact absurd rfl hj
  case setClock hz => exact absurd rfl (hk hz)
  case readDp | writeDp | readAp | writeAp | powerUp | reservedOp7 | reservedOp8 | reservedOp9 | reservedOp10 |
      reservedOp11 | reservedOp12 | reservedOp13 | reservedOp14 | reservedOp15 =>
    exact congrArg Host.Outcome.next (runReady_stopped h)
  case apR0 | apR1 | apR2 | apR3 | apW0 | apW1 | apW2 | apW3 | apaccR | apaccW => exact runLinkAp_stopped h
  all_goals exact runLink_stopped h

/-- An unrefused command while the link is Unconnected. -/
theorem precheck_unconnected {ap : Bool} {s : State} (h : s.st.link = .unconnected) :
    precheck none ap s = some .notConnected := by
  simp [precheck, h]

/-- An unrefused command while the link is Desync. -/
theorem precheck_desync {ap : Bool} {s : State} (h : s.st.link = .desync) : precheck none ap s = some .desync := by
  simp [precheck, h]

/-- An unrefused AP command while the link is Ready and the DP is not powered. -/
theorem precheck_unpowered {s : State} (hl : s.st.link = .ready) (hd : s.st.dpPowered = false) :
    precheck none true s = some .dpNotPowered := by
  simp [precheck, hl, hd]

/-- A refused command in every link state but Disconnected: its refusal comes before the link's answer
(42_dpap_commands.md R200). -/
theorem precheck_refused {reason : Reason} {ap : Bool} {s : State} (h : s.st.link ≠ .disconnected) :
    precheck (some reason) ap s = some (.refused reason) := by
  rw [precheck, if_neg h]

/-- Settles O25: the checks answer for the link, and every instruction gives their answer. -/
theorem closedLinkAnswers : Obligations.ClosedLinkAnswers := by
  unfold Obligations.ClosedLinkAnswers
  intro i s hs hj hk hr
  refine ⟨fun hl => exec_stopped hs hj hk ?_, fun hl => exec_stopped hs hj hk ?_⟩
  · rw [hr, precheck_unconnected hl]
  · rw [hr, precheck_desync hl]

/-- An unrefused AP access while the link is Ready and the DP is not powered. -/
theorem exec_unpowered {i : Instr} {s : State} (hi : isApAccess i = true) (hr : refusalOf s.st.proto i = none)
    (hl : s.st.link = .ready) (hd : s.st.dpPowered = false) :
    exec i s = .next (s.failed i s.st.selectCache .dpNotPowered) := by
  refine exec_stopped ?_ ?_ ?_ (by rw [hi, hr, precheck_unpowered hl hd])
  · rintro rfl
    cases hi
  · rintro rfl
    cases hi
  · rintro hz rfl
    cases hi

/-- Settles O26: the checks of an AP access ask for the power last, and no row refuses an aligned one. -/
theorem unpoweredApAccess : Obligations.UnpoweredApAccess := by
  unfold Obligations.UnpoweredApAccess
  intro s i ap addr a v haddr hi hl hd
  simp only [List.mem_cons, List.not_mem_nil, or_false] at hi
  rcases hi with rfl | rfl | rfl | rfl | rfl | rfl | rfl | rfl | rfl | rfl | rfl | rfl
  case inl | inr.inl => exact exec_unpowered rfl (if_pos (apAddrWF_of_aligned haddr)) hl hd
  all_goals exact exec_unpowered rfl rfl hl hd

/-! ### The refusal table, row by row (42_dpap_commands.md R219) -/

/-- Row 4: a DP address that is no register. -/
theorem dpAddrWF_false {addr : Addr} (h0 : addr ≠ 0x0) (h4 : addr ≠ 0x4) (h8 : addr ≠ 0x8) (hC : addr ≠ 0xC) :
    dpAddrWF addr = false := by
  simp only [dpAddrWF, Bool.or_eq_false_iff, beq_eq_false_iff_ne]
  exact ⟨⟨⟨h0, h4⟩, h8⟩, hC⟩

theorem writeDpRefusal_badAddress {p : Option Protocol} {addr : Addr} {v : Word} (h : dpAddrWF addr = false) :
    writeDpRefusal p addr v = some .badAddress := by
  simp [writeDpRefusal, h]

/-- Row 6: a TARGETSEL write (42_dpap_commands.md R215). -/
theorem writeDpRefusal_targetSel (p : Option Protocol) (v : Word) : writeDpRefusal p 0xC v = some .targetSel := rfl

/-- Row 7: a SELECT write with another DP bank. -/
theorem writeDpRefusal_dpBank {p : Option Protocol} {v : Word} (h : v.extractLsb' 0 4 ≠ 0) :
    writeDpRefusal p 0x8 v = some .dpBank := by
  have bank : selectWF v = false := beq_false_of_ne h
  simp [writeDpRefusal, dpAddrWF, bank]

/-- Row 8: a CTRL/STAT write over SWD with ORUNDETECT. -/
theorem writeDpRefusal_orunDetect {v : Word} (h : v.getLsbD 0 = true) :
    writeDpRefusal (some .swd) 0x4 v = some .orunDetect := by
  simp [writeDpRefusal, dpAddrWF, -BitVec.getLsbD_eq_getElem, h]

/-- Row 5: an AP address that is not aligned. -/
theorem apAddrWF_false {addr : Addr} (h : addr.extractLsb' 0 2 ≠ 0) : apAddrWF addr = false :=
  beq_false_of_ne h

/-- A refused command, in every link state but Disconnected. -/
theorem exec_refused {i : Instr} {s : State} {reason : Reason} (hl : s.st.link ≠ .disconnected)
    (hr : refusalOf s.st.proto i = some reason) (hs : i ≠ .connectSwd := by nofun) (hj : i ≠ .connectJtag := by nofun)
    (hk : ∀ hz, i ≠ .setClock hz := by nofun) : exec i s = .next (s.failed i s.st.selectCache (.refused reason)) :=
  exec_stopped hs hj hk (by rw [hr, precheck_refused hl])

/-- Row 3: SET_CLOCK 0, which runs in every link state but Disconnected (42_dpap_commands.md R209). -/
theorem exec_setClock_zero {s : State} (hl : s.st.link ≠ .disconnected) :
    exec (.setClock 0) s = .next (s.failed (.setClock 0) s.st.selectCache (.refused .badClock)) := by
  have stops : precheckEarly (refusalOf s.st.proto (.setClock 0)) s = some (.refused .badClock) := if_neg hl
  refine congrArg Host.Outcome.next ?_
  rw [runEarly, stops]
  exact finish_stop _ s.st.selectCache _ s

/-- Settles O27, row by row of the table. -/
theorem hostRefusals : Obligations.HostRefusals := by
  unfold Obligations.HostRefusals
  intro s ap addr v hl
  refine ⟨exec_setClock_zero hl, fun h0 h4 h8 hC => ?_, fun ha => ?_, exec_refused hl rfl, exec_refused hl rfl,
    fun hv => ?_, fun hv => ?_⟩
  · have bad := dpAddrWF_false h0 h4 h8 hC
    exact ⟨exec_refused hl (if_neg (by simp [bad])), exec_refused hl (writeDpRefusal_badAddress bad)⟩
  · have bad := apAddrWF_false ha
    exact ⟨exec_refused hl (if_neg (by simp [bad])), exec_refused hl (if_neg (by simp [bad]))⟩
  · exact ⟨exec_refused hl (writeDpRefusal_dpBank hv), exec_refused hl (writeDpRefusal_dpBank hv),
      exec_refused hl (writeDpRefusal_dpBank hv)⟩
  · refine ⟨exec_refused hl (writeDpRefusal_orunDetect hv), fun hp => exec_refused hl ?_⟩
    rw [hp]
    exact writeDpRefusal_orunDetect hv

/-! ### A CONNECT word with another protocol (42_dpap_commands.md R219 row 2) -/

/-- The decoder rejects a command word as BadProtocol only for opcode 0 and its proto field. -/
theorem commandRow_badProtocol {op : BitVec 4} {proto p : BitVec 2} {ap addr : Addr} {data hz : Word}
    (h : commandRow op proto ap addr data hz = .error (.badProtocol p)) :
    op = 0 ∧ proto = p ∧ p ≠ 0 ∧ p ≠ 1 := by
  unfold commandRow at h
  split at h
  case h_1 hop =>
    split_ifs at h with h0 h1
    injection h with h
    injection h with h
    subst h
    exact ⟨BitVec.eq_of_toNat_eq hop, rfl, h0, h1⟩
  all_goals cases h

/-- The refusal of a CONNECT word, while not Disconnected (log 13). -/
theorem rejectConnect_eq {proto : BitVec 2} {s : State} (h : s.st.link ≠ .disconnected) :
    rejectConnect proto s = emit (.result (.badConnect proto)
      (.err (errorRecord ⟨0, 0, 0⟩ (.refused .badProtocol)))) s := by
  have refused : precheckEarly (some .badProtocol) s = some (.refused .badProtocol) := if_neg h
  rw [rejectConnect, refused]
  rfl

/-- Settles O28: the word's fields, and the answer where it is fetched. -/
theorem badProtocolRefused : Obligations.BadProtocolRefused := by
  unfold Obligations.BadProtocolRefused
  intro s w rest p hport hdec hl
  obtain ⟨hop, hproto, h0, h1⟩ := commandRow_badProtocol ((decodeHost_eq w).symm.trans hdec)
  refine ⟨hop, hproto, h0, h1, ?_⟩
  simp only [step, fetch_cons hport, hdec, rejectWord]
  rw [rejectConnect_eq (by exact hl)]
  rfl

/-! ## SET_CLOCK (42_dpap_commands.md R209) -/

/-- The call of SET_CLOCK answered Ok. -/
theorem setClockCall_X {s : State} {hz : Word} {junk : Wire} (h : s.meets (setClockX hz (.ok junk))) :
    setClockCall hz s = .ok () (s.after (setClockX hz (.ok junk))) := by
  rw [setClockCall, transportCall_ok _ h rfl]
  rfl

/-- The call of SET_CLOCK that the transport fails (00_scope.md R15). -/
theorem setClockCall_lost {s : State} {hz : Word} {lost : Answer} (hn : ∀ bits, lost ≠ .ok bits)
    (h : s.meets (setClockX hz lost)) :
    setClockCall hz s = .stop (lostAs lost) (s.after (setClockX hz lost)) := by
  rw [setClockCall, transportCall_lost _ hn h rfl]
  rfl

/-- SET_CLOCK of another rate than 0 runs its body in every link state but Disconnected, whatever is pending. -/
theorem exec_setClock {s : State} {hz : Word} (hl : s.st.link ≠ .disconnected) (h0 : hz ≠ 0) :
    exec (.setClock hz) s =
      .next (finish (.instr (.setClock hz)) (ctxOf s.st.selectCache (.setClock hz)) (setClockBody hz s)) :=
  congrArg Host.Outcome.next (runEarly_open hl (if_neg h0))

/-- Settles O40, by what its one call answers. -/
theorem setClock : Obligations.SetClock := by
  unfold Obligations.SetClock
  intro s hz junk hl
  refine ⟨exec_setClock_zero hl, fun h0 => ⟨fun hm => ?_, fun hm => ?_, fun hm => ?_⟩⟩
  · rw [exec_setClock hl h0, setClockBody, setClockCall_X hm, check_ok, Run.bind_ok, finish_ok]
  · have call := setClockCall_lost (by simp) hm
    rw [exec_setClock hl h0, setClockBody, call, lostAs, check_unsupported, linkUnsupported_eq, Run.bind_stop,
      finish_stop, after_after, after_st]
  · rw [exec_setClock hl h0, setClockBody, setClockCall_lost (by simp) hm, lostAs, check_disconnected,
      linkDisconnected_eq, Run.bind_stop, finish_stop, after_st]

end Sys2Proof.Machine
end

section
/-! Proofs of the statements about the DP and AP commands over SWD (42_dpap_commands.md sections 3 to 5). -/

namespace Sys2Proof.Machine

/-! ## Reads and writes of DP registers (42_dpap_commands.md R210, R212 to R214) -/

/-- A DP read over SWD, CTRL/STAT apart (42_dpap_commands.md R210). -/
theorem readDpReg_swd {s : State} {a : BitVec 2} {d : Word} {t : SwdTry} (ha : a ≠ 1) (hp : s.st.proto = some .swd)
    (ht : t.fits s.params) (h : s.meets (swdReadOkX s.params false a d t)) :
    readDpReg a s = .ok (some d) (s.after (swdReadOkX s.params false a d t)) := by
  rw [readDpReg, dpRead_swd hp, swdXfer_readOk rfl ht h, check_ok, Run.bind_ok, aCtrlStat, if_neg ha]

/-- Settles O32: the requests and the host commands make the same read. -/
theorem swdDpReadReturnsData : Obligations.SwdDpReadReturnsData := by
  unfold Obligations.SwdDpReadReturnsData
  intro i a hi s d t hc ht hm
  have runs : RunsAs i s (readDpReg a s) ∧ a ≠ 1 := by
    simp only [List.mem_cons, List.not_mem_nil, or_false, Prod.mk.injEq] at hi
    rcases hi with ⟨rfl, rfl⟩ | ⟨rfl, rfl⟩ | ⟨rfl, rfl⟩ | ⟨rfl, rfl⟩ | ⟨rfl, rfl⟩ | ⟨rfl, rfl⟩
    iterate 3 exact ⟨runsAs_request hc rfl rfl, by decide⟩
    iterate 3 exact ⟨runsAs_readDp hc rfl, by decide⟩
  exact runs.1.replied (readDpReg_swd runs.2 hc.proto ht hm)

section

variable {s : State} {v : Word} {t : SwdTry} (hp : s.st.proto = some .swd) (ht : t.fits s.params)

include hp ht

/-- An ABORT write over SWD (42_dpap_commands.md R212). -/
theorem writeDpReg_swdAbort (h : s.meets (swdWriteOkX s.params false 0 v t)) :
    writeDpReg 0 v s = .ok none (s.after (swdWriteOkX s.params false 0 v t)) := by
  rw [writeDpReg, if_neg (by decide), dpWrite_swd hp, swdXfer_writeOk rfl ht h, check_ok, Run.bind_ok,
    if_neg (by decide), if_neg (by decide)]

/-- A CTRL/STAT write over SWD (42_dpap_commands.md R213). -/
theorem writeDpReg_swdCtrlStat (h : s.meets (swdWriteOkX s.params false 1 v t)) :
    writeDpReg 1 v s = .ok none ((s.after (swdWriteOkX s.params false 1 v t)).withBlock
      { s.st with dpPowered := s.st.dpPowered && v.getLsbD 28 && v.getLsbD 30 }) := by
  rw [writeDpReg, if_neg (by decide), dpWrite_swd hp, swdXfer_writeOk rfl ht h, check_ok, Run.bind_ok, aCtrlStat,
    if_pos rfl, setPowered_dropsPower, after_st]

/-- A SELECT write over SWD (42_dpap_commands.md R214). -/
theorem writeDpReg_swdSelect (h : s.meets (swdWriteOkX s.params false 2 v t)) :
    writeDpReg 2 v s = .ok none ((s.after ((swdWriteOkX s.params false 2 v t).andThen
      (if s.st.selectCache = some v then noExchange else pulse))).withBlock { s.st with selectCache := some v }) := by
  rw [writeDpReg, if_neg (by decide), dpWrite_swd hp, swdXfer_writeOk rfl ht h, check_ok, Run.bind_ok,
    if_neg (by decide), aSelect, if_pos rfl, adoptSelect_eq, after_after, after_st]

end

/-- Settles O34: the request and the host command make the same write. -/
theorem swdDpWrite : Obligations.SwdDpWrite := by
  unfold Obligations.SwdDpWrite
  intro s v t hc ht
  refine ⟨fun hm => ?_, fun hv hm => ?_, fun hv hm => ?_⟩
  · have write := writeDpReg_swdAbort hc.proto ht hm
    simp only [List.forall_mem_cons]
    exact ⟨(runsAs_request hc rfl rfl).replied write, (runsAs_writeDp hc rfl).replied write, by simp⟩
  · have write := writeDpReg_swdCtrlStat hc.proto ht hm
    have request : RunsAs (.dpW4 v) s (writeDpReg 1 v s) :=
      runsAs_request hc (unrefused_ctrlStat (p := some .swd) fun _ => hv) rfl
    have host : RunsAs (.writeDp 0x4 v) s (writeDpReg 1 v s) := runsAs_writeDp hc (unrefused_ctrlStat fun _ => hv)
    simp only [List.forall_mem_cons]
    exact ⟨request.replied write, host.replied write, by simp⟩
  · have write := writeDpReg_swdSelect hc.proto ht hm
    have request : RunsAs (.dpW8 v) s (writeDpReg 2 v s) :=
      runsAs_request hc (unrefused_select (p := some .swd) hv) rfl
    have host : RunsAs (.writeDp 0x8 v) s (writeDpReg 2 v s) := runsAs_writeDp hc (unrefused_select hv)
    simp only [List.forall_mem_cons]
    exact ⟨request.replied write, host.replied write, by simp⟩

/-! ## AP accesses (42_dpap_commands.md R205, R216, R217) -/

section

variable {p : Params} {s : State} {a : BitVec 2} {d : Word} {t u : SwdTry} (hs : s.params = p)
  (hp : s.st.proto = some .swd) (ht : t.fits p) (hu : u.fits p)

include hs hp ht hu

/-- An AP read over SWD in the selected bank: what the posted read returned is discarded (20_memory.md R66). -/
theorem apReadReg_swd {old : Word} (h : s.meets ((swdReadOkX p true a old t).andThen (swdReadOkX p false 3 d u))) :
    apReadReg a s = .ok (some d) (s.after ((swdReadOkX p true a old t).andThen (swdReadOkX p false 3 d u))) := by
  obtain ⟨hposted, hrdbuff⟩ := meets_andThen.mp h
  rw [apReadReg, if_pos hp, swdXfer_readOk hs ht hposted, check_ok, Run.bind_ok, aRdbuff,
    swdXfer_readOk (by simpa using hs) hu hrdbuff, check_ok, Run.bind_ok, after_after]

/-- An AP write over SWD in the selected bank, with its RDBUFF flush (20_memory.md R67). -/
theorem apWriteReg_swd {v : Word} (h : s.meets ((swdWriteOkX p true a v t).andThen (swdReadOkX p false 3 d u))) :
    apWriteReg a v s = .ok none (s.after ((swdWriteOkX p true a v t).andThen (swdReadOkX p false 3 d u))) := by
  obtain ⟨hwrite, hflush⟩ := meets_andThen.mp h
  rw [apWriteReg, if_pos hp, swdXfer_writeOk hs ht hwrite, check_ok, Run.bind_ok, aRdbuff,
    swdXfer_readOk (by simpa using hs) hu hflush, check_ok, Run.bind_ok, after_after]

end

/-- Settles O35: with SELECT held the request and the host command are the read in that bank. -/
theorem swdApRead : Obligations.SwdApRead := by
  unfold Obligations.SwdApRead
  intro ap addr i haddr hi s old d t u hc ht hu hd hsel x hm
  have runs : RunsAs i s (apReadReg (regA addr) s) := exec_swdApRead haddr hc ⟨hd, hsel⟩ hi
  exact runs.replied (apReadReg_swd rfl hc.proto ht hu hm)

/-- Settles O36: with SELECT held the request and the host command are the write in that bank. -/
theorem swdApWrite : Obligations.SwdApWrite := by
  unfold Obligations.SwdApWrite
  intro ap addr v i haddr hi s d t u hc ht hu hd hsel x hm
  have runs : RunsAs i s (apWriteReg (regA addr) v s) := exec_swdApWrite haddr hc ⟨hd, hsel⟩ hi
  exact runs.replied (apWriteReg_swd rfl hc.proto ht hu hm)

/-- EnsureSelect over SWD where another value is held, or none: the write, the event, the cache
(42_dpap_commands.md R205). -/
theorem ensureSelect_swd {ap addr : Addr} {s : State} {t : SwdTry} (hp : s.st.proto = some .swd) (ht : t.fits s.params)
    (hs : s.st.selectCache ≠ some (requiredSelect ap addr))
    (h : s.meets ((swdWriteOkX s.params false 2 (requiredSelect ap addr) t).andThen pulse)) :
    ensureSelect ap addr s = .ok ()
      ((s.after ((swdWriteOkX s.params false 2 (requiredSelect ap addr) t).andThen pulse)).withBlock
        { s.st with selectCache := some (requiredSelect ap addr) }) := by
  rw [ensureSelect, if_neg hs, selectWrite_swd hp, aSelect, swdXfer_writeOk rfl ht (meets_andThen.mp h).1, check_ok,
    Run.bind_ok, setSelect_eq, emitInvalidate_eq, withBlock_after, after_after, after_st]

/-- An access behind its SELECT write, which the access then finds held (42_dpap_commands.md R205). -/
theorem ensureSelect_swdAccess {ap addr : Addr} {s : State} {t : SwdTry} {access : State → Run Error (Option Word)}
    {v : Option Word} {x : Exchange} (hp : s.st.proto = some .swd) (ht : t.fits s.params)
    (hs : s.st.selectCache ≠ some (requiredSelect ap addr))
    (haccess : ∀ w : State, w.params = s.params → w.st.proto = some .swd → w.meets x → access w = .ok v (w.after x))
    (h : s.meets (((swdWriteOkX s.params false 2 (requiredSelect ap addr) t).andThen pulse).andThen x)) :
    ((ensureSelect ap addr s).bind fun _ w => access w) = .ok v
      ((s.after (((swdWriteOkX s.params false 2 (requiredSelect ap addr) t).andThen pulse).andThen x)).withBlock
        { s.st with selectCache := some (requiredSelect ap addr) }) := by
  obtain ⟨hselect, hx⟩ := meets_andThen.mp h
  rw [ensureSelect_swd hp ht hs hselect, Run.bind_ok, haccess _ (by simp) (by exact hp) (by simpa using hx),
    withBlock_after, after_after]

/-- Settles O37: the SELECT write, then the access as in the held bank. -/
theorem swdApAccessSelectsBank : Obligations.SwdApAccessSelectsBank := by
  unfold Obligations.SwdApAccessSelectsBank
  intro ap addr s v old d t t' u haddr hc ht ht' hu hd hsel sel rd wr block
  simp only [rd, wr, andThen_assoc sel]
  have aligned := apAddrWF_of_aligned haddr
  have hread : refusalOf s.st.proto (.readAp ap addr) = none := if_pos aligned
  have hwrite : refusalOf s.st.proto (.writeAp ap addr v) = none := if_pos aligned
  refine ⟨fun hm => ?_, fun hm => ?_⟩
  · have runs : RunsAs (.readAp ap addr) s ((ensureSelect ap addr s).bind fun _ w => apReadReg (regA addr) w) :=
      runsAs_host hc hread (fun _ => hd) rfl
    exact runs.replied
      (ensureSelect_swdAccess hc.proto ht hsel (fun w hw hp hx => apReadReg_swd hw hp ht' hu hx) hm)
  · have runs : RunsAs (.writeAp ap addr v) s ((ensureSelect ap addr s).bind fun _ w => apWriteReg (regA addr) v w) :=
      runsAs_host hc hwrite (fun _ => hd) rfl
    exact runs.replied
      (ensureSelect_swdAccess hc.proto ht hsel (fun w hw hp hx => apWriteReg_swd hw hp ht' hu hx) hm)

/-! ## Polls over either link (42_dpap_commands.md R211, R218, 60_exceptions.md R263) -/

/-- The sticky-clear sequence ends the command (60_exceptions.md R264). -/
theorem scs_stops {α : Type} (cause : FaultCause) (polled : Option Word) (s : State) (a : α) (t : State) :
    scs cause polled s ≠ .ok a t := by
  cases polled with
  | some v => exact scsClear_stops cause v _ a t
  | none => exact clearStep_stops _ (fun _ _ _ e => by cases e) (fun _ _ => scsClear_stops _ _ _) a t

/-- A link result other than Ok ends the command (60_exceptions.md R262). -/
theorem check_stop {α : Type} (f : LinkFail) (s : State) : ∃ e t, check (.stop f s : Run LinkFail α) = .stop e t := by
  have scs_stop (cause : FaultCause) : ∃ e t, (scs cause none s : Run Error α) = .stop e t := by
    cases h : (scs cause none s : Run Error α) with
    | ok a t => exact absurd h (scs_stops cause none s a t)
    | stop e t => exact ⟨e, t, rfl⟩
  cases f
  case fault => exact scs_stop .ackFault
  case parityError => exact scs_stop .parity
  all_goals exact ⟨_, _, rfl⟩

/-- A CTRL/STAT read is a checked poll that returns its value (42_dpap_commands.md R211). -/
theorem readDpReg_ctrlStat (s : State) :
    readDpReg 1 s = (checkedPoll s).bind fun v t => .ok (some v) t := by
  unfold readDpReg checkedPoll poll aCtrlStat
  cases dpRead 1 s with
  | ok d t => simp
  | stop f t =>
    obtain ⟨e, u, h⟩ := check_stop (α := Word) f t
    simp [h]

/-- A poll that sees no sticky bit goes on. -/
theorem stickyStop_clean {v : Word} {s : State} (h : sticky v = false) : stickyStop v s = .ok v s :=
  if_neg (by simp [h])

/-- A poll that sees one starts the sticky-clear sequence. -/
theorem stickyStop_sticky {v : Word} {s : State} (h : sticky v = true) :
    stickyStop v s = scs .stickyObserved (some v) s :=
  if_pos h

section

variable {total left : Nat} {v : Word} {s t : State}

/-- A poll of POWER_UP that does not show both acknowledges is followed by the next one (42_dpap_commands.md R218). -/
theorem powerPolls_unpowered (h : checkedPoll s = .ok v t) (hd : t.st.dpPowered = false) :
    powerPolls total (left + 1) s = powerPolls total left t := by
  rw [powerPolls, h, Run.bind_ok, if_neg (by simp [hd])]

/-- A poll that shows them ends it with the value. -/
theorem powerPolls_powered (h : checkedPoll s = .ok v t) (hd : t.st.dpPowered = true) :
    powerPolls total (left + 1) s = .ok (some v) t := by
  rw [powerPolls, h, Run.bind_ok, if_pos hd]

/-- A poll that fails ends it with the failure. -/
theorem powerPolls_stop {e : Error} (h : checkedPoll s = .stop e t) : powerPolls total (left + 1) s = .stop e t := by
  rw [powerPolls, h, Run.bind_stop]

/-- After the last poll it times out. -/
theorem powerPolls_last (h : checkedPoll s = .ok v t) (hd : t.st.dpPowered = false) :
    powerPolls total 1 s = .stop (.timeout .powerUp total) t := by
  rw [powerPolls_unpowered h hd, powerPolls]

end

/-- POWER_UP, after the exchange `before` of its write and n polls that did not decide, goes on polling in the block b
(42_dpap_commands.md R218). -/
def PollsOn (s : State) (before : Exchange) (n : Nat) (b : Block) : Prop :=
  s.meets before →
    powerUpBody s = powerPolls s.params.pwrPolls (s.params.pwrPolls - n) ((s.after before).withBlock b)

section

variable {p : Protocol} {s : State} {before x : Exchange} {n : Nat} {b b' : Block} {v : Word} (hc : Connected p s)
  (hb : PollsOn s before n b) (hm : s.meets (before.andThen x))

include hc hb hm

/-- POWER_UP whose next poll shows both acknowledges. -/
theorem powerUp_replied (hn : n < s.params.pwrPolls)
    (h : ((s.after before).withBlock b).meets x → checkedPoll ((s.after before).withBlock b) =
      .ok v ((((s.after before).withBlock b).after x).withBlock b')) (hd : b'.dpPowered = true) :
    exec .powerUp s = .next (((s.after (before.andThen x)).withBlock b').replied .powerUp (some v)) := by
  obtain ⟨hbefore, hx⟩ := meets_andThen.mp hm
  obtain ⟨left, hleft⟩ : ∃ left, s.params.pwrPolls - n = left + 1 := ⟨s.params.pwrPolls - n - 1, by omega⟩
  have runs : RunsAs .powerUp s (powerUpBody s) := runsAs_host hc rfl (by simp) rfl
  refine runs.replied ?_
  rw [hb hbefore, hleft, powerPolls_powered (h (by simpa using hx)) hd, withBlock_after, withBlock_twice, after_after]

/-- POWER_UP whose next poll is the last and does not show them. -/
theorem powerUp_timeout (hn : n + 1 = s.params.pwrPolls)
    (h : ((s.after before).withBlock b).meets x → checkedPoll ((s.after before).withBlock b) =
      .ok v ((((s.after before).withBlock b).after x).withBlock b')) (hd : b'.dpPowered = false) :
    exec .powerUp s = .next (((s.after (before.andThen x)).withBlock b').failed .powerUp s.st.selectCache
      (.timeout .powerUp s.params.pwrPolls)) := by
  obtain ⟨hbefore, hx⟩ := meets_andThen.mp hm
  have last : s.params.pwrPolls - n = 1 := by omega
  have runs : RunsAs .powerUp s (powerUpBody s) := runsAs_host hc rfl (by simp) rfl
  refine runs.failed ?_
  rw [hb hbefore, last, powerPolls_last (h (by simpa using hx)) hd, withBlock_after, withBlock_twice, after_after]

/-- POWER_UP whose next poll fails. -/
theorem powerUp_failed {e : Error} (hn : n < s.params.pwrPolls)
    (h : ((s.after before).withBlock b).meets x → checkedPoll ((s.after before).withBlock b) =
      .stop e ((((s.after before).withBlock b).after x).withBlock b')) :
    exec .powerUp s =
      .next (((s.after (before.andThen x)).withBlock b').failed .powerUp s.st.selectCache e) := by
  obtain ⟨hbefore, hx⟩ := meets_andThen.mp hm
  obtain ⟨left, hleft⟩ : ∃ left, s.params.pwrPolls - n = left + 1 := ⟨s.params.pwrPolls - n - 1, by omega⟩
  have runs : RunsAs .powerUp s (powerUpBody s) := runsAs_host hc rfl (by simp) rfl
  refine runs.failed ?_
  rw [hb hbefore, hleft, powerPolls_stop (h (by simpa using hx)), withBlock_after, withBlock_twice, after_after]

end

/-- The block after polls that returned these values, one after the other (42_dpap_commands.md R204). -/
def Block.polled (b : Block) : List Word → Block
  | [] => b
  | v :: vs => (b.observed v).polled vs

/-- Polls change what is known of CTRL/STAT only, and the next poll overwrites that. -/
theorem polled_eq (vs : List Word) :
    ∀ b : Block, ∃ cs on, b.polled vs = { b with ctrlStatShadow := cs, dpPowered := on } := by
  induction vs with
  | nil => exact fun b => ⟨b.ctrlStatShadow, b.dpPowered, rfl⟩
  | cons v vs ih => exact fun b => ih (b.observed v)

@[simp] theorem polled_proto (b : Block) (vs : List Word) : (b.polled vs).proto = b.proto := by
  obtain ⟨cs, on, h⟩ := polled_eq vs b
  rw [h]

@[simp] theorem polled_tap (b : Block) (vs : List Word) : (b.polled vs).tap = b.tap := by
  obtain ⟨cs, on, h⟩ := polled_eq vs b
  rw [h]

@[simp] theorem polled_irCache (b : Block) (vs : List Word) : (b.polled vs).irCache = b.irCache := by
  obtain ⟨cs, on, h⟩ := polled_eq vs b
  rw [h]

@[simp] theorem observed_polled (b : Block) (vs : List Word) (v : Word) : (b.polled vs).observed v = b.observed v := by
  obtain ⟨cs, on, h⟩ := polled_eq vs b
  rw [h]
  rfl

@[simp] theorem cleared_polled (b : Block) (vs : List Word) (v : Word) : (b.polled vs).cleared v = b.cleared v := by
  rw [Block.cleared, observed_polled, Block.cleared]

/-! ## Polls over SWD -/

section

variable {p : Params} {s : State} {v : Word} {t u w : SwdTry} (hs : s.params = p) (hp : s.st.proto = some .swd)
  (ht : t.fits p)

include hs hp ht

/-- A poll that sees no sticky bit (60_exceptions.md R263). -/
theorem checkedPoll_swd (hv : sticky v = false) (h : s.meets (swdReadOkX p false 1 v t)) :
    checkedPoll s = .ok v ((s.after (swdReadOkX p false 1 v t)).withBlock (s.st.observed v)) := by
  rw [checkedPoll, poll_swd hp hs ht h, check_ok, Run.bind_ok, stickyStop_clean hv]

/-- A poll that sees one: the event, the ABORT write of what was seen, and the failure (60_exceptions.md R263, R264). -/
theorem checkedPoll_swd_sticky (hu : u.fits p) (hv : sticky v = true)
    (h : s.meets (((swdReadOkX p false 1 v t).andThen pulse).andThen (swdClearX p v u))) :
    checkedPoll s = .stop (.accessFault .stickyObserved (some v) false)
      ((s.after (((swdReadOkX p false 1 v t).andThen pulse).andThen (swdClearX p v u))).withBlock
        (s.st.cleared v)) := by
  subst hs
  obtain ⟨hread, hclear⟩ := meets_andThen.mp h
  rw [checkedPoll, poll_swd hp rfl ht (meets_andThen.mp hread).1, check_ok, Run.bind_ok, stickyStop_sticky hv,
    scs_polled_swd (u := u) (by simpa [Block.observed] using hp) (by simpa using hu) (by simpa using hclear)]
  simp [Block.cleared, Block.observed, andThen_assoc]

/-- A poll answered FAULT runs the whole sticky-clear sequence (60_exceptions.md R262, R264). -/
theorem checkedPoll_swd_fault (hu : u.fits p) (hw : w.fits p)
    (h : s.meets ((swdFaultX p false true 1 t).andThen (swdScsX p v u w))) :
    checkedPoll s = .stop (.accessFault .ackFault (some v) false)
      ((s.after ((swdFaultX p false true 1 t).andThen (swdScsX p v u w))).withBlock (s.st.cleared v)) := by
  subst hs
  obtain ⟨hfault, hscs⟩ := meets_andThen.mp h
  rw [checkedPoll, poll, dpRead_swd hp, aCtrlStat, swdXfer_fault rfl ht hfault, Run.bind_stop, check_fault,
    scs_fault_swd (by simpa using hp) (by simpa using hu) (by simpa using hw) (by simpa using hscs), Run.bind_stop]
  simp

/-- So does a poll whose data has the wrong parity. -/
theorem checkedPoll_swd_parity {data : Word} (hu : u.fits p) (hw : w.fits p)
    (h : s.meets ((swdDataX p false 1 (badData data) t).andThen (swdScsX p v u w))) :
    checkedPoll s = .stop (.accessFault .parity (some v) false)
      ((s.after ((swdDataX p false 1 (badData data) t).andThen (swdScsX p v u w))).withBlock (s.st.cleared v)) := by
  subst hs
  obtain ⟨hread, hscs⟩ := meets_andThen.mp h
  rw [checkedPoll, poll, dpRead_swd hp, aCtrlStat, swdXfer_parity rfl ht (swdData_bad data) hread, Run.bind_stop,
    check_parity, scs_fault_swd (by simpa using hp) (by simpa using hu) (by simpa using hw) (by simpa using hscs),
    Run.bind_stop]
  simp

end

/-- Settles O33: the request and the host command are a checked poll. -/
theorem swdCtrlStatRead : Obligations.SwdCtrlStatRead := by
  unfold Obligations.SwdCtrlStatRead
  intro i hi s v t u hc ht hu
  have runs : RunsAs i s ((checkedPoll s).bind fun v t => .ok (some v) t) := by
    rw [← readDpReg_ctrlStat]
    simp only [List.mem_cons, List.not_mem_nil, or_false] at hi
    rcases hi with rfl | rfl
    · exact runsAs_request hc rfl rfl
    · exact runsAs_readDp hc rfl
  refine ⟨fun hv hm => runs.replied ?_, fun hv hm => runs.failed ?_⟩
  · rw [checkedPoll_swd rfl hc.proto ht hv hm, Run.bind_ok]
  · rw [checkedPoll_swd_sticky rfl hc.proto ht hu hv hm, Run.bind_stop]

/-! ## POWER_UP over SWD (42_dpap_commands.md R218) -/

/-- Polls of POWER_UP that show neither a sticky bit nor both acknowledges use up so many of those left. -/
theorem powerPolls_swd {p : Params} (total : Nat) (qs : List (Word × SwdTry)) :
    ∀ {s : State} {left : Nat}, s.params = p → s.st.proto = some .swd → qs.length ≤ left →
      (∀ q ∈ qs, sticky q.1 = false ∧ powered q.1 = false ∧ SwdTry.fits q.2 p) → s.meets (swdPollsX p qs) →
      powerPolls total left s = powerPolls total (left - qs.length)
        ((s.after (swdPollsX p qs)).withBlock (s.st.polled (qs.map Prod.fst))) := by
  induction qs with
  | nil =>
    intro s left _ _ _ _ _
    simp [swdPollsX, Block.polled]
  | cons q qs ih =>
    intro s left hs hp hl hq hm
    obtain ⟨n, rfl⟩ : ∃ n, left = n + 1 := ⟨left - 1, by simp at hl; omega⟩
    obtain ⟨⟨hclean, hoff, hfits⟩, hrest⟩ := List.forall_mem_cons.mp hq
    obtain ⟨hread, hpolls⟩ := meets_andThen.mp hm
    rw [powerPolls_unpowered (checkedPoll_swd hs hp hfits hclean hread) hoff,
      ih (by simpa using hs) (by exact hp) (by simpa using hl) hrest (by simpa using hpolls), List.length_cons,
      Nat.add_sub_add_right, withBlock_after, after_after]
    rfl

/-- POWER_UP up to the poll that decides it: the write of the requests, and the polls before. -/
theorem powerUp_pollsOn_swd {s : State} {w : SwdTry} {qs : List (Word × SwdTry)} (hp : s.st.proto = some .swd)
    (hw : w.fits s.params) (hl : qs.length ≤ s.params.pwrPolls)
    (hq : ∀ q ∈ qs, sticky q.1 = false ∧ powered q.1 = false ∧ SwdTry.fits q.2 s.params) :
    PollsOn s ((swdWriteOkX s.params false 1 0x50000000 w).andThen (swdPollsX s.params qs)) qs.length
      (s.st.polled (qs.map Prod.fst)) := by
  intro h
  obtain ⟨hwrite, hpolls⟩ := meets_andThen.mp h
  rw [powerUpBody, dpWrite_swd hp, aCtrlStat, pwrupReq, swdXfer_writeOk rfl hw hwrite, check_ok, Run.bind_ok,
    after_params, powerPolls_swd _ qs (after_params ..) (by simpa using hp) hl hq hpolls, after_after, after_st]

/-- Settles O38: the write and the polls that do not decide, then the poll that does. -/
theorem swdPowerUp : Obligations.SwdPowerUp := by
  unfold Obligations.SwdPowerUp
  intro s w qs v data t u z hc hw ht hu hz hq before x y fails
  have hp : (s.st.polled (qs.map Prod.fst)).proto = some .swd := by simpa using hc.proto
  have pollsOn (hl : qs.length ≤ s.params.pwrPolls) := powerUp_pollsOn_swd hc.proto hw hl hq
  have hs : ((s.after before).withBlock (s.st.polled (qs.map Prod.fst))).params = s.params := after_params s before
  rw [← observed_polled s.st (qs.map Prod.fst), ← cleared_polled s.st (qs.map Prod.fst)]
  simp only [y, x, andThen_assoc before]
  refine ⟨fun hv hon hl hm => ?_, fun hv hoff hl hm => ?_, fun hv hl hm => ?_, fun hl => ⟨fun hm => ?_, fun hm => ?_⟩⟩
  · exact powerUp_replied hc (pollsOn hl.le) hm hl (checkedPoll_swd hs hp ht hv) hon
  · exact powerUp_timeout hc (pollsOn (by omega)) hm hl (checkedPoll_swd hs hp ht hv) hoff
  · exact powerUp_failed hc (pollsOn hl.le) hm hl (checkedPoll_swd_sticky hs hp ht hu hv)
  · exact powerUp_failed hc (pollsOn hl.le) hm hl (checkedPoll_swd_fault hs hp ht hu hz)
  · exact powerUp_failed hc (pollsOn hl.le) hm hl (checkedPoll_swd_parity hs hp ht hu hz)

end Sys2Proof.Machine
end

section
/-! Proofs of the statements about polls over JTAG (42_dpap_commands.md R211, R218): the CTRL/STAT read and POWER_UP. -/

namespace Sys2Proof.Machine

/-! ## The CTRL/STAT read over JTAG (42_dpap_commands.md R211) -/

section

variable {p : Params} {c : Option (BitVec 4)} {s : State} {v prev : Word} {ir : Wire} {t u : JtagTry}
  (hs : s.params = p) (hp : s.st.proto = some .jtag) (hr : s.st.tap = some .rti) (hc : s.st.irCache = c)
  (ht : t.fits p) (hu : u.fits p)

include hs hp hr hc ht hu

/-- A poll, whatever IR code is held, that sees no sticky bit (60_exceptions.md R263). -/
theorem checkedPoll_jtagRead (hv : sticky v = false) (h : s.meets (jtagReadDpX c 1 prev v ir t u)) :
    checkedPoll s = .ok v ((s.after (jtagReadDpX c 1 prev v ir t u)).withBlock
      { s.st.observed v with irCache := some 0xA }) := by
  subst hs
  rw [checkedPoll, poll_jtag hp hc ht hu hr h, check_ok, Run.bind_ok, stickyStop_clean hv]

/-- A poll, whatever IR code is held, that sees one: the event and the clear that JTAG_STICKY_CLEAR chooses
(60_exceptions.md R263, R264, 41_jtag_tap.md R186). -/
theorem checkedPoll_jtagRead_sticky {prev' d' : Word} {ir' junk' : Wire} {out' : BitVec 35} {t' u' : JtagTry}
    (ht' : t'.fits p) (hu' : u'.fits p) (hv : sticky v = true)
    (h : s.meets (((jtagReadDpX c 1 prev v ir t u).andThen pulse).andThen
      (jtagClearX p v prev' d' ir' out' junk' t' u'))) :
    checkedPoll s = .stop (.accessFault .stickyObserved (some v) false)
      ((s.after (((jtagReadDpX c 1 prev v ir t u).andThen pulse).andThen
        (jtagClearX p v prev' d' ir' out' junk' t' u'))).withBlock
          { s.st.cleared v with irCache := some (clearIr p) }) := by
  subst hs
  rw [andThen_assoc] at h ⊢
  obtain ⟨hread, hscs⟩ := meets_andThen.mp h
  rw [checkedPoll, poll_jtag hp hc ht hu hr hread, check_ok, Run.bind_ok, stickyStop_sticky hv,
    scs_polled_jtag (by simpa [Block.observed] using hp) (by simpa [Block.observed] using hr) rfl (by simpa using ht')
      (by simpa using hu') hv (by simpa using hscs)]
  simp [Block.cleared, Block.observed]

end

/-- Settles O43: the request and the host command are a checked poll. -/
theorem jtagCtrlStatRead : Obligations.JtagCtrlStatRead := by
  unfold Obligations.JtagCtrlStatRead
  intro i hi s prev v prev' d' ir ir' junk' out' t u t' u' hc ht hu ht' hu'
  have runs : RunsAs i s ((checkedPoll s).bind fun v t => .ok (some v) t) := by
    rw [← readDpReg_ctrlStat]
    simp only [List.mem_cons, List.not_mem_nil, or_false] at hi
    rcases hi with rfl | rfl
    · exact runsAs_request hc.toConnected rfl rfl
    · exact runsAs_readDp hc.toConnected rfl
  refine ⟨fun hv hm => runs.replied ?_, fun hv hm => runs.failed ?_⟩
  · rw [checkedPoll_jtagRead rfl hc.proto hc.tap rfl ht hu hv hm, Run.bind_ok]
  · rw [checkedPoll_jtagRead_sticky rfl hc.proto hc.tap rfl ht hu ht' hu' hv hm, Run.bind_stop]

/-! ## POWER_UP over JTAG (42_dpap_commands.md R218) -/

/-- A poll that finds DPACC held leaves it held. -/
theorem observed_irHeld {b : Block} (h : b.irCache = some 0xA) (v : Word) :
    { b.observed v with irCache := some 0xA } = b.observed v := by
  rw [← h]
  rfl

/-- Polls of POWER_UP that show neither a sticky bit nor both acknowledges use up so many of those left. -/
theorem powerPolls_jtag (total : Nat) (qs : List JtagPoll) :
    ∀ {s : State} {left : Nat}, s.st.proto = some .jtag → s.st.tap = some .rti → s.st.irCache = some 0xA →
      qs.length ≤ left → (∀ q ∈ qs, sticky q.value = false ∧ powered q.value = false ∧ q.fits s.params) →
      s.meets (jtagPollsX qs) →
      powerPolls total left s = powerPolls total (left - qs.length)
        ((s.after (jtagPollsX qs)).withBlock (s.st.polled (qs.map JtagPoll.value))) := by
  induction qs with
  | nil =>
    intro s left _ _ _ _ _ _
    simp [jtagPollsX, Block.polled]
  | cons q qs ih =>
    intro s left hp hr hi hl hq hm
    obtain ⟨n, rfl⟩ : ∃ n, left = n + 1 := ⟨left - 1, by simp at hl; omega⟩
    obtain ⟨⟨hclean, hoff, hfits⟩, hrest⟩ := List.forall_mem_cons.mp hq
    obtain ⟨hread, hpolls⟩ := meets_andThen.mp hm
    have next := checkedPoll_jtag hp hr hi hfits hclean hread
    rw [observed_irHeld hi] at next
    rw [powerPolls_unpowered next hoff,
      ih (by exact hp) (by exact hr) (by exact hi) (by simpa using hl) (by simpa using hrest) (by simpa using hpolls),
      List.length_cons, Nat.add_sub_add_right, withBlock_after, after_after]
    rfl

/-- POWER_UP up to the poll that decides it: the write of the requests, and the polls before. -/
theorem powerUp_pollsOn_jtag {s : State} {prev d : Word} {ir : Wire} {t u : JtagTry} {qs : List JtagPoll}
    (hc : ConnectedJtag s) (ht : t.fits s.params) (hu : u.fits s.params) (hl : qs.length ≤ s.params.pwrPolls)
    (hq : ∀ q ∈ qs, sticky q.value = false ∧ powered q.value = false ∧ q.fits s.params) :
    PollsOn s ((jtagWriteDpX s.st.irCache 1 0x50000000 prev d ir t u).andThen (jtagPollsX qs)) qs.length
      ({ s.st with irCache := some 0xA }.polled (qs.map JtagPoll.value)) := by
  intro h
  obtain ⟨hwrite, hpolls⟩ := meets_andThen.mp h
  rw [powerUpBody, dpWrite_jtag hc.proto (by decide), aCtrlStat, pwrupReq, jtagWriteDp_X rfl ht hu hc.tap hwrite,
    check_ok, Run.bind_ok, powerPolls_jtag _ qs (by exact hc.proto) (by exact hc.tap) rfl (by simpa using hl) (by simpa using hq)
      (by simpa using hpolls), withBlock_after, after_after]
  simp

/-- Settles O49: the write and the polls that do not decide, then the poll that does. -/
theorem jtagPowerUp : Obligations.JtagPowerUp := by
  unfold Obligations.JtagPowerUp
  intro s prev d prev' d' ir ir' junk' out' t u t' u' qs q hc ht hu ht' hu' hfits hq x y block
  have pollsOn (hl : qs.length ≤ s.params.pwrPolls) :=
    powerUp_pollsOn_jtag (prev := prev) (d := d) (ir := ir) hc ht hu hl hq
  generalize hb : ({ s.st with irCache := some 0xA } : Block).polled (qs.map JtagPoll.value) = b at pollsOn
  have hp : b.proto = some .jtag := by simpa [← hb] using hc.proto
  have hr : b.tap = some .rti := by simpa [← hb] using hc.tap
  have hi : b.irCache = some 0xA := by simp [← hb]
  have observed : block = { b.observed q.value with irCache := some 0xA } := by
    rw [← hb, observed_polled]
    rfl
  have cleared : { s.st.cleared q.value with irCache := some (clearIr s.params) } =
      { b.cleared q.value with irCache := some (clearIr s.params) } := by
    rw [← hb, cleared_polled]
    rfl
  have hs (before : Exchange) : ((s.after before).withBlock b).params = s.params := after_params s before
  rw [observed, cleared]
  refine ⟨fun hv hon hl hm => ?_, fun hv hoff hl hm => ?_, fun hv hl hm => ?_⟩
  · exact powerUp_replied hc.toConnected (pollsOn hl.le) hm hl
      (checkedPoll_jtagRead (hs _) hp hr hi hfits.1 hfits.2 hv) hon
  · exact powerUp_timeout hc.toConnected (pollsOn (by omega)) hm hl
      (checkedPoll_jtagRead (hs _) hp hr hi hfits.1 hfits.2 hv) hoff
  · simp only [y, x, andThen_assoc _ q.exchange pulse, andThen_assoc _ (q.exchange.andThen pulse)] at hm ⊢
    exact powerUp_failed hc.toConnected (pollsOn hl.le) hm hl
      (checkedPoll_jtagRead_sticky (hs _) hp hr hi hfits.1 hfits.2 ht' hu' hv)

end Sys2Proof.Machine
end

section
/-! Proofs of the statements about CONNECT (42_dpap_commands.md R206 to R208), over either link. -/

namespace Sys2Proof.Machine

/-- The block as CONNECT opens it: every field at its reset value but the protocol (42_dpap_commands.md R206, R207). -/
abbrev Block.opening (p : Protocol) : Block := { Block.reset with proto := some p }

theorem connectStart_eq (p : Protocol) (s : State) :
    connectStart p s = (s.after pulse).withBlock (Block.opening p) := rfl

/-- Either CONNECT runs its body in every link state but Disconnected, whatever the block holds. -/
theorem runsAs_connectSwd {s : State} (hl : s.st.link ≠ .disconnected) : RunsAs .connectSwd s (connectSwdBody s) :=
  congrArg Host.Outcome.next (runEarly_open hl rfl)

theorem runsAs_connectJtag {s : State} (hl : s.st.link ≠ .disconnected) : RunsAs .connectJtag s (connectJtagBody s) :=
  congrArg Host.Outcome.next (runEarly_open hl rfl)

/-- The last line of CONNECT, as a block put in place. -/
theorem connectDone_eq (id : Word) (s : State) :
    connectDone id s = s.withBlock { s.st with link := .ready, selectCache := some 0, dpIdcode := some id } := rfl

/-! ## CONNECT over SWD (42_dpap_commands.md R206) -/

/-- What CONNECT over SWD does after its line reset. -/
def connectSwdRest (s : State) : Run Error (Option Word) :=
  (connectCheck (swdXfer false true 0 0 s)).bind fun id s =>
  (connectCheck (swdXfer false false 0 abortAllClear s)).bind fun _ s =>
  (connectCheck (swdXfer false false aSelect 0 s)).bind fun _ s =>
  .ok (some id) (connectDone id s)

/-- The state after the event and the line reset that CONNECT over SWD begins with. -/
def swdOpened (s : State) (junk : Wire) : State :=
  (s.after (pulse.andThen (lineResetX junk))).withBlock (Block.opening .swd)

@[simp] theorem swdOpened_st (s : State) (junk : Wire) : (swdOpened s junk).st = Block.opening .swd := rfl
@[simp] theorem swdOpened_params (s : State) (junk : Wire) : (swdOpened s junk).params = s.params := after_params s _
@[simp] theorem swdOpened_meets (s : State) (junk : Wire) (x : Exchange) :
    (swdOpened s junk).meets x = (s.after (pulse.andThen (lineResetX junk))).meets x := withBlock_meets ..
@[simp] theorem swdOpened_after (s : State) (junk : Wire) (x : Exchange) :
    (swdOpened s junk).after x =
      (s.after ((pulse.andThen (lineResetX junk)).andThen x)).withBlock (Block.opening .swd) := by
  rw [swdOpened, withBlock_after, after_after]

/-- CONNECT over SWD up to its DPIDR read. -/
theorem connectSwdBody_eq {s : State} {junk : Wire} (hc : s.params.caps.swd = true)
    (h : s.meets (pulse.andThen (lineResetX junk))) : connectSwdBody s = connectSwdRest (swdOpened s junk) := by
  obtain ⟨-, hreset⟩ := meets_andThen.mp h
  rw [connectSwdBody, connectStart_eq, resetLine_X (by simpa using hc) (by simpa using hreset), connectCheck_ok,
    Run.bind_ok, withBlock_after, after_after]
  rfl

/-- The three transactions after it, all OK. -/
theorem connectSwdRest_X {p : Params} {s : State} {id : Word} {t u w : SwdTry} (hs : s.params = p) (ht : t.fits p)
    (hu : u.fits p) (hw : w.fits p)
    (h : s.meets (((swdReadOkX p false 0 id t).andThen (swdWriteOkX p false 0 0x1E u)).andThen
      (swdWriteOkX p false 2 0 w))) :
    connectSwdRest s = .ok (some id) (connectDone id (s.after (((swdReadOkX p false 0 id t).andThen
      (swdWriteOkX p false 0 0x1E u)).andThen (swdWriteOkX p false 2 0 w)))) := by
  obtain ⟨hra, hselect⟩ := meets_andThen.mp h
  obtain ⟨hread, habort⟩ := meets_andThen.mp hra
  rw [connectSwdRest, swdXfer_readOk hs ht hread, connectCheck_ok, Run.bind_ok, abortAllClear,
    swdXfer_writeOk (by simpa using hs) hu habort, connectCheck_ok, Run.bind_ok, after_after, aSelect,
    swdXfer_writeOk (by simpa using hs) hw hselect, connectCheck_ok, Run.bind_ok, after_after]

/-- Settles O39: the line reset and the three transactions, and the block they leave. -/
theorem swdConnect : Obligations.SwdConnect := by
  unfold Obligations.SwdConnect
  intro s junk id t u w hl hc ht hu hw x hm
  simp only [x, andThen_assoc (pulse.andThen (lineResetX junk))] at hm ⊢
  obtain ⟨hreset, hrest⟩ := meets_andThen.mp hm
  refine (runsAs_connectSwd hl).replied ?_
  rw [connectSwdBody_eq hc hreset, connectSwdRest_X (swdOpened_params s junk) ht hu hw (by simpa using hrest),
    connectDone_eq, swdOpened_after]
  rfl

/-! ## CONNECT over JTAG (42_dpap_commands.md R207) -/

/-- What CONNECT over JTAG does after its ABORT scan, the identity read. -/
def connectJtagRest (id : Word) (s : State) : Run Error (Option Word) :=
  (connectCheck (jtagWriteDp aSelect 0 s)).bind fun _ s => .ok (some id) (connectDone id s)

/-- The exchange of CONNECT over JTAG up to its SELECT write: the event, TapReset, the identity and the ABORT scan. -/
abbrev connectJtagX (tdo irE junkE ir8 junk8 : Wire) (id : Word) (out : BitVec 35) : Exchange :=
  ((pulse.andThen (tapResetX tdo)).andThen (jtagIdcodeX none id irE junkE)).andThen
    (jtagAbortX (some 0xE) 0x1E ir8 out junk8)

/-- The block when CONNECT over JTAG comes to its SELECT write: the TAP idle, an IR code held. -/
abbrev Block.tapOpened (ir : BitVec 4) : Block := { Block.opening .jtag with tap := some .rti, irCache := some ir }

/-- CONNECT over JTAG up to its SELECT write, which finds the ABORT code held. -/
theorem connectJtagBody_eq {s : State} {tdo irE junkE ir8 junk8 : Wire} {id : Word} {out : BitVec 35}
    (hc : s.params.caps.jtag = true) (h : s.meets (connectJtagX tdo irE junkE ir8 junk8 id out)) :
    connectJtagBody s =
      connectJtagRest id ((s.after (connectJtagX tdo irE junkE ir8 junk8 id out)).withBlock (Block.tapOpened 0x8)) := by
  obtain ⟨hri, habort⟩ := meets_andThen.mp h
  obtain ⟨hpr, hidcode⟩ := meets_andThen.mp hri
  obtain ⟨-, hreset⟩ := meets_andThen.mp hpr
  rw [connectJtagBody, connectStart_eq, tapReset_X (by simpa using hc) (by simpa using hreset), connectCheck_ok,
    Run.bind_ok, withBlock_after, withBlock_twice, after_after, jtagIdcode_X rfl rfl (by simpa using hidcode),
    connectCheck_ok, Run.bind_ok, withBlock_after, withBlock_twice, after_after, abortAllClear,
    jtagAbort_X rfl rfl (by simpa using habort), connectCheck_ok, Run.bind_ok, withBlock_after, withBlock_twice,
    after_after]
  rfl

/-- Settles O50: up to the SELECT write, and the write with its flush. -/
theorem jtagConnect : Obligations.JtagConnect := by
  unfold Obligations.JtagConnect
  intro s tdo irE junkE ir8 junk8 irA id prev d out t u hl hc ht hu x hm
  obtain ⟨hopen, hselect⟩ := meets_andThen.mp hm
  refine (runsAs_connectJtag hl).replied ?_
  rw [connectJtagBody_eq hc hopen, connectJtagRest, aSelect,
    jtagWriteDp_X rfl (by simpa using ht) (by simpa using hu) rfl
      (by simpa [connectJtagX] using hselect),
    connectCheck_ok, Run.bind_ok, connectDone_eq, withBlock_after, after_after]
  rfl

/-! ## A CONNECT that fails (42_dpap_commands.md R208) -/

/-- A failed transaction of CONNECT ends it, whatever would have followed. -/
theorem connectCheck_stop_bind {α β : Type} (f : LinkFail) (t : State) (g : α → State → Run Error β) :
    (connectCheck (.stop f t : Run LinkFail α)).bind g = connectCheck (.stop f t) := by
  cases f <;> rfl

/-- A call the probe lacks the protocol for is answered Unsupported, whatever is drawn (00_scope.md R9; log 3). -/
theorem transportCall_unsupported (a : Answer) (record : Answer → Obs) (s : State) :
    transportCall false record s = .stop .unsupported (s.after ⟨[a], [record .unsupported]⟩) := by
  simp [transportCall, capAnswer, emit, State.after, skipped, nextAnswer_trace]

/-- CONNECT over SWD on a probe without SWD: one call. -/
theorem connectSwdBody_missing {s : State} (a : Answer) (hc : s.params.caps.swd = false) :
    connectSwdBody s = .stop .unsupported ((s.after ⟨[a], [.apShadowInvalidate, .resetLine .unsupported]⟩).withBlock
      (Block.opening .swd)) := by
  rw [connectSwdBody, connectStart_eq, resetLine, withBlock_params, after_params, hc, transportCall_unsupported a,
    Run.bind_stop, connectCheck_unsupported, Run.bind_stop, withBlock_after, withBlock_twice, after_after]
  rfl

/-- CONNECT over JTAG on a probe without JTAG: one call. -/
theorem connectJtagBody_missing {s : State} (a : Answer) (hc : s.params.caps.jtag = false) :
    connectJtagBody s = .stop .unsupported
      ((s.after ⟨[a], [.apShadowInvalidate, .jtagSeq 6 0x1F 0 .unsupported]⟩).withBlock (Block.opening .jtag)) := by
  rw [connectJtagBody, connectStart_eq, tapReset, jtagSeq, withBlock_params, after_params, hc,
    transportCall_unsupported a]
  simp only [Run.bind_stop, connectCheck_unsupported, setTap_eq, withBlock_after, withBlock_twice, after_after]
  rfl

/-- CONNECT over SWD whose DPIDR read fails ends as that failure says. -/
theorem connectSwd_fails {s t : State} {junk : Wire} {x : Exchange} {f : LinkFail} (hl : s.st.link ≠ .disconnected)
    (hc : s.params.caps.swd = true) (hm : s.meets ((pulse.andThen (lineResetX junk)).andThen x))
    (h : (swdOpened s junk).meets x → swdXfer false true 0 0 (swdOpened s junk) = .stop f t) :
    RunsAs .connectSwd s (connectCheck (.stop f t)) := by
  obtain ⟨hreset, hx⟩ := meets_andThen.mp hm
  have runs := runsAs_connectSwd hl
  rwa [connectSwdBody_eq hc hreset, connectSwdRest, h (by simpa using hx), connectCheck_stop_bind] at runs

/-- The state in which CONNECT over JTAG makes its SELECT write, its IR scan made: the exchange so far is `x`. -/
def jtagSelecting (s : State) (x : Exchange) : State := (s.after x).withBlock (Block.tapOpened 0xA)

@[simp] theorem jtagSelecting_st (s : State) (x : Exchange) : (jtagSelecting s x).st = Block.tapOpened 0xA := rfl
@[simp] theorem jtagSelecting_params (s : State) (x : Exchange) : (jtagSelecting s x).params = s.params :=
  after_params s x
@[simp] theorem jtagSelecting_meets (s : State) (x y : Exchange) : (jtagSelecting s x).meets y = (s.after x).meets y :=
  withBlock_meets ..
@[simp] theorem jtagSelecting_after (s : State) (x y : Exchange) :
    (jtagSelecting s x).after y = (s.after (x.andThen y)).withBlock (Block.tapOpened 0xA) := by
  rw [jtagSelecting, withBlock_after, after_after]

/-- A DP write over JTAG whose transaction fails, its IR code in place. -/
theorem jtagWriteDp_stop {s t u : State} {a : BitVec 2} {v : Word} {f : LinkFail}
    (hir : ensureIr irCodeDpacc s = .ok () u) (h : jtagXpacc false a v u = .stop f t) :
    jtagWriteDp a v s = .stop f t := by
  rw [jtagWriteDp, hir, Run.bind_ok, h, Run.bind_stop]

/-- The IR scan of CONNECT's SELECT write. -/
theorem ensureIr_tapOpened {s : State} {x : Exchange} {irA : Wire} (h : (s.after x).meets (irScanX 0xA irA)) :
    ensureIr irCodeDpacc ((s.after x).withBlock (Block.tapOpened 0x8)) =
      .ok () (jtagSelecting s (x.andThen (irScanX 0xA irA))) := by
  have scan : ensureIrX (some 0x8) 0xA irA = irScanX 0xA irA := if_neg (by decide)
  rw [irCodeDpacc, ensureIr_X (c := some 0x8) (tdo := irA) rfl (by rw [scan, withBlock_meets]; exact h) rfl, scan,
    withBlock_after, withBlock_twice, after_after]
  rfl

/-- CONNECT over JTAG whose SELECT write fails ends as that failure says. -/
theorem connectJtag_fails {s t : State} {tdo irE junkE ir8 junk8 irA : Wire} {id : Word} {out : BitVec 35}
    {x : Exchange} {f : LinkFail} (hl : s.st.link ≠ .disconnected) (hc : s.params.caps.jtag = true)
    (hm : s.meets (((connectJtagX tdo irE junkE ir8 junk8 id out).andThen (irScanX 0xA irA)).andThen x))
    (h : (jtagSelecting s ((connectJtagX tdo irE junkE ir8 junk8 id out).andThen (irScanX 0xA irA))).meets x →
      jtagXpacc false 2 0
        (jtagSelecting s ((connectJtagX tdo irE junkE ir8 junk8 id out).andThen (irScanX 0xA irA))) = .stop f t) :
    RunsAs .connectJtag s (connectCheck (.stop f t)) := by
  obtain ⟨hi, hx⟩ := meets_andThen.mp hm
  obtain ⟨hopen, hscan⟩ := meets_andThen.mp hi
  have runs := runsAs_connectJtag hl
  rwa [connectJtagBody_eq hc hopen, connectJtagRest, aSelect,
    jtagWriteDp_stop (ensureIr_tapOpened hscan) (h (by simpa using hx)), connectCheck_stop_bind] at runs

/-- Settles O59, by the transaction that fails and how it does. -/
theorem connectFailures : Obligations.ConnectFailures := by
  unfold Obligations.ConnectFailures
  intro s a hl opened fails
  refine ⟨fun hc _ => ?_, fun hc _ => ?_, ?_, ?_⟩
  · exact (runsAs_connectSwd hl).failed (connectSwdBody_missing a hc)
  · exact (runsAs_connectJtag hl).failed (connectJtagBody_missing a hc)
  · intro junk data k js t hc ht hjs hk at_ closed
    have hs := swdOpened_params s junk
    refine ⟨fun hm => ?_, fun hm => ?_, fun hm => ?_, fun hm => ?_, fun hm => ?_, fun hm => ?_⟩
    · exact (connectSwd_fails hl hc hm (swdXfer_fault hs ht)).failed (by rw [swdOpened_after]; rfl)
    · exact (connectSwd_fails hl hc hm (swdXfer_parity hs ht (swdData_bad data))).failed (by rw [swdOpened_after]; rfl)
    · exact (connectSwd_fails hl hc hm (swdXfer_timeout hs hjs)).failed (by rw [swdOpened_after]; rfl)
    · exact (connectSwd_fails hl hc hm (swdXfer_invalid hs ht (swdAck_invalid k hk))).failed
        (by rw [swdOpened_after]; rfl)
    · exact (connectSwd_fails hl hc hm (swdXfer_lost (by simp))).failed (by rw [swdOpened_after]; rfl)
    · exact (connectSwd_fails hl hc hm (swdXfer_lost (by simp))).failed (by rw [swdOpened_after]; rfl)
  · intro tdo irE junkE ir8 junk8 irA id d out k scans t hc ht hlen hk at_
    refine ⟨fun hm => ?_, fun hm => ?_, fun hm => ?_, fun hm => ?_⟩
    · exact (connectJtag_fails hl hc hm (jtagXpacc_timeout (by simpa using hlen) rfl)).failed
        (by rw [jtagSelecting_after, jtagSelecting_params]; rfl)
    · exact (connectJtag_fails hl hc hm (jtagXpacc_invalid (by simpa using ht) rfl (jtagAck_invalid k hk))).failed
        (by rw [jtagSelecting_after]; rfl)
    · exact (connectJtag_fails hl hc hm (jtagXpacc_lost (by simp))).failed (by rw [jtagSelecting_after]; rfl)
    · exact (connectJtag_fails hl hc hm (jtagXpacc_lost (by simp))).failed (by rw [jtagSelecting_after]; rfl)

end Sys2Proof.Machine
end

section
/-! Proofs of the exception statements (60_exceptions.md): the event, Disconnected, the error records, and what becomes of
a command when a transaction faults or a clear is pending. -/

namespace Sys2Proof.Machine

/-! ## Statements about every instruction -/

/-- Settles O22: whatever an instruction that answers has done, its trace signals a change of SELECT. -/
theorem selectChangeIsSignalled : Obligations.SelectChangeIsSignalled := by
  unfold Obligations.SelectChangeIsSignalled
  intro i s t h
  obtain ⟨own, n, answered⟩ := exec_answered h
  exact answered.signal

/-- CONNECT and SET_CLOCK answer what their checks answer too. -/
theorem runEarly_stopped {i : Instr} {body : State → Run Error (Option Word)} {s : State} {e : Error}
    (h : precheckEarly (refusalOf s.st.proto i) s = some e) : runEarly i body s = s.failed i s.st.selectCache e := by
  rw [runEarly, h]
  exact finish_stop i s.st.selectCache e s

/-- Disconnected comes first in the checks, whatever the refusal table says (42_dpap_commands.md R200). -/
theorem precheck_disconnected {refusal : Option Reason} {ap : Bool} {s : State} (h : s.st.link = .disconnected) :
    precheck refusal ap s = some .disconnected :=
  if_pos h

theorem precheckEarly_disconnected {refusal : Option Reason} {s : State} (h : s.st.link = .disconnected) :
    precheckEarly refusal s = some .disconnected :=
  if_pos h

/-- Settles O24: the first check stops every instruction, CONNECT and SET_CLOCK too. -/
theorem disconnectedIsTerminal : Obligations.DisconnectedIsTerminal := by
  unfold Obligations.DisconnectedIsTerminal
  intro i s hl
  have early {i : Instr} {body : State → Run Error (Option Word)} :
      runEarly i body s = s.failed i s.st.selectCache .disconnected :=
    runEarly_stopped (precheckEarly_disconnected hl)
  cases i
  case connectSwd | connectJtag | setClock => exact congrArg Host.Outcome.next early
  all_goals exact exec_stopped nofun nofun nofun (precheck_disconnected hl)

/-- Settles O31, error by error. -/
theorem errorRecords : Obligations.ErrorRecords := by
  unfold Obligations.ErrorRecords
  intro c k n ack cause cs f r
  exact ⟨rfl, rfl, rfl, rfl, rfl, rfl, rfl, rfl, rfl⟩

/-! ## A FAULT on the first transaction over SWD (60_exceptions.md R262, R264, R270) -/

/-- What follows a computation and what follows that are one continuation. -/
theorem Run.bind_assoc {ε α β γ : Type} (r : Run ε α) (f : α → State → Run ε β) (g : β → State → Run ε γ) :
    (r.bind f).bind g = r.bind fun a s => (f a s).bind g := by
  cases r <;> rfl

/-- Where another SELECT is held, an AP access begins with its SELECT write (42_dpap_commands.md R205). -/
theorem ensureSelect_bind_eq {ap addr : Addr} {access : State → Run Error (Option Word)} {s : State}
    (h : s.st.selectCache ≠ some (requiredSelect ap addr)) :
    ∃ f, ((ensureSelect ap addr s).bind fun _ t => access t) =
      (check (selectWrite (requiredSelect ap addr) s)).bind f :=
  ⟨_, by rw [ensureSelect, if_neg h, Run.bind_assoc]⟩

/-- The host's AP accesses in another bank begin so. -/
theorem hostAp_begins_select {p : Protocol} {ap addr : Addr} {v : Word} {s : State} (haddr : addr.extractLsb' 0 2 = 0)
    (hc : Connected p s) (hd : s.st.dpPowered = true) (hs : s.st.selectCache ≠ some (requiredSelect ap addr)) :
    ∀ i ∈ [Instr.readAp ap addr, .writeAp ap addr v], Begins i s (selectWrite (requiredSelect ap addr) s) := by
  have begins {i : Instr} {access : State → Run Error (Option Word)}
      (hr : refusalOf s.st.proto i = none)
      (he : exec i s = .next (runReady i true (fun s => (ensureSelect ap addr s).bind fun _ t => access t) s)) :
      Begins i s (selectWrite (requiredSelect ap addr) s) := by
    obtain ⟨f, hf⟩ := ensureSelect_bind_eq (access := access) hs
    exact .of_exec (runsAs_host hc hr (fun _ => hd) he) hf
  have aligned := apAddrWF_of_aligned haddr
  simp only [List.forall_mem_cons]
  exact ⟨begins (if_pos aligned) rfl, begins (if_pos aligned) rfl, by simp⟩

/-- Settles O51: the transaction a command begins with stops in the SCS, the SELECT write of an AP access too. -/
theorem swdFaultRunsScs : Obligations.SwdFaultRunsScs := by
  unfold Obligations.SwdFaultRunsScs
  intro s ap addr v p t u w haddr hc ht hu hw
  refine ⟨fun i apndp rnw a a' cs sel hcs hsel hi ha hm => ?_, fun hd hs i hi hm => ?_⟩
  · have ⟨d, begins⟩ : ∃ d, Begins i s (swdXfer apndp rnw a' d s) := by
      rcases List.mem_append.mp hi with hi | hi
      · exact firstSwd_begins haddr hcs hsel hi hc ha
      · exact requestsSwd_begins hcs hsel hi hc ha
    exact begins.stop (check_swdXfer_fault hc.proto ht hu hw hm)
  · have begins := (hostAp_begins_select haddr hc hd hs i hi).of_eq (selectWrite_swd hc.proto _)
    exact begins.stop (check_swdXfer_fault hc.proto ht hu hw hm)

end Sys2Proof.Machine
end

section
/-! Proofs of the statement about the sticky-clear sequence (60_exceptions.md R264, R265): how the SCS of a DP read
fails. -/

namespace Sys2Proof.Machine

/-! ## How a sticky-clear sequence fails (60_exceptions.md R264, R265, R276, R284) -/

/-- The state in which the SCS makes its first call: SELECT forgotten, the event emitted. -/
def scsStart (s : State) : State := (s.after pulse).withBlock { s.st with selectCache := none }

@[simp] theorem scsStart_st (s : State) : (scsStart s).st = { s.st with selectCache := none } := rfl
@[simp] theorem scsStart_params (s : State) : (scsStart s).params = s.params := after_params s pulse
@[simp] theorem scsStart_meets (s : State) (x : Exchange) : (scsStart s).meets x ↔ s.meets (pulse.andThen x) := by
  simp [scsStart, meets_andThen]
@[simp] theorem scsStart_after (s : State) (x : Exchange) :
    (scsStart s).after x = (s.after (pulse.andThen x)).withBlock { s.st with selectCache := none } := by
  rw [scsStart, withBlock_after, after_after]

/-- An SCS with nothing polled begins with its poll. -/
theorem scs_none {α : Type} (cause : FaultCause) (s : State) :
    (scs cause none s : Run Error α) = clearStep (poll (scsStart s)) (clearFailed cause none) (scsClear cause) := rfl

/-- An SCS started by a polled value begins with its clear. -/
theorem scs_some {α : Type} (cause : FaultCause) (v : Word) (s : State) :
    (scs cause (some v) s : Run Error α) = scsClear cause v (scsStart s) := rfl

/-- A severe result leaves a block that does not depend on the SELECT held before it: none is held after it
(60_exceptions.md R272 to R274). -/
def Severe.ForgetsSelect (y : Severe) : Prop :=
  ∀ (b : Block) (v : Option Word), y.block { b with selectCache := v } = y.block b

theorem lostCall_forgetsSelect {x : Answer → Exchange} : ∀ y ∈ lostCall x, y.ForgetsSelect := by
  simp only [lostCall, List.forall_mem_cons]
  exact ⟨fun _ _ => rfl, fun _ _ => rfl, by simp⟩

theorem swdSevere_forgetsSelect {p : Params} {rnw : Bool} {a : BitVec 2} {k : BitVec 3} {t : SwdTry} :
    ∀ y ∈ swdSevere p rnw a k t, y.ForgetsSelect := by
  rw [swdSevere, List.forall_mem_cons]
  exact ⟨fun _ _ => rfl, lostCall_forgetsSelect⟩

theorem jtagSevere_forgetsSelect {rnw : Bool} {a : BitVec 2} {data d : Word} {k : BitVec 3} {t : JtagTry} :
    ∀ y ∈ jtagSevere rnw a data d k t, y.ForgetsSelect := by
  rw [jtagSevere, List.forall_mem_cons]
  exact ⟨fun _ _ => rfl, lostCall_forgetsSelect⟩

theorem jtagClearSevere_forgetsSelect {p : Params} {v d : Word} {k : BitVec 3} {ir : Wire} {t : JtagTry} :
    ∀ y ∈ jtagClearSevere p v d k ir t, y.ForgetsSelect := by
  unfold jtagClearSevere
  cases p.jtagStickyClear with
  | abortWrite =>
    intro y hy
    rcases List.mem_append.mp hy with hy | hy
    · exact lostCall_forgetsSelect y hy
    · obtain ⟨z, hz, rfl⟩ := List.mem_map.mp hy
      exact lostCall_forgetsSelect z hz
  | ctrlStatW1C => exact jtagSevere_forgetsSelect

section

variable {α : Type} {cause : FaultCause} {v : Word} {s : State}

/-- The clear write of an SCS fails: the clear is pending (60_exceptions.md R265). -/
theorem scsClear_failed {y : Exchange} (hs : sticky v = true)
    (h : ∀ (f : State → Run Error α) n, clearStep (writeClear v s) f n = f (s.after y)) :
    scsClear cause v s = (.stop (.accessFault cause (some v) true)
      ((s.after y).withBlock { s.st with clearPending := true }) : Run Error α) := by
  rw [scsClear, if_pos hs, h, clearFailed, setPending_eq, after_st]

/-- The clear write of an SCS has a severe result. -/
theorem scsClear_severe {y : Severe} (hs : sticky v = true)
    (h : ∀ (f : State → Run Error α) n, clearStep (writeClear v s) f n =
      .stop y.error ((s.after y.exchange).withBlock (y.block s.st))) :
    (scsClear cause v s : Run Error α) = .stop y.error ((s.after y.exchange).withBlock (y.block s.st)) := by
  rw [scsClear, if_pos hs, h]

end

section

variable {α : Type} {cause : FaultCause} {p : Params} {b : Block} {v data : Word} {k : BitVec 3} {s : State}
  {u w : SwdTry} {js : List SwdJunk} (hs : s.params = p) (hb : s.st = b) (hp : b.proto = some .swd)

include hs hb hp

/-- The poll of an SCS over SWD fails: the clear is pending, and nothing is known of CTRL/STAT. -/
theorem scs_swd_pollFails (hw : w.fits p) (hl : js.length = p.waitRetries + 1) {y : Exchange}
    (hy : y ∈ swdPollFails p data w js) (h : s.meets (pulse.andThen y)) :
    (scs cause none s : Run Error α) = .stop (.accessFault cause none true)
      ((s.after (pulse.andThen y)).withBlock { b with selectCache := none, clearPending := true }) := by
  subst hs hb
  rw [scs_none, clearStep_pollFails (s := scsStart s) hp (scsStart_params s) hw hl hy (by simpa using h), clearFailed,
    setPending_eq]
  simp

/-- The poll of an SCS over SWD has a severe result. -/
theorem scs_swd_pollSevere (hw : w.fits p) (hk : k ∈ [0b000, 0b011, 0b101, 0b110, 0b111]) {y : Severe}
    (hy : y ∈ swdSevere p true 1 k w) (h : s.meets (pulse.andThen y.exchange)) :
    (scs cause none s : Run Error α) =
      .stop y.error ((s.after (pulse.andThen y.exchange)).withBlock (y.block b)) := by
  subst hs hb
  rw [scs_none, clearStep_pollSevere (s := scsStart s) hp (scsStart_params s) hw hk hy (by simpa using h), scsStart_st,
    swdSevere_forgetsSelect y hy]
  simp

variable (hu : u.fits p)

include hu

/-- The poll of an SCS over SWD answered OK is followed by the clear of what it returned. -/
theorem scs_swd_polled (h : s.meets (pulse.andThen (swdReadOkX p false 1 v u))) :
    (scs cause none s : Run Error α) = scsClear cause v
      ((s.after (pulse.andThen (swdReadOkX p false 1 v u))).withBlock { b.observed v with selectCache := none }) := by
  subst hs hb
  rw [scs_none, poll_swd (s := scsStart s) hp (scsStart_params s) hu (by simpa using h), clearStep_ok]
  simp [Block.observed]

variable (hv : sticky v = true) (hw : w.fits p)

include hv hw

/-- The ABORT write of an SCS over SWD fails. -/
theorem scs_swd_clearFails (hl : js.length = p.waitRetries + 1) {y : Exchange} (hy : y ∈ swdClearFails p w js)
    (h : s.meets (pulse.andThen ((swdReadOkX p false 1 v u).andThen y))) :
    (scs cause none s : Run Error α) = .stop (.accessFault cause (some v) true)
      ((s.after (pulse.andThen ((swdReadOkX p false 1 v u).andThen y))).withBlock
        { b.observed v with selectCache := none, clearPending := true }) := by
  rw [← andThen_assoc] at h ⊢
  obtain ⟨hpoll, hclear⟩ := meets_andThen.mp h
  rw [scs_swd_polled hs hb hp hu hpoll, scsClear_failed hv fun f n =>
    clearStep_clearFails (by exact hp) (by simpa using hs) hw hl hy (by simpa using hclear) f n]
  simp

/-- The ABORT write of an SCS over SWD has a severe result. -/
theorem scs_swd_clearSevere (hk : k ∈ [0b000, 0b011, 0b101, 0b110, 0b111]) {y : Severe} (hy : y ∈ swdSevere p false 0 k w)
    (h : s.meets (pulse.andThen ((swdReadOkX p false 1 v u).andThen y.exchange))) :
    (scs cause none s : Run Error α) = .stop y.error
      ((s.after (pulse.andThen ((swdReadOkX p false 1 v u).andThen y.exchange))).withBlock
        (y.block (b.observed v))) := by
  rw [← andThen_assoc] at h ⊢
  obtain ⟨hpoll, hclear⟩ := meets_andThen.mp h
  rw [scs_swd_polled hs hb hp hu hpoll, scsClear_severe hv fun f n => ?_, withBlock_st, swdSevere_forgetsSelect y hy]
  · simp
  · rw [writeClear_swd (by exact hp)]
    exact clearStep_swdSevere (by simpa using hs) hw hk hy (by simpa using hclear) f n

end

section

variable {α : Type} {cause : FaultCause} {p : Params} {b : Block} {v d : Word} {k : BitVec 3} {ir : Wire} {s : State}
  {t : JtagTry} {scans : List Capture} (hs : s.params = p) (hb : s.st = b) (hp : b.proto = some .jtag)
  (hr : b.tap = some .rti) (hi : b.irCache = some 0xA) (hv : sticky v = true)

include hs hb hp hr hi hv

/-- The clear write of an SCS over JTAG fails, DPACC held. -/
theorem scs_jtag_clearFails (hl : scans.length = p.waitRetries + 1) {y : Exchange} (hy : y ∈ jtagClearFails p v scans)
    (h : s.meets (pulse.andThen y)) :
    (scs cause (some v) s : Run Error α) = .stop (.accessFault cause (some v) true)
      ((s.after (pulse.andThen y)).withBlock { b with selectCache := none, clearPending := true }) := by
  subst hs hb
  rw [scs_some, scsClear_failed hv fun f n =>
    clearStep_jtagClearFails (s := scsStart s) hp (scsStart_params s) hi hr hl hy (by simpa using h) f n]
  simp

/-- The clear write of an SCS over JTAG has a severe result. -/
theorem scs_jtag_clearSevere (ht : t.fits p) (hk : k ∈ [0b000, 0b011, 0b100, 0b101, 0b110, 0b111]) {y : Severe}
    (hy : y ∈ jtagClearSevere p v d k ir t) (h : s.meets (pulse.andThen y.exchange)) :
    (scs cause (some v) s : Run Error α) =
      .stop y.error ((s.after (pulse.andThen y.exchange)).withBlock (y.block b)) := by
  subst hs hb
  rw [scs_some, scsClear_severe hv fun f n =>
    clearStep_jtagClearSevere (s := scsStart s) hp (scsStart_params s) hi hr ht hk hy (by simpa using h) f n, scsStart_st,
    jtagClearSevere_forgetsSelect y hy]
  simp

end

/-- READ_DP over SWD whose read is answered FAULT ends as its SCS does. -/
theorem exec_readDp_fault {s : State} {a : BitVec 2} {t : SwdTry} {x : Exchange} {e : Error} {b : Block}
    (hc : Connected .swd s) (ht : t.fits s.params) (hm : s.meets ((swdFaultX s.params false true a t).andThen x))
    (h : (s.after (swdFaultX s.params false true a t)).meets x →
      (scs .ackFault none (s.after (swdFaultX s.params false true a t)) : Run Error Word) =
        .stop e (((s.after (swdFaultX s.params false true a t)).after x).withBlock b)) :
    exec (.readDp (0#4 ++ a ++ 0#2)) s =
      .next (((s.after ((swdFaultX s.params false true a t).andThen x)).withBlock b).failed
        (.readDp (0#4 ++ a ++ 0#2)) s.st.selectCache e) := by
  obtain ⟨hfault, hx⟩ := meets_andThen.mp hm
  refine (begins_readDp hc a).stop ?_
  rw [dpRead_swd hc.proto, swdXfer_fault rfl ht hfault, check_fault, h hx, after_after]

/-- READ_DP of CTRL/STAT over JTAG that sees a sticky bit ends as its SCS does. -/
theorem exec_readDp_sticky {s : State} {v prev : Word} {ir : Wire} {t u : JtagTry} {x : Exchange} {e : Error} {b : Block}
    (hc : ConnectedJtag s) (ht : t.fits s.params) (hu : u.fits s.params) (hs : sticky v = true)
    (hm : s.meets ((jtagReadDpX s.st.irCache 1 prev v ir t u).andThen x))
    (h : ((s.after (jtagReadDpX s.st.irCache 1 prev v ir t u)).withBlock
        { s.st.observed v with irCache := some 0xA }).meets x →
      (scs .stickyObserved (some v) ((s.after (jtagReadDpX s.st.irCache 1 prev v ir t u)).withBlock
        { s.st.observed v with irCache := some 0xA }) : Run Error Word) =
        .stop e ((((s.after (jtagReadDpX s.st.irCache 1 prev v ir t u)).withBlock
          { s.st.observed v with irCache := some 0xA }).after x).withBlock b)) :
    exec (.readDp 0x4) s =
      .next (((s.after ((jtagReadDpX s.st.irCache 1 prev v ir t u).andThen x)).withBlock b).failed (.readDp 0x4)
        s.st.selectCache e) := by
  obtain ⟨hread, hx⟩ := meets_andThen.mp hm
  have runs : RunsAs (.readDp 0x4) s (readDpReg 1 s) := runsAs_readDp hc.toConnected rfl
  refine runs.failed ?_
  rw [readDpReg_ctrlStat, checkedPoll, poll_jtag hc.proto rfl ht hu hc.tap hread, check_ok, Run.bind_ok,
    stickyStop_sticky hs, h (by simpa using hx), Run.bind_stop]
  simp

/-- Settles O54: the read starts its SCS, and the transaction that fails in it ends the command. -/
theorem clearSequenceFailures : Obligations.ClearSequenceFailures := by
  unfold Obligations.ClearSequenceFailures
  rintro s a _ v data k rfl i pending ends
  constructor
  · intro t u w js hc ht hu hw hl head polled
    simp only [pending, ends, polled, head, andThen_assoc]
    have hs := after_params s (swdFaultX s.params false true a t)
    have hb := after_st s (swdFaultX s.params false true a t)
    refine ⟨fun y hy hm => ?_, fun hv y hy hm => ?_, fun hk => ⟨fun y hy hm => ?_, fun hv y hy hm => ?_⟩⟩
    · exact exec_readDp_fault hc ht hm (scs_swd_pollFails hs hb hc.proto hw hl hy)
    · exact exec_readDp_fault hc ht hm (scs_swd_clearFails hs hb hc.proto hu hv hw hl hy)
    · exact exec_readDp_fault hc ht hm (scs_swd_pollSevere hs hb hc.proto hw hk hy)
    · exact exec_readDp_fault hc ht hm (scs_swd_clearSevere hs hb hc.proto hu hv hw hk hy)
  · rintro prev d ir ir' t u w scans hc rfl ht hu hw hl hv polled b
    simp only [pending, ends, polled, andThen_assoc]
    have hs : ((s.after (jtagReadDpX s.st.irCache 1 prev v ir t u)).withBlock b).params = s.params := after_params ..
    have hb : ((s.after (jtagReadDpX s.st.irCache 1 prev v ir t u)).withBlock b).st = b := rfl
    refine ⟨fun y hy hm => ?_, fun hk y hy hm => ?_⟩
    · exact exec_readDp_sticky hc ht hu hv hm (scs_jtag_clearFails hs hb hc.proto hc.tap rfl hv hl hy)
    · exact exec_readDp_sticky hc ht hu hv hm (scs_jtag_clearSevere hs hb hc.proto hc.tap rfl hv hw hk hy)

end Sys2Proof.Machine
end

section
/-! Proofs of the statement about the pending clear (60_exceptions.md R266): what it does before the next command. -/

namespace Sys2Proof.Machine

/-! ## What a pending clear does (60_exceptions.md R266, R276, R284) -/

/-- A poll that answers goes on with the clear of what it returned. -/
theorem pendingClear_polled {v : Word} {s t : State} (h : poll s = .ok v t) : pendingClear s = pendingWrite v t := by
  rw [pendingClear, h, clearStep_ok]

section

variable {v : Word} {s : State} (hv : sticky v = true)

include hv

/-- The clear write of a pending clear fails: the clear stays pending. -/
theorem pendingWrite_failed {y : Exchange}
    (h : ∀ (f : State → Run Error Unit) n, clearStep (writeClear v s) f n = f (s.after y)) :
    pendingWrite v s = .stop (.accessFault .pendingClear (some v) true) (s.after y) := by
  rw [pendingWrite, if_pos hv, h, pendingFailed]

/-- The clear write of a pending clear has a severe result. -/
theorem pendingWrite_severe {y : Severe}
    (h : ∀ (f : State → Run Error Unit) n, clearStep (writeClear v s) f n =
      .stop y.error ((s.after y.exchange).withBlock (y.block s.st))) :
    pendingWrite v s = .stop y.error ((s.after y.exchange).withBlock (y.block s.st)) := by
  rw [pendingWrite, if_pos hv, h]

end

/-- The clear write of a pending clear is made where a sticky bit was seen, and ends it (60_exceptions.md R266). -/
theorem pendingWrite_ok {v : Word} {s : State} {x : Exchange} {ir : Option (BitVec 4)}
    (hclean : sticky v = false → x = noExchange ∧ ir = s.st.irCache)
    (hclear : sticky v = true → writeClear v s = .ok 0 ((s.after x).withBlock { s.st with irCache := ir })) :
    pendingWrite v s = .ok () ((s.after x).withBlock { s.st with clearPending := false, irCache := ir }) := by
  rw [pendingWrite, setPending_eq]
  cases hv : sticky v with
  | true =>
    rw [if_pos rfl, hclear hv, clearStep_ok, setPending_eq]
    simp
  | false =>
    obtain ⟨rfl, rfl⟩ := hclean hv
    simp

section

variable {v data : Word} {k : BitVec 3} {s : State} {t u : SwdTry} {js : List SwdJunk}
  (hp : s.st.proto = some .swd) (ht : t.fits s.params)

include hp ht

/-- The pending clear over SWD, all OK (60_exceptions.md R266). -/
theorem pendingClear_swd (hu : u.fits s.params)
    (h : s.meets ((swdReadOkX s.params false 1 v t).andThen (swdClearX s.params v u))) :
    pendingClear s = .ok () ((s.after ((swdReadOkX s.params false 1 v t).andThen (swdClearX s.params v u))).withBlock
      { s.st.observed v with clearPending := false }) := by
  obtain ⟨hpoll, hclear⟩ := meets_andThen.mp h
  rw [pendingClear_polled (poll_swd hp rfl ht hpoll), pendingWrite_ok (x := swdClearX s.params v u) (ir := s.st.irCache)]
  · simp [Block.observed]
  · exact fun hv => ⟨if_neg (by simp [hv]), rfl⟩
  · intro hv
    rw [swdClearX, if_pos hv] at hclear ⊢
    rw [writeClear_swd (by exact hp), swdXfer_writeOk (p := s.params) (by simp) hu (by simpa using hclear)]
    simp [Block.observed]

/-- The poll of a pending clear over SWD fails. -/
theorem pendingClear_swd_pollFails (hl : js.length = s.params.waitRetries + 1) {y : Exchange}
    (hy : y ∈ swdPollFails s.params data t js) (h : s.meets y) :
    pendingClear s = .stop (.accessFault .pendingClear none true) ((s.after y).withBlock s.st) := by
  rw [pendingClear, clearStep_pollFails hp rfl ht hl hy h, pendingFailed, ← after_st s y, withBlock_same]

/-- The poll of a pending clear over SWD has a severe result. -/
theorem pendingClear_swd_pollSevere (hk : k ∈ [0b000, 0b011, 0b101, 0b110, 0b111]) {y : Severe}
    (hy : y ∈ swdSevere s.params true 1 k t) (h : s.meets y.exchange) :
    pendingClear s = .stop y.error ((s.after y.exchange).withBlock (y.block s.st)) :=
  clearStep_pollSevere hp rfl ht hk hy h _ _

variable (hu : u.fits s.params) (hv : sticky v = true)

include hu hv

/-- The ABORT write of a pending clear over SWD fails. -/
theorem pendingClear_swd_clearFails (hl : js.length = s.params.waitRetries + 1) {y : Exchange}
    (hy : y ∈ swdClearFails s.params u js) (h : s.meets ((swdReadOkX s.params false 1 v t).andThen y)) :
    pendingClear s = .stop (.accessFault .pendingClear (some v) true)
      ((s.after ((swdReadOkX s.params false 1 v t).andThen y)).withBlock (s.st.observed v)) := by
  obtain ⟨hpoll, hclear⟩ := meets_andThen.mp h
  rw [pendingClear_polled (poll_swd hp rfl ht hpoll), pendingWrite_failed hv fun f n =>
    clearStep_clearFails (by exact hp) (by simp) hu hl hy (by simpa using hclear) f n]
  simp

/-- The ABORT write of a pending clear over SWD has a severe result. -/
theorem pendingClear_swd_clearSevere (hk : k ∈ [0b000, 0b011, 0b101, 0b110, 0b111]) {y : Severe}
    (hy : y ∈ swdSevere s.params false 0 k u) (h : s.meets ((swdReadOkX s.params false 1 v t).andThen y.exchange)) :
    pendingClear s = .stop y.error
      ((s.after ((swdReadOkX s.params false 1 v t).andThen y.exchange)).withBlock (y.block (s.st.observed v))) := by
  obtain ⟨hpoll, hclear⟩ := meets_andThen.mp h
  rw [pendingClear_polled (poll_swd hp rfl ht hpoll), pendingWrite_severe (y := y) hv fun f n => ?_]
  · simp
  · rw [writeClear_swd (by exact hp)]
    exact clearStep_swdSevere (by simp) hu hk hy (by simpa using hclear) f n

end

section

variable {v d : Word} {k : BitVec 3} {s : State} {t u : JtagTry} {scans : List Capture} (hp : s.st.proto = some .jtag)
  (hr : s.st.tap = some .rti)

include hp hr

/-- The first scan of a pending clear's poll is answered WAIT to the end, DPACC held. -/
theorem pendingClear_jtag_pollTimeout (hi : s.st.irCache = some 0xA) (hl : scans.length = s.params.waitRetries + 1)
    (h : s.meets (xpaccWaitsX true 1 0 scans)) :
    pendingClear s =
      .stop (.accessFault .pendingClear none true) ((s.after (xpaccWaitsX true 1 0 scans)).withBlock s.st) := by
  rw [pendingClear, poll, dpRead_jtag hp, jtagReadDp_held hi, aCtrlStat, jtagXpacc_timeout hl hr h, Run.bind_stop,
    Run.bind_stop, clearStep_timeout, pendingFailed, ← after_st s (xpaccWaitsX true 1 0 scans), withBlock_same]

/-- The first scan of a pending clear's poll has a severe result, DPACC held. -/
theorem pendingClear_jtag_pollSevere (hi : s.st.irCache = some 0xA) (ht : t.fits s.params)
    (hk : k ∈ [0b000, 0b011, 0b100, 0b101, 0b110, 0b111]) {y : Severe} (hy : y ∈ jtagSevere true 1 0 d k t)
    (h : s.meets y.exchange) :
    pendingClear s = .stop y.error ((s.after y.exchange).withBlock (y.block s.st)) := by
  rw [pendingClear, poll, dpRead_jtag hp, jtagReadDp_held hi, aCtrlStat, Run.bind_assoc]
  exact clearStep_jtagSevere ht hr hk hy h _ _

variable {prev : Word} {ir : Wire} (ht : t.fits s.params) (hu : u.fits s.params)

include ht hu

/-- The pending clear over JTAG, all OK (60_exceptions.md R266, 41_jtag_tap.md R186). -/
theorem pendingClear_jtag {prev' d' : Word} {ir' junk' : Wire} {out' : BitVec 35} {t' u' : JtagTry}
    (ht' : t'.fits s.params) (hu' : u'.fits s.params)
    (h : s.meets ((jtagReadDpX s.st.irCache 1 prev v ir t u).andThen
      (jtagMaybeClearX s.params v prev' d' ir' out' junk' t' u'))) :
    pendingClear s = .ok () ((s.after ((jtagReadDpX s.st.irCache 1 prev v ir t u).andThen
      (jtagMaybeClearX s.params v prev' d' ir' out' junk' t' u'))).withBlock
        { s.st.observed v with clearPending := false, irCache := some (if sticky v then clearIr s.params else 0xA) }) := by
  obtain ⟨hpoll, hclear⟩ := meets_andThen.mp h
  rw [pendingClear_polled (poll_jtag hp rfl ht hu hr hpoll),
    pendingWrite_ok (x := jtagMaybeClearX s.params v prev' d' ir' out' junk' t' u')
      (ir := some (if sticky v then clearIr s.params else 0xA))]
  · simp
  · exact fun hv => ⟨if_neg (by simp [hv]), by simp [hv]⟩
  · intro hv
    rw [jtagMaybeClearX, if_pos hv] at hclear ⊢
    rw [writeClear_jtag (by exact hp) (by exact hr) rfl (by simpa using ht') (by simpa using hu') (by simpa using hclear)]
    simp [hv]

variable (hv : sticky v = true)

include hv

/-- The clear write of a pending clear over JTAG fails. -/
theorem pendingClear_jtag_clearFails (hl : scans.length = s.params.waitRetries + 1) {y : Exchange}
    (hy : y ∈ jtagClearFails s.params v scans) (h : s.meets ((jtagReadDpX s.st.irCache 1 prev v ir t u).andThen y)) :
    pendingClear s = .stop (.accessFault .pendingClear (some v) true)
      ((s.after ((jtagReadDpX s.st.irCache 1 prev v ir t u).andThen y)).withBlock
        { s.st.observed v with irCache := some 0xA }) := by
  obtain ⟨hpoll, hclear⟩ := meets_andThen.mp h
  rw [pendingClear_polled (poll_jtag hp rfl ht hu hr hpoll), pendingWrite_failed hv fun f n =>
    clearStep_jtagClearFails (p := s.params) (by exact hp) (by simp) rfl (by exact hr) hl hy (by simpa using hclear) f n]
  simp

/-- The clear write of a pending clear over JTAG has a severe result. -/
theorem pendingClear_jtag_clearSevere {ir' : Wire} {t' : JtagTry} (ht' : t'.fits s.params)
    (hk : k ∈ [0b000, 0b011, 0b100, 0b101, 0b110, 0b111]) {y : Severe}
    (hy : y ∈ jtagClearSevere s.params v d k ir' t')
    (h : s.meets ((jtagReadDpX s.st.irCache 1 prev v ir t u).andThen y.exchange)) :
    pendingClear s = .stop y.error
      ((s.after ((jtagReadDpX s.st.irCache 1 prev v ir t u).andThen y.exchange)).withBlock
        (y.block { s.st.observed v with irCache := some 0xA })) := by
  obtain ⟨hpoll, hclear⟩ := meets_andThen.mp h
  rw [pendingClear_polled (poll_jtag hp rfl ht hu hr hpoll), pendingWrite_severe hv fun f n =>
    clearStep_jtagClearSevere (p := s.params) (by exact hp) (by simp) rfl (by exact hr) ht' hk hy
      (by simpa using hclear) f n]
  simp

end

/-! ## The commands a pending clear precedes -/

section

variable {i : Instr} {ap : Bool} {body : State → Run Error (Option Word)} {s : State} (hl : s.st.link = .ready)
  (hc : s.st.clearPending = true) (hr : refusalOf s.st.proto i = none) (hp : ap = true → s.st.dpPowered = true)
  (he : exec i s = .next (runReady i ap body s))

include hl hc hr hp he

/-- A command that the checks let through runs its pending clear, and then its body (42_dpap_commands.md R200). -/
theorem runsAs_pending : RunsAs i s ((pendingClear s).bind fun _ t => body t) := by
  rw [RunsAs, he, runReady_pending hl hc hr hp]

/-- Once the clear is done, its body. -/
theorem runsAs_afterClear {t : State} (h : pendingClear s = .ok () t) : RunsAs i s (body t) := by
  have runs := runsAs_pending hl hc hr hp he
  rwa [h, Run.bind_ok] at runs

/-- The clear and the body answered as two exchanges say, one after the other. -/
theorem exec_afterClear {x y : Exchange} {b b' : Block} {v : Option Word} (hm : s.meets (x.andThen y))
    (hclear : s.meets x → pendingClear s = .ok () ((s.after x).withBlock b))
    (hbody : ((s.after x).withBlock b).meets y →
      body ((s.after x).withBlock b) = .ok v ((((s.after x).withBlock b).after y).withBlock b')) :
    exec i s = .next (((s.after (x.andThen y)).withBlock b').replied i v) := by
  obtain ⟨hx, hy⟩ := meets_andThen.mp hm
  have runs := runsAs_afterClear hl hc hr hp he (hclear hx)
  rw [runs.replied (hbody (by simpa using hy))]
  simp

end

/-- The commands of PendingClearRunsFirst: a command that nothing refuses, an AP access with the DP powered, a request over
SWD. -/
def Precedes (s : State) (ap addr : Addr) (val : Word) (i : Instr) : Prop :=
  refusalOf s.st.proto i = none ∧ (i ∈ [.readDp addr, .writeDp addr val, .powerUp] ∨
    s.st.dpPowered = true ∧ i ∈ [.readAp ap addr, .writeAp ap addr val] ∨ s.st.proto = some .swd ∧ i ∈ [.dpR0, .dpRC])

/-- Each of them is a command that runs while Ready, whatever else the state is, so long as its protocol is connected; the
AP accesses behind the power gate. -/
theorem Precedes.exec_eq {s : State} {ap addr : Addr} {val : Word} {i : Instr} (h : Precedes s ap addr val i) :
    ∃ (gated : Bool) (body : State → Run Error (Option Word)),
      (∀ u : State, u.st.proto = s.st.proto → exec i u = .next (runReady i gated body u)) ∧
        (gated = true → s.st.dpPowered = true ∧ i ∈ [.readAp ap addr, .writeAp ap addr val]) := by
  obtain ⟨-, h⟩ := h
  simp only [List.mem_cons, List.not_mem_nil, or_false] at h ⊢
  rcases h with (rfl | rfl | rfl) | ⟨hd, rfl | rfl⟩ | ⟨hp, rfl | rfl⟩
  iterate 3 exact ⟨false, _, fun _ _ => rfl, by simp⟩
  iterate 2 exact ⟨true, _, fun _ _ => rfl, fun _ => ⟨hd, by simp⟩⟩
  iterate 2 exact ⟨false, _, fun _ hu => runLink_own (hu.trans hp), by simp⟩

section

variable {s : State} {ap addr : Addr} {val : Word} {i : Instr} (hl : s.st.link = .ready)
  (hc : s.st.clearPending = true) (hi : Precedes s ap addr val i)

include hl hc hi

/-- A pending clear that stops ends the command. -/
theorem Precedes.stop {t : State} {e : Error} (h : pendingClear s = .stop e t) :
    exec i s = .next (t.failed i s.st.selectCache e) := by
  obtain ⟨gated, body, he, hg⟩ := hi.exec_eq
  refine (runsAs_pending hl hc hi.1 (fun g => (hg g).1) (he s rfl)).failed ?_
  rw [h, Run.bind_stop]

/-- A pending clear that is done leaves the command as it runs with nothing pending; an AP access where the poll showed the
DP powered, as its power gate then lets it through. -/
theorem Precedes.goesOn {t : State} (h : pendingClear s = .ok () t) (hlink : t.st.link = .ready)
    (hproto : t.st.proto = s.st.proto) (hselect : t.st.selectCache = s.st.selectCache) (hclear : t.st.clearPending = false)
    (hv : t.st.dpPowered = true ∨ i ∉ [.readAp ap addr, .writeAp ap addr val]) : exec i s = exec i t := by
  obtain ⟨gated, body, he, hg⟩ := hi.exec_eq
  have runs : RunsAs i s (body t) := runsAs_afterClear hl hc hi.1 (fun g => (hg g).1) (he s rfl) h
  have alone : RunsAs i t (body t) := by
    rw [RunsAs, he t hproto, runReady_live hlink hclear (hproto ▸ hi.1) fun g => hv.resolve_right fun n => n (hg g).2]
  rw [runs, alone, hselect]

end

/-- A DP read over SWD, CTRL/STAT apart, leaves the block it finds (42_dpap_commands.md R210). -/
theorem readDpReg_swd_at {p : Params} {b : Block} {s : State} {a : BitVec 2} {d : Word} {t : SwdTry} (ha : a ≠ 1)
    (hs : s.params = p) (hb : s.st = b) (hp : b.proto = some .swd) (ht : t.fits p) (h : s.meets (swdReadOkX p false a d t)) :
    readDpReg a s = .ok (some d) ((s.after (swdReadOkX p false a d t)).withBlock b) := by
  subst hs hb
  rw [readDpReg_swd ha hp ht h, ← after_st s (swdReadOkX s.params false a d t), withBlock_same]

/-- An AP access over SWD with no SELECT held: its write, its event, and then the access (42_dpap_commands.md R205). -/
theorem ensureSelect_swd_none {p : Params} {b : Block} {s : State} {ap addr : Addr} {t : SwdTry} {v : Option Word}
    {access : State → Run Error (Option Word)} {x : Exchange} (hs : s.params = p) (hb : s.st = b)
    (hp : b.proto = some .swd) (hsel : b.selectCache = none) (ht : t.fits p)
    (haccess : ∀ w : State, w.params = p → w.st.proto = some .swd → w.meets x → access w = .ok v (w.after x))
    (h : s.meets ((swdWriteOkX p false 2 (requiredSelect ap addr) t).andThen (pulse.andThen x))) :
    ((ensureSelect ap addr s).bind fun _ w => access w) = .ok v
      ((s.after ((swdWriteOkX p false 2 (requiredSelect ap addr) t).andThen (pulse.andThen x))).withBlock
        { b with selectCache := some (requiredSelect ap addr) }) := by
  subst hs hb
  rw [← andThen_assoc] at h ⊢
  exact ensureSelect_swdAccess hp ht (by simp [hsel]) haccess h

/-- Settles O55: the pending clear is the first part of the command, and what ends it early ends the command. -/
theorem pendingClearRunsFirst : Obligations.PendingClearRunsFirst := by
  unfold Obligations.PendingClearRunsFirst
  intro s ap addr v d data val k hl hc runs goesOn fails ends
  constructor
  · intro t u w js hp ht hu hw hjs poll c x block
    have done := pendingClear_swd (v := v) hp ht hu
    have hs : ((s.after c).withBlock block).params = s.params := after_params s c
    refine ⟨fun hm => ?_, fun hm i hi hv => ?_, fun old w' u' haddr hsel hd hw' hu' => ?_,
      fun y hy hm i hi => ?_, fun hv y hy hm i hi => ?_, fun hk => ⟨fun y hy hm i hi => ?_, fun hv y hy hm i hi => ?_⟩⟩
    · exact exec_afterClear hl hc rfl (by simp) rfl hm done (readDpReg_swd_at (a := 0) (by decide) hs rfl hp hw)
    · exact Precedes.goesOn hl hc hi (done hm) hl rfl rfl rfl hv
    · intro sel rd wr block'
      simp only [rd, wr, sel, andThen_assoc]
      have aligned := apAddrWF_of_aligned haddr
      have hread : refusalOf s.st.proto (.readAp ap addr) = none := if_pos aligned
      have hwrite : refusalOf s.st.proto (.writeAp ap addr val) = none := if_pos aligned
      refine ⟨fun hm => ?_, fun hm => ?_⟩
      · exact exec_afterClear hl hc hread (fun _ => hd) rfl hm done
          (ensureSelect_swd_none hs rfl hp hsel hw fun _ hs' hp' => apReadReg_swd hs' hp' hw' hu')
      · exact exec_afterClear hl hc hwrite (fun _ => hd) rfl hm done
          (ensureSelect_swd_none hs rfl hp hsel hw fun _ hs' hp' => apWriteReg_swd hs' hp' hw' hu')
    · exact Precedes.stop hl hc hi (pendingClear_swd_pollFails hp hw hjs hy hm)
    · exact Precedes.stop hl hc hi (pendingClear_swd_clearFails hp ht hw hv hjs hy hm)
    · rw [none_andThen] at hm ⊢
      exact Precedes.stop hl hc hi (pendingClear_swd_pollSevere hp hw hk hy hm)
    · exact Precedes.stop hl hc hi (pendingClear_swd_clearSevere hp ht hw hv hk hy hm)
  · intro prev prev' d' ir ir' junk' out' t u t' u' scans hp hr ht hu ht' hu' hjs poll c b
    refine ⟨fun hm i hi hv => ?_, fun hir hm i hi => ?_, fun hv y hy hm i hi => ?_,
      fun hk => ⟨fun hir y hy hm i hi => ?_, fun hv y hy hm i hi => ?_⟩⟩
    · exact Precedes.goesOn hl hc hi (pendingClear_jtag hp hr ht hu ht' hu' hm) hl rfl rfl rfl hv
    · exact Precedes.stop hl hc hi (pendingClear_jtag_pollTimeout hp hr hir hjs hm)
    · exact Precedes.stop hl hc hi (pendingClear_jtag_clearFails hp hr ht hu hv hjs hy hm)
    · rw [none_andThen] at hm ⊢
      exact Precedes.stop hl hc hi (pendingClear_jtag_pollSevere hp hr hir ht' hk hy hm)
    · exact Precedes.stop hl hc hi (pendingClear_jtag_clearSevere hp hr ht hu hv ht' hk hy hm)

end Sys2Proof.Machine
end

section
/-! Proofs of the timing statements (70_reset_and_hazards.md): the bound on a command's transport calls, and the clocks of
the calls that commands make. -/

namespace Sys2Proof.Machine

/-! ## A bound on transport calls (70_reset_and_hazards.md R314) -/

/-- A result is no call, and so a bound on a command's calls is one on all it adds to the trace. -/
theorem Answered.calls {own : Word} {q : Request} {n : Nat} {s t : State} (h : Answered own q n s t) :
    ∃ l, t.trace = s.trace ++ l ∧ callCount l ≤ n := by
  obtain ⟨l, r, trace, -, calls⟩ := h.trace
  have resultIsNoCall : callCount [.result q r] = 0 := rfl
  exact ⟨l ++ [.result q r], by rw [trace, List.append_assoc], by rw [callCount_append, resultIsNoCall]; exact calls⟩

/-- The calls of PWR_POLLS + 7 transactions are enough for every instruction: POWER_UP makes its write and its polls, a
pending clear and an SCS two transactions each (42_dpap_commands.md R218, 60_exceptions.md R264, R266). -/
theorem exec_answered_within {i : Instr} {s t : State} (h : exec i s = .next t) :
    ∃ own n, Answered own (.instr i) n s t ∧ n ≤ (s.params.pwrPolls + 7) * xferCalls s.params := by
  have connect : 4 * xferCalls s.params ≤ (s.params.pwrPolls + 7) * xferCalls s.params :=
    Nat.mul_le_mul_right _ (by omega)
  have command : 4 * xferCalls s.params + bodyCalls s.params ≤ (s.params.pwrPolls + 7) * xferCalls s.params := by
    rw [bodyCalls, ← Nat.add_mul]
    exact Nat.mul_le_mul_right _ (by omega)
  by_cases hs : i = .connectSwd
  · subst hs
    exact ⟨0, _, connect_answered (connectSwdBody_keeps 0 s) h, connect⟩
  by_cases hj : i = .connectJtag
  · subst hj
    exact ⟨0, _, connect_answered (connectJtagBody_keeps 0 s) h, connect⟩
  exact ⟨_, _, (exec_commanded hs hj h).answered, command⟩

/-- Settles O21: whatever an instruction that answers has done, its calls are those of at most PWR_POLLS + 7
transactions. -/
theorem callsAreBounded : Obligations.CallsAreBounded := by
  unfold Obligations.CallsAreBounded
  intro i s t h
  obtain ⟨own, n, answered, within⟩ := exec_answered_within h
  obtain ⟨l, trace, calls⟩ := answered.calls
  refine ⟨l, trace, calls.trans (within.trans ?_)⟩
  rw [Nat.mul_comm, xferCalls]

/-! ## The clocks of an exchange (70_reset_and_hazards.md R313) -/

/-- The clocks of the calls of an exchange. -/
def Exchange.clocks (x : Exchange) : Nat := clockCount x.obs

theorem clockCount_append (l m : List Obs) : clockCount (l ++ m) = clockCount l + clockCount m := by simp [clockCount]

@[simp] theorem clocks_andThen (x y : Exchange) : (x.andThen y).clocks = x.clocks + y.clocks := clockCount_append ..
@[simp] theorem clocks_noExchange : noExchange.clocks = 0 := rfl
@[simp] theorem clocks_pulse : pulse.clocks = 0 := rfl
@[simp] theorem clocks_lineResetX (junk : Wire) : (lineResetX junk).clocks = 0 := rfl
@[simp] theorem clocks_sent (n : Nat) (v : BitVec 33) (junk : Wire) : (sent n v junk).clocks = n := rfl
@[simp] theorem clocks_received (n : Nat) (v : BitVec n) : (received n v).clocks = n := rfl
@[simp] theorem clocks_jtagX (n : Nat) (tms tdi tdo : Wire) : (jtagX n tms tdi tdo).clocks = n := rfl

/-- The event of a SELECT write takes no clocks, whether or not it is due. -/
@[simp] theorem clocks_pulse_if (c : Prop) [Decidable c] : (if c then noExchange else pulse).clocks = 0 := by
  split <;> rfl

/-! ### SWD (30_encoding.md R86) -/

/-- No idle cycles are no clocks. -/
@[simp] theorem clocks_idleX (p : Params) (j : SwdJunk) : (idleX p j).clocks = p.idleCycles := by
  unfold idleX
  split
  · rename_i h
    rw [h, clocks_noExchange]
  · rw [clocks_sent]

/-- Eight clocks of request, one of turnaround, three of acknowledge. -/
@[simp] theorem clocks_swdHeadX (apndp rnw : Bool) (a : BitVec 2) (ack : BitVec 3) (j : SwdJunk) :
    (swdHeadX apndp rnw a ack j).clocks = 12 := rfl

@[simp] theorem clocks_swdStopX (p : Params) (apndp rnw : Bool) (a : BitVec 2) (ack : BitVec 3) (j : SwdJunk) :
    (swdStopX p apndp rnw a ack j).clocks = 13 + p.idleCycles := by
  simp [swdStopX]

@[simp] theorem clocks_swdReadX (p : Params) (apndp : Bool) (a : BitVec 2) (w : BitVec 33) (j : SwdJunk) :
    (swdReadX p apndp a w j).clocks = 46 + p.idleCycles := by
  simp [swdReadX]

@[simp] theorem clocks_swdWriteX (p : Params) (apndp : Bool) (a : BitVec 2) (v : Word) (j : SwdJunk) :
    (swdWriteX p apndp a v j).clocks = 46 + p.idleCycles := by
  simp [swdWriteX]

/-- The clocks of the WAIT attempts of an SWD transaction. -/
def SwdTry.waitClocks (t : SwdTry) (p : Params) : Nat := t.waits.length * (13 + p.idleCycles)

/-- The clocks of an SWD transaction that ends with OK: its WAIT attempts and a whole one. -/
def SwdTry.clocks (t : SwdTry) (p : Params) : Nat := 46 + p.idleCycles + t.waitClocks p

theorem SwdTry.clocks_add (t u : SwdTry) (p : Params) :
    t.clocks p + u.clocks p = 2 * (46 + p.idleCycles) + t.waitClocks p + u.waitClocks p := by
  unfold SwdTry.clocks
  ring

theorem SwdTry.clocks_add_add (t u w : SwdTry) (p : Params) :
    t.clocks p + u.clocks p + w.clocks p =
      3 * (46 + p.idleCycles) + t.waitClocks p + u.waitClocks p + w.waitClocks p := by
  unfold SwdTry.clocks
  ring

@[simp] theorem clocks_swdWaitsX (p : Params) (apndp rnw : Bool) (a : BitVec 2) (js : List SwdJunk) :
    (swdWaitsX p apndp rnw a js).clocks = js.length * (13 + p.idleCycles) := by
  induction js with
  | nil => simp [swdWaitsX]
  | cons j js ih => rw [swdWaitsX, clocks_andThen, clocks_swdStopX, ih, List.length_cons, Nat.succ_mul, Nat.add_comm]

@[simp] theorem clocks_swdReadOkX (p : Params) (apndp : Bool) (a : BitVec 2) (d : Word) (t : SwdTry) :
    (swdReadOkX p apndp a d t).clocks = t.clocks p := by
  rw [swdReadOkX, clocks_andThen, clocks_swdWaitsX, clocks_swdReadX, Nat.add_comm]
  rfl

@[simp] theorem clocks_swdWriteOkX (p : Params) (apndp : Bool) (a : BitVec 2) (v : Word) (t : SwdTry) :
    (swdWriteOkX p apndp a v t).clocks = t.clocks p := by
  rw [swdWriteOkX, clocks_andThen, clocks_swdWaitsX, clocks_swdWriteX, Nat.add_comm]
  rfl

@[simp] theorem clocks_swdFaultX (p : Params) (apndp rnw : Bool) (a : BitVec 2) (t : SwdTry) :
    (swdFaultX p apndp rnw a t).clocks = 13 + p.idleCycles + t.waitClocks p := by
  rw [swdFaultX, clocks_andThen, clocks_swdWaitsX, clocks_swdStopX, Nat.add_comm]
  rfl

@[simp] theorem clocks_swdInvalidX (p : Params) (apndp rnw : Bool) (a : BitVec 2) (k : BitVec 3) (t : SwdTry) :
    (swdInvalidX p apndp rnw a k t).clocks = 12 + t.waitClocks p := by
  rw [swdInvalidX, clocks_andThen, clocks_swdWaitsX, clocks_swdHeadX, Nat.add_comm]
  rfl

/-- The SCS polls, and writes ABORT where it saw a sticky bit. -/
@[simp] theorem clocks_swdScsX (p : Params) (v : Word) (t u : SwdTry) :
    (swdScsX p v t u).clocks = t.clocks p + if sticky v then u.clocks p else 0 := by
  unfold swdScsX swdClearX
  split <;> simp

@[simp] theorem clocks_swdPollsX (p : Params) (qs : List (Word × SwdTry)) :
    (swdPollsX p qs).clocks = qs.length * (46 + p.idleCycles) + (qs.map fun q => q.2.waitClocks p).sum := by
  induction qs with
  | nil => simp [swdPollsX]
  | cons q qs ih =>
    simp only [swdPollsX, clocks_andThen, clocks_swdReadOkX, ih, List.map_cons, List.sum_cons, List.length_cons,
      SwdTry.clocks]
    ring

/-! ### JTAG (30_encoding.md R93) -/

@[simp] theorem clocks_irScanX (ir : BitVec 4) (tdo : Wire) : (irScanX ir tdo).clocks = 10 := rfl
@[simp] theorem clocks_dr35X (din out : BitVec 35) (junk : Wire) : (dr35X din out junk).clocks = 40 := rfl
@[simp] theorem clocks_dr32X (out : Word) (junk : Wire) : (dr32X out junk).clocks = 37 := rfl
@[simp] theorem clocks_tapResetX (tdo : Wire) : (tapResetX tdo).clocks = 6 := rfl

/-- The clocks of a JTAG poll, DPACC held. -/
def JtagPoll.clocks (q : JtagPoll) : Nat := 80 + 40 * (q.first.waits.length + q.last.waits.length)

/-- The clocks of an IR scan that finds `cache`: none where the code is held. -/
def irClocks (cache : Option (BitVec 4)) (ir : BitVec 4) : Nat := if cache = some ir then 0 else 10

/-- The clocks of the WAIT scans of two JTAG transactions. -/
def waitScanClocks (t u : JtagTry) : Nat := 40 * (t.waits.length + u.waits.length)

@[simp] theorem clocks_ensureIrX (cache : Option (BitVec 4)) (ir : BitVec 4) (tdo : Wire) :
    (ensureIrX cache ir tdo).clocks = irClocks cache ir := by
  unfold ensureIrX irClocks
  split <;> rfl

@[simp] theorem clocks_xpaccWaitsX (rnw : Bool) (a : BitVec 2) (data : Word) (cs : List Capture) :
    (xpaccWaitsX rnw a data cs).clocks = 40 * cs.length := by
  induction cs with
  | nil => rfl
  | cons c cs ih => rw [xpaccWaitsX, clocks_andThen, clocks_dr35X, ih, List.length_cons, Nat.mul_succ, Nat.add_comm]

@[simp] theorem clocks_xpaccOkX (rnw : Bool) (a : BitVec 2) (data d : Word) (t : JtagTry) :
    (xpaccOkX rnw a data d t).clocks = 40 * t.waits.length + 40 := by
  rw [xpaccOkX, clocks_andThen, clocks_xpaccWaitsX, clocks_dr35X]

section

variable (cache : Option (BitVec 4)) (a : BitVec 2) (v prev d : Word) (ir irA junk : Wire) (t u : JtagTry)

@[simp] theorem clocks_jtagReadDpX : (jtagReadDpX cache a prev d ir t u).clocks =
    80 + irClocks cache 0xA + waitScanClocks t u := by
  simp only [jtagReadDpX, clocks_andThen, clocks_ensureIrX, clocks_xpaccOkX, waitScanClocks]
  ring

@[simp] theorem clocks_jtagWriteDpX : (jtagWriteDpX cache a v prev d ir t u).clocks =
    80 + irClocks cache 0xA + waitScanClocks t u := by
  simp only [jtagWriteDpX, clocks_andThen, clocks_ensureIrX, clocks_xpaccOkX, waitScanClocks]
  ring

@[simp] theorem clocks_jtagAbortX (out : BitVec 35) :
    (jtagAbortX cache v ir out junk).clocks = 40 + irClocks cache 0x8 := by
  rw [jtagAbortX, clocks_andThen, clocks_ensureIrX, clocks_dr35X, Nat.add_comm]

@[simp] theorem clocks_jtagIdcodeX :
    (jtagIdcodeX cache v ir junk).clocks = 37 + irClocks cache 0xE := by
  rw [jtagIdcodeX, clocks_andThen, clocks_ensureIrX, clocks_dr32X, Nat.add_comm]

@[simp] theorem clocks_jtagEnsureSelectX : (jtagEnsureSelectX cache v prev ir t).clocks =
    40 + irClocks cache 0xA + 40 * t.waits.length := by
  simp only [jtagEnsureSelectX, jtagSelectX, clocks_andThen, clocks_ensureIrX, clocks_xpaccOkX, clocks_pulse]
  ring

/-- An AP access scans DPACC in after its APACC transaction. -/
@[simp] theorem clocks_jtagApX (rnw : Bool) : (jtagApX cache rnw a v prev d ir irA t u).clocks =
    90 + irClocks cache 0xB + waitScanClocks t u := by
  simp only [jtagApX, clocks_andThen, clocks_ensureIrX, clocks_xpaccOkX, clocks_irScanX, waitScanClocks]
  ring

end

/-- A poll finds DPACC held. -/
@[simp] theorem JtagPoll.clocks_exchange (q : JtagPoll) : q.exchange.clocks = q.clocks :=
  clocks_jtagReadDpX ..

@[simp] theorem clocks_jtagPollsX (qs : List JtagPoll) : (jtagPollsX qs).clocks = (qs.map JtagPoll.clocks).sum := by
  induction qs with
  | nil => rfl
  | cons q qs ih => rw [jtagPollsX, clocks_andThen, JtagPoll.clocks_exchange, ih, List.map_cons, List.sum_cons]

/-! ## The clocks of a command (70_reset_and_hazards.md R313) -/

/-- The instruction answers when the transport answers as the exchange x says, and then it has added n clocks to the
trace. -/
def Takes (i : Instr) (s : State) (x : Exchange) (n : Nat) : Prop :=
  s.meets x → ∃ (t : State) (l : List Obs), exec i s = .next t ∧ t.trace = s.trace ++ l ∧ clockCount l = n

/-- An instruction that answers after the exchange x takes the clocks of x: its result takes none. -/
theorem Takes.of_answered {i : Instr} {s t : State} {x : Exchange} {n : Nat} {r : Result}
    (h : s.meets x → exec i s = .next (t.answered i r)) (hn : x.clocks = n) (ht : t.trace = s.trace ++ x.obs := by rfl) :
    Takes i s x n := by
  intro hm
  refine ⟨_, x.obs ++ [.result (.instr i) r], h hm, ?_, ?_⟩
  · rw [State.answered, ht, List.append_assoc]
  · rw [clockCount_append]
    exact hn

/-! ### Over SWD -/

section

variable {s : State} {t u w : SwdTry}

section

variable (hc : Connected .swd s) (ht : t.fits s.params)

include hc ht

theorem swdReadDp_takes (d : Word) :
    Takes (.readDp 0x0) s (swdReadOkX s.params false 0 d t) (t.clocks s.params) :=
  .of_answered (swdDpReadReturnsData _ 0 (by simp) s d t hc ht) (by simp)

/-- The ABORT, the CTRL/STAT and the SELECT write are one transaction each. -/
theorem swdWriteDp_takes (v : Word) :
    Takes (.writeDp 0x0 v) s (swdWriteOkX s.params false 0 v t) (t.clocks s.params) ∧
    (v.getLsbD 0 = false → Takes (.writeDp 0x4 v) s (swdWriteOkX s.params false 1 v t) (t.clocks s.params)) ∧
    (v.extractLsb' 0 4 = 0 → Takes (.writeDp 0x8 v) s ((swdWriteOkX s.params false 2 v t).andThen
      (if s.st.selectCache = some v then noExchange else pulse)) (t.clocks s.params)) := by
  obtain ⟨abort, ctrlStat, select⟩ := swdDpWrite s v t hc ht
  exact ⟨.of_answered (fun hm => abort hm _ (by simp)) (by simp),
    fun hv => .of_answered (fun hm => ctrlStat hv hm _ (by simp)) (by simp),
    fun hv => .of_answered (fun hm => select hv (meets_andThen.mp hm).1 _ (by simp)) (by simp)⟩

/-- A READ_DP answered FAULT, and its clear sequence. -/
theorem swdReadDp_fault_takes (hu : u.fits s.params) (hw : w.fits s.params) (v : Word) :
    Takes (.readDp 0x0) s ((swdFaultX s.params false true 0 t).andThen (swdScsX s.params v u w))
      (13 + s.params.idleCycles + t.waitClocks s.params + u.clocks s.params +
        if sticky v then w.clocks s.params else 0) :=
  have begins := (begins_readDp hc 0).of_eq (dpRead_swd hc.proto 0)
  .of_answered (fun hm => begins.stop (check_swdXfer_fault hc.proto ht hu hw hm)) (by simp [Nat.add_assoc])

/-- A READ_DP with no defined acknowledge ends there. -/
theorem swdReadDp_invalid_takes {k : BitVec 3} (hk : k ∈ [0b000, 0b011, 0b101, 0b110, 0b111]) :
    Takes (.readDp 0x0) s ((swdInvalidX s.params false true 0 k t).andThen pulse) (12 + t.waitClocks s.params) := by
  have undefined : swdAck k = .invalid k := by
    revert k
    decide
  have begins := (begins_readDp hc 0).of_eq (dpRead_swd hc.proto 0)
  exact .of_answered (fun hm => begins.desync (swdXfer_invalid rfl ht undefined (meets_andThen.mp hm).1)) (by simp)

/-- POWER_UP is its write, the polls that do not decide, and the poll that does. -/
theorem swdPowerUp_takes (hw : w.fits s.params) {v : Word} {qs : List (Word × SwdTry)} (hv : sticky v = false)
    (hon : powered v = true) (hl : qs.length < s.params.pwrPolls)
    (hq : ∀ q ∈ qs, sticky q.1 = false ∧ powered q.1 = false ∧ SwdTry.fits q.2 s.params) :
    Takes .powerUp s (((swdWriteOkX s.params false 1 0x50000000 w).andThen (swdPollsX s.params qs)).andThen
      (swdReadOkX s.params false 1 v t)) ((qs.length + 2) * (46 + s.params.idleCycles) + w.waitClocks s.params +
        (qs.map fun q => q.2.waitClocks s.params).sum + t.waitClocks s.params) := by
  obtain ⟨replied, -⟩ := swdPowerUp s w qs v 0 t t t hc hw ht ht ht hq
  refine .of_answered (replied hv hon hl) ?_
  simp only [clocks_andThen, clocks_swdWriteOkX, clocks_swdPollsX, clocks_swdReadOkX, SwdTry.clocks]
  ring

variable (hu : u.fits s.params) {ap addr : Addr} (haddr : addr.extractLsb' 0 2 = 0)

include hu haddr

/-- An AP access in the held bank is two transactions. -/
theorem swdAp_takes (ha : ApReady ap addr s) (v old d : Word) :
    let rdbuff := swdReadOkX s.params false 3 d u
    let n := 2 * (46 + s.params.idleCycles) + t.waitClocks s.params + u.waitClocks s.params
    Takes (.readAp ap addr) s ((swdReadOkX s.params true (regA addr) old t).andThen rdbuff) n ∧
    Takes (.writeAp ap addr v) s ((swdWriteOkX s.params true (regA addr) v t).andThen rdbuff) n :=
  ⟨.of_answered (swdApRead ap addr _ haddr (by simp) s old d t u hc ht hu ha.powered ha.select)
      (by simpa using SwdTry.clocks_add ..),
    .of_answered (swdApWrite ap addr v _ haddr (by simp) s d t u hc ht hu ha.powered ha.select)
      (by simpa using SwdTry.clocks_add ..)⟩

/-- One in another bank is three, the first of them the SELECT write. -/
theorem swdAp_select_takes (hw : w.fits s.params) (hd : s.st.dpPowered = true)
    (hs : s.st.selectCache ≠ some (requiredSelect ap addr)) (v old d : Word) :
    let sel := (swdWriteOkX s.params false 2 (requiredSelect ap addr) w).andThen pulse
    let rdbuff := swdReadOkX s.params false 3 d u
    let n := 3 * (46 + s.params.idleCycles) + w.waitClocks s.params + t.waitClocks s.params + u.waitClocks s.params
    Takes (.readAp ap addr) s ((sel.andThen (swdReadOkX s.params true (regA addr) old t)).andThen rdbuff) n ∧
    Takes (.writeAp ap addr v) s ((sel.andThen (swdWriteOkX s.params true (regA addr) v t)).andThen rdbuff) n := by
  obtain ⟨read, write⟩ := swdApAccessSelectsBank ap addr s v old d w t u haddr hc hw ht hu hd hs
  exact ⟨.of_answered read (by simpa using SwdTry.clocks_add_add ..),
    .of_answered write (by simpa using SwdTry.clocks_add_add ..)⟩

end

/-- CONNECT is three transactions; the model counts its line reset as no clocks (log 24). -/
theorem swdConnect_takes (ht : t.fits s.params) (hu : u.fits s.params) (hw : w.fits s.params)
    (hl : s.st.link ≠ .disconnected) (hc : s.params.caps.swd = true) (junk : Wire) (id : Word) :
    Takes .connectSwd s ((((pulse.andThen (lineResetX junk)).andThen (swdReadOkX s.params false 0 id t)).andThen
      (swdWriteOkX s.params false 0 0x1E u)).andThen (swdWriteOkX s.params false 2 0 w))
        (3 * (46 + s.params.idleCycles) + t.waitClocks s.params + u.waitClocks s.params + w.waitClocks s.params) :=
  .of_answered (swdConnect s junk id t u w hl hc ht hu hw) (by simpa using SwdTry.clocks_add_add ..)

end

/-! ### Over JTAG -/

section

variable {s : State} {t u w : JtagTry} {q : JtagPoll} (ht : t.fits s.params) (hu : u.fits s.params)
  (hq : q.fits s.params)

section

variable (hc : ConnectedJtag s)

include hc

/-- The ABORT write is one scan. -/
theorem jtagWriteAbort_takes (v : Word) (ir junk : Wire) (out : BitVec 35) :
    Takes (.writeDp 0x0 v) s (jtagAbortX s.st.irCache v ir out junk) (40 + irClocks s.st.irCache 0x8) := by
  have fits : (⟨[], 0⟩ : JtagTry).fits s.params := Nat.zero_le _
  obtain ⟨abort, -⟩ := jtagDpWrite s v 0 0 ir junk out _ _ hc fits fits
  exact .of_answered (fun hm => abort hm _ (by simp)) (clocks_jtagAbortX ..)

include ht hu

theorem jtagReadDp_takes (old d : Word) (ir : Wire) :
    Takes (.readDp 0x0) s (jtagReadDpX s.st.irCache 0 old d ir t u)
      (80 + irClocks s.st.irCache 0xA + waitScanClocks t u) :=
  .of_answered (jtagDpRead _ 0 (by decide) (by simp) s old d ir t u hc ht hu) (clocks_jtagReadDpX ..)

/-- The CTRL/STAT and the SELECT write are a transaction and its flush. -/
theorem jtagWriteDp_takes (v old d : Word) (ir : Wire) :
    let n := 80 + irClocks s.st.irCache 0xA + waitScanClocks t u
    Takes (.writeDp 0x4 v) s (jtagWriteDpX s.st.irCache 1 v old d ir t u) n ∧
    (v.extractLsb' 0 4 = 0 → Takes (.writeDp 0x8 v) s ((jtagWriteDpX s.st.irCache 2 v old d ir t u).andThen
      (if s.st.selectCache = some v then noExchange else pulse)) n) := by
  obtain ⟨-, ctrlStat, select⟩ := jtagDpWrite s v old d ir 0 0 t u hc ht hu
  exact ⟨.of_answered (fun hm => ctrlStat hm _ (by simp)) (by simp),
    fun hv => .of_answered (fun hm => select hv hm _ (by simp)) (by simp)⟩

include hq

/-- POWER_UP is its write, the polls that do not decide, and the poll that does. -/
theorem jtagPowerUp_takes {qs : List JtagPoll} (hv : sticky q.value = false) (hon : powered q.value = true)
    (hl : qs.length < s.params.pwrPolls)
    (hqs : ∀ r ∈ qs, sticky r.value = false ∧ powered r.value = false ∧ r.fits s.params) (old d : Word) (ir : Wire) :
    Takes .powerUp s (((jtagWriteDpX s.st.irCache 1 0x50000000 old d ir t u).andThen (jtagPollsX qs)).andThen q.exchange)
      (80 + irClocks s.st.irCache 0xA + waitScanClocks t u + (qs.map JtagPoll.clocks).sum + q.clocks) := by
  obtain ⟨replied, -⟩ := jtagPowerUp s old d 0 0 ir 0 0 0 t u t u qs q hc ht hu ht hu hq hqs
  refine .of_answered (replied hv hon hl) ?_
  rw [clocks_andThen, clocks_andThen, clocks_jtagWriteDpX, clocks_jtagPollsX, JtagPoll.clocks_exchange]

variable {ap addr : Addr} (haddr : addr.extractLsb' 0 2 = 0) (hv : sticky q.value = false)

include haddr hv

/-- An AP access in the held bank is its two transactions, the IR scan between them, and its poll. -/
theorem jtagAp_takes (ha : ApReady ap addr s) (v old d : Word) (ir irA : Wire) :
    let n := 90 + irClocks s.st.irCache 0xB + waitScanClocks t u + q.clocks
    Takes (.readAp ap addr) s ((jtagApX s.st.irCache true (regA addr) 0 old d ir irA t u).andThen q.exchange) n ∧
    Takes (.writeAp ap addr v) s ((jtagApX s.st.irCache false (regA addr) v old d ir irA t u).andThen q.exchange) n := by
  intro n
  obtain ⟨read, write⟩ :=
    jtagApAccess ap addr s v old d ir irA t u q haddr hc ht hu hq ha.powered ha.select hv
  have count (rnw : Bool) (x : Word) :
      ((jtagApX s.st.irCache rnw (regA addr) x old d ir irA t u).andThen q.exchange).clocks = n := by
    rw [clocks_andThen, clocks_jtagApX, JtagPoll.clocks_exchange]
  exact ⟨.of_answered (read _ (by simp)) (count true 0), .of_answered (write _ (by simp)) (count false v)⟩

/-- One in another bank makes its SELECT write first, which leaves DPACC held. -/
theorem jtagAp_select_takes (hw : w.fits s.params) (hd : s.st.dpPowered = true)
    (hs : s.st.selectCache ≠ some (requiredSelect ap addr)) (v old d : Word) (ir ir' irA : Wire) :
    let sel := jtagEnsureSelectX s.st.irCache (requiredSelect ap addr) old ir' w
    let n := 140 + irClocks s.st.irCache 0xA + 40 * w.waits.length + waitScanClocks t u + q.clocks
    Takes (.readAp ap addr) s
      ((sel.andThen (jtagApX (some 0xA) true (regA addr) 0 old d ir irA t u)).andThen q.exchange) n ∧
    Takes (.writeAp ap addr v) s
      ((sel.andThen (jtagApX (some 0xA) false (regA addr) v old d ir irA t u)).andThen q.exchange) n := by
  intro sel n
  obtain ⟨read, write⟩ :=
    jtagApAccessSelectsBank ap addr s v old old d ir' ir irA w t u q haddr hc hw ht hu hq hd hs hv
  have count (rnw : Bool) (x : Word) :
      ((sel.andThen (jtagApX (some 0xA) rnw (regA addr) x old d ir irA t u)).andThen q.exchange).clocks = n := by
    have apaccScan : irClocks (some 0xA) 0xB = 10 := rfl
    rw [clocks_andThen, clocks_andThen, clocks_jtagEnsureSelectX, clocks_jtagApX, apaccScan, JtagPoll.clocks_exchange]
    omega
  exact ⟨.of_answered read (count true 0), .of_answered write (count false v)⟩

end

include ht hu

/-- CONNECT is TapReset, the identity scan, the ABORT scan and the SELECT write, each with its IR scan. -/
theorem jtagConnect_takes (hl : s.st.link ≠ .disconnected) (hc : s.params.caps.jtag = true)
    (tdo irE junkE ir8 junk8 irA : Wire) (id prev d : Word) (out : BitVec 35) :
    Takes .connectJtag s ((((pulse.andThen (tapResetX tdo)).andThen (jtagIdcodeX none id irE junkE)).andThen
      (jtagAbortX (some 0xE) 0x1E ir8 out junk8)).andThen (jtagWriteDpX (some 0x8) 2 0 prev d irA t u))
        (193 + waitScanClocks t u) := by
  have scansDue : irClocks none 0xE = 10 ∧ irClocks (some 0xE) 0x8 = 10 ∧ irClocks (some 0x8) 0xA = 10 := by decide
  obtain ⟨idcodeDue, abortDue, dpaccDue⟩ := scansDue
  refine .of_answered (jtagConnect s tdo irE junkE ir8 junk8 irA id prev d out t u hl hc ht hu) ?_
  simp only [clocks_andThen, clocks_pulse, clocks_tapResetX, clocks_jtagIdcodeX, clocks_jtagAbortX, clocks_jtagWriteDpX,
    idcodeDue, abortDue, dpaccDue]
  omega

end

/-- Settles O60: each command takes the clocks of its exchange, which the frames of R86 and R93 add up to. -/
theorem clockCounts : Obligations.ClockCounts := by
  unfold Obligations.ClockCounts
  intro s ap addr id v d old takes select adopted haddr
  constructor
  · intro junk k t u w qs ht hu hw one stopped waits sel rd wr rdbuff
    refine ⟨fun hc => ?_, fun hl hcaps => swdConnect_takes ht hu hw hl hcaps junk id⟩
    obtain ⟨abortWrite, ctrlStatWrite, selectWrite⟩ := swdWriteDp_takes hc ht v
    exact ⟨swdReadDp_takes hc ht d, abortWrite, ctrlStatWrite, selectWrite, swdReadDp_fault_takes hc ht hu hw v,
      swdReadDp_invalid_takes hc ht, swdPowerUp_takes hc ht hw, fun ha => swdAp_takes hc ht hu haddr ha v old d,
      fun hd hs => swdAp_select_takes hc ht hu haddr hw hd hs v old d⟩
  · intro ir ir' irA junk junk' out t u w q qs ht hu hw hq waits polled scan sel
    refine ⟨fun hc => ?_,
      fun hl hcaps => jtagConnect_takes ht hu hl hcaps junk ir junk' ir' junk irA id old d out⟩
    obtain ⟨ctrlStatWrite, selectWrite⟩ := jtagWriteDp_takes ht hu hc v old d ir
    exact ⟨jtagReadDp_takes ht hu hc old d ir, ctrlStatWrite, selectWrite, jtagWriteAbort_takes hc v ir junk out,
      fun hv hon hl hqs => jtagPowerUp_takes ht hu hq hc hv hon hl hqs old d ir,
      fun hv ha => jtagAp_takes ht hu hq hc haddr hv ha v old d ir irA,
      fun hv hd hs => jtagAp_select_takes ht hu hq hc haddr hv hw hd hs v old d ir ir' irA⟩

end Sys2Proof.Machine
end
